-- ==== Sys2Proof/Word.lean ====
section
/-!
DEFINITION. The plainest types: bytes, command words, register indices, the domain bit, elements of the curve group,
and the error codes.
-/

namespace Sys2Proof

abbrev Byte := BitVec 8

/-- One 32-bit command word (30_encoding.md R80). -/
abbrev CmdWord := BitVec 32

/-- An index of the field register file, `0` to `15` (30_encoding.md R84). -/
abbrev FReg := Fin 16

/-- An index of the projective point register file, `0` to `7` (30_encoding.md R84). -/
abbrev PReg := Fin 8

/-- An index of the affine point register file, `0` to `3` (30_encoding.md R84). -/
abbrev AReg := Fin 4

/-- An index of the lookup-table file, `0` to `1` (30_encoding.md R84). -/
abbrev TReg := Fin 2

/-- The domain bit `D`: `field` is `D = 0` (modulus `p`), `scalar` is `D = 1` (modulus `n`) (00_scope.md R15). -/
inductive Domain where
  | field
  | scalar
  deriving DecidableEq, Repr

/-- An element of the group `E`: the identity `O`, or a pair of integers (00_scope.md R13). That the pair lies on the
curve is an invariant of the machine (10_state.md R28), not a part of the type. -/
inductive Point where
  | identity
  | affine (x y : Nat)
  deriving DecidableEq, Repr, Inhabited

/-- The codes a command can end with as `CmdError` (60_exceptions.md R271, codes 1 to 5). -/
inductive CmdError where
  | illegal
  | rsv
  | reg
  | imm
  | range
  deriving DecidableEq, Repr

/-- What STATUS.ERR holds (60_exceptions.md R271): the code of the last completed command. -/
inductive ErrCode where
  | ok
  | failed (e : CmdError)
  deriving DecidableEq, Repr

end Sys2Proof
end

