-- ==== Sys2Proof/Syntax.lean ====
section
/-!
DEFINITION. The commands: one constructor per row of spec/opcode_table.json (30_encoding.md R90), in the table's order.
Register operands carry their file's bound in their type; the immediates are the raw eight bits of the word, and
WellFormed says which of them are legal.
-/

namespace Sys2Proof

inductive Instr where
  -- 44_scalar_mul.md
  | nop
  -- 40_field.md
  | fadd (d : Domain) (rd ra rb : FReg)
  | fsub (d : Domain) (rd ra rb : FReg)
  | fneg (d : Domain) (rd ra : FReg)
  | fmul (d : Domain) (rd ra rb : FReg)
  | fsqr (d : Domain) (rd ra : FReg)
  | fdbl (d : Domain) (rd ra : FReg)
  | ftom (d : Domain) (rd ra : FReg)
  | ffromm (d : Domain) (rd ra : FReg)
  | fldk (d : Domain) (rd : FReg) (imm8 : BitVec 8)
  | fsel (d : Domain) (rd ra rb : FReg)
  | fcneg (d : Domain) (rd ra : FReg)
  | fisz (d : Domain) (ra : FReg)
  | fisodd (d : Domain) (ra : FReg)
  | feq (d : Domain) (ra rb : FReg)
  | setc (imm8 : BitVec 8)
  -- 41_inverter.md, 42_sqrt.md
  | finv (d : Domain) (rd ra : FReg)
  | fsqrt (d : Domain) (rd ra : FReg)
  -- 40_field.md, byte forms
  | fdec (d : Domain) (rd : FReg)
  | fenc (d : Domain) (ra : FReg)
  | fred (d : Domain) (rd : FReg)
  -- 43_point.md
  | pident (rd : PReg)
  | pgen (rd : PReg)
  | padd (rd ra rb : PReg)
  | padda (rd ra : PReg) (rb : AReg)
  | pdbl (rd ra : PReg)
  | pneg (rd ra : PReg)
  | pcneg (rd ra : PReg)
  | psel (rd ra rb : PReg)
  | pisid (ra : PReg)
  | peq (ra rb : PReg)
  | toaff (rd : AReg) (ra : PReg)
  | fromaff (rd : PReg) (ra : AReg)
  | aident (rd : AReg)
  | agen (rd : AReg)
  | aneg (rd ra : AReg)
  | aisid (ra : AReg)
  | agetx (rd : FReg) (ra : AReg)
  | agety (rd : FReg) (ra : AReg)
  | aset (rd : AReg) (ra rb : FReg)
  | penc (ra : AReg) (imm8 : BitVec 8)
  | pdec (rd : AReg) (imm8 : BitVec 8)
  -- 44_scalar_mul.md
  | pmul (rd ra : PReg) (rb : FReg)
  | pmulg (rd : PReg) (ra : FReg)
  | lincomb (rd ra : PReg) (rb : FReg) (rc : PReg) (re : FReg)
  | ltbuild (rd : TReg) (ra : PReg)
  | ltsel (rd : PReg) (ra : TReg) (imm8 : BitVec 8)
  | zeroize
  deriving DecidableEq, Repr

end Sys2Proof
end

