-- ==== Sys2Proof/WellFormed.lean ====
section
/-!
DEFINITION. Which commands are well formed: the register bounds are in the operand types, so what is left to check is
the legal set of each immediate (30_encoding.md R85 to R89).
-/

namespace Sys2Proof

/-- The legal immediates of SETC, PENC and PDEC: `0` and `1` (30_encoding.md R87, R88, R89). -/
def immIsBit (imm8 : BitVec 8) : Bool := decide (imm8.toNat ≤ 1)

/-- The legal digits of LTSEL: `-8 ≤ sext_8(imm8) ≤ 8` (30_encoding.md R86). -/
def immIsDigit (imm8 : BitVec 8) : Bool := decide (-8 ≤ imm8.toInt) && decide (imm8.toInt ≤ 8)

def Instr.wellFormed : Instr → Bool
  | .nop => true
  | .fadd _ _ _ _ => true
  | .fsub _ _ _ _ => true
  | .fneg _ _ _ => true
  | .fmul _ _ _ _ => true
  | .fsqr _ _ _ => true
  | .fdbl _ _ _ => true
  | .ftom _ _ _ => true
  | .ffromm _ _ _ => true
  | .fldk _ _ _ => true
  | .fsel _ _ _ _ => true
  | .fcneg _ _ _ => true
  | .fisz _ _ => true
  | .fisodd _ _ => true
  | .feq _ _ _ => true
  | .setc imm8 => immIsBit imm8
  | .finv _ _ _ => true
  | .fsqrt _ _ _ => true
  | .fdec _ _ => true
  | .fenc _ _ => true
  | .fred _ _ => true
  | .pident _ => true
  | .pgen _ => true
  | .padd _ _ _ => true
  | .padda _ _ _ => true
  | .pdbl _ _ => true
  | .pneg _ _ => true
  | .pcneg _ _ => true
  | .psel _ _ _ => true
  | .pisid _ => true
  | .peq _ _ => true
  | .toaff _ _ => true
  | .fromaff _ _ => true
  | .aident _ => true
  | .agen _ => true
  | .aneg _ _ => true
  | .aisid _ => true
  | .agetx _ _ => true
  | .agety _ _ => true
  | .aset _ _ _ => true
  | .penc _ imm8 => immIsBit imm8
  | .pdec _ imm8 => immIsBit imm8
  | .pmul _ _ _ => true
  | .pmulg _ _ => true
  | .lincomb _ _ _ _ _ => true
  | .ltbuild _ _ => true
  | .ltsel _ _ imm8 => immIsDigit imm8
  | .zeroize => true

end Sys2Proof
end

