-- ==== Sys2Proof/Decode.lean ====
section
/-!
DEFINITION. From command words to commands and back (30_encoding.md). `decode` is total: a legal word gives its
command, any other word gives the one error code that 60_exceptions.md R278 picks from the word alone. A command word
has no byte order of its own (20_memory.md R62): it is the 32-bit value written to CMD. The encoder is written from the
same tables, apart from the decoder.
-/

namespace Sys2Proof

/-- `bits[hi:lo]` of a non-negative integer (00_scope.md R11). -/
def bits (v hi lo : Nat) : Nat := v / 2 ^ lo % 2 ^ (hi - lo + 1)

/-- The fields of a command word in both formats (30_encoding.md R80, R81, R82). -/
structure Fields where
  op : Nat
  d : Nat
  rsv : Nat
  rd : Nat
  ra : Nat
  rb : Nat
  rc : Nat
  re : Nat
  imm8 : Nat
  rsv2 : Nat
  deriving DecidableEq, Repr

def fieldsOf (w : CmdWord) : Fields :=
  let v := w.toNat
  { op := bits v 31 26, d := bits v 25 25, rsv := bits v 24 20, rd := bits v 19 16, ra := bits v 15 12,
    rb := bits v 11 8, rc := bits v 7 4, re := bits v 3 0, imm8 := bits v 11 4, rsv2 := bits v 3 0 }

/-- The register file an index field names, one entry of the columns `rd ra rb rc re` of 30_encoding.md R90; `none` is
the table's `-`. -/
inductive Slot where
  | none
  | F
  | P
  | A
  | T
  deriving DecidableEq, Repr

/-- An unused field must be 0 (30_encoding.md R84, R93). -/
def Slot.unusedNonzero : Slot → Nat → Bool
  | .none, v => v != 0
  | _, _ => false

/-- The number of registers of the file a field names (30_encoding.md R84). -/
def Slot.limit : Slot → Nat
  | .none => 16
  | .F => 16
  | .P => 8
  | .A => 4
  | .T => 2

/-- An index out of its file's range (60_exceptions.md R275). -/
def Slot.outOfRange (s : Slot) (v : Nat) : Bool := decide (s.limit ≤ v)

/-- How a command reads `imm8` (30_encoding.md R85 to R89). -/
inductive ImmUse where
  | unsigned
  | bit
  | digit
  deriving DecidableEq, Repr

/-- An immediate outside its legal set (60_exceptions.md R275). -/
def ImmUse.illegal : ImmUse → Nat → Bool
  | .unsigned, _ => false
  | .bit, v => decide (1 < v)
  | .digit, v => decide (8 < v) && decide (v < 248)

/-- What follows `rd` and `ra`: three more index fields (format R) or an immediate (format I). -/
inductive Tail where
  | regs (rb rc re : Slot)
  | imm (use : ImmUse)
  deriving DecidableEq, Repr

/-- One row of the opcode map (30_encoding.md R90), with the command its fields stand for. -/
structure Row where
  op : Nat
  mnemonic : String
  usesD : Bool
  rd : Slot
  ra : Slot
  tail : Tail
  build : Fields → Instr

def Fields.domain (f : Fields) : Domain := if f.d = 0 then .field else .scalar

def toF (v : Nat) : FReg := Fin.ofNat 16 v

def toP (v : Nat) : PReg := Fin.ofNat 8 v

def toA (v : Nat) : AReg := Fin.ofNat 4 v

def toT (v : Nat) : TReg := Fin.ofNat 2 v

def toImm (v : Nat) : BitVec 8 := BitVec.ofNat 8 v

/-- The rows of NOP, the field engine, the inverter and the square root (opcodes `0x00` to `0x16`). -/
def fieldRows : List Row := [
  ⟨0x00, "NOP", false, .none, .none, .regs .none .none .none, fun _ => .nop⟩,
  ⟨0x01, "FADD", true, .F, .F, .regs .F .none .none, fun f => .fadd f.domain (toF f.rd) (toF f.ra) (toF f.rb)⟩,
  ⟨0x02, "FSUB", true, .F, .F, .regs .F .none .none, fun f => .fsub f.domain (toF f.rd) (toF f.ra) (toF f.rb)⟩,
  ⟨0x03, "FNEG", true, .F, .F, .regs .none .none .none, fun f => .fneg f.domain (toF f.rd) (toF f.ra)⟩,
  ⟨0x04, "FMUL", true, .F, .F, .regs .F .none .none, fun f => .fmul f.domain (toF f.rd) (toF f.ra) (toF f.rb)⟩,
  ⟨0x05, "FSQR", true, .F, .F, .regs .none .none .none, fun f => .fsqr f.domain (toF f.rd) (toF f.ra)⟩,
  ⟨0x06, "FDBL", true, .F, .F, .regs .none .none .none, fun f => .fdbl f.domain (toF f.rd) (toF f.ra)⟩,
  ⟨0x07, "FTOM", true, .F, .F, .regs .none .none .none, fun f => .ftom f.domain (toF f.rd) (toF f.ra)⟩,
  ⟨0x08, "FFROMM", true, .F, .F, .regs .none .none .none, fun f => .ffromm f.domain (toF f.rd) (toF f.ra)⟩,
  ⟨0x09, "FLDK", true, .F, .none, .imm .unsigned, fun f => .fldk f.domain (toF f.rd) (toImm f.imm8)⟩,
  ⟨0x0A, "FSEL", true, .F, .F, .regs .F .none .none, fun f => .fsel f.domain (toF f.rd) (toF f.ra) (toF f.rb)⟩,
  ⟨0x0B, "FCNEG", true, .F, .F, .regs .none .none .none, fun f => .fcneg f.domain (toF f.rd) (toF f.ra)⟩,
  ⟨0x0C, "FISZ", true, .none, .F, .regs .none .none .none, fun f => .fisz f.domain (toF f.ra)⟩,
  ⟨0x0D, "FISODD", true, .none, .F, .regs .none .none .none, fun f => .fisodd f.domain (toF f.ra)⟩,
  ⟨0x0E, "FEQ", true, .none, .F, .regs .F .none .none, fun f => .feq f.domain (toF f.ra) (toF f.rb)⟩,
  ⟨0x0F, "SETC", false, .none, .none, .imm .bit, fun f => .setc (toImm f.imm8)⟩,
  ⟨0x10, "FINV", true, .F, .F, .regs .none .none .none, fun f => .finv f.domain (toF f.rd) (toF f.ra)⟩,
  ⟨0x11, "FSQRT", true, .F, .F, .regs .none .none .none, fun f => .fsqrt f.domain (toF f.rd) (toF f.ra)⟩,
  ⟨0x14, "FDEC", true, .F, .none, .regs .none .none .none, fun f => .fdec f.domain (toF f.rd)⟩,
  ⟨0x15, "FENC", true, .none, .F, .regs .none .none .none, fun f => .fenc f.domain (toF f.ra)⟩,
  ⟨0x16, "FRED", true, .F, .none, .regs .none .none .none, fun f => .fred f.domain (toF f.rd)⟩]

/-- The rows of the point commands (opcodes `0x20` to `0x34`). -/
def pointRows : List Row := [
  ⟨0x20, "PIDENT", false, .P, .none, .regs .none .none .none, fun f => .pident (toP f.rd)⟩,
  ⟨0x21, "PGEN", false, .P, .none, .regs .none .none .none, fun f => .pgen (toP f.rd)⟩,
  ⟨0x22, "PADD", false, .P, .P, .regs .P .none .none, fun f => .padd (toP f.rd) (toP f.ra) (toP f.rb)⟩,
  ⟨0x23, "PADDA", false, .P, .P, .regs .A .none .none, fun f => .padda (toP f.rd) (toP f.ra) (toA f.rb)⟩,
  ⟨0x24, "PDBL", false, .P, .P, .regs .none .none .none, fun f => .pdbl (toP f.rd) (toP f.ra)⟩,
  ⟨0x25, "PNEG", false, .P, .P, .regs .none .none .none, fun f => .pneg (toP f.rd) (toP f.ra)⟩,
  ⟨0x26, "PCNEG", false, .P, .P, .regs .none .none .none, fun f => .pcneg (toP f.rd) (toP f.ra)⟩,
  ⟨0x27, "PSEL", false, .P, .P, .regs .P .none .none, fun f => .psel (toP f.rd) (toP f.ra) (toP f.rb)⟩,
  ⟨0x28, "PISID", false, .none, .P, .regs .none .none .none, fun f => .pisid (toP f.ra)⟩,
  ⟨0x29, "PEQ", false, .none, .P, .regs .P .none .none, fun f => .peq (toP f.ra) (toP f.rb)⟩,
  ⟨0x2A, "TOAFF", false, .A, .P, .regs .none .none .none, fun f => .toaff (toA f.rd) (toP f.ra)⟩,
  ⟨0x2B, "FROMAFF", false, .P, .A, .regs .none .none .none, fun f => .fromaff (toP f.rd) (toA f.ra)⟩,
  ⟨0x2C, "AIDENT", false, .A, .none, .regs .none .none .none, fun f => .aident (toA f.rd)⟩,
  ⟨0x2D, "AGEN", false, .A, .none, .regs .none .none .none, fun f => .agen (toA f.rd)⟩,
  ⟨0x2E, "ANEG", false, .A, .A, .regs .none .none .none, fun f => .aneg (toA f.rd) (toA f.ra)⟩,
  ⟨0x2F, "AISID", false, .none, .A, .regs .none .none .none, fun f => .aisid (toA f.ra)⟩,
  ⟨0x30, "AGETX", false, .F, .A, .regs .none .none .none, fun f => .agetx (toF f.rd) (toA f.ra)⟩,
  ⟨0x31, "AGETY", false, .F, .A, .regs .none .none .none, fun f => .agety (toF f.rd) (toA f.ra)⟩,
  ⟨0x32, "ASET", false, .A, .F, .regs .F .none .none, fun f => .aset (toA f.rd) (toF f.ra) (toF f.rb)⟩,
  ⟨0x33, "PENC", false, .none, .A, .imm .bit, fun f => .penc (toA f.ra) (toImm f.imm8)⟩,
  ⟨0x34, "PDEC", false, .A, .none, .imm .bit, fun f => .pdec (toA f.rd) (toImm f.imm8)⟩]

/-- The rows of the scalar multiplier, the lookup table and ZEROIZE (opcodes `0x38` to `0x3F`). -/
def scalarRows : List Row := [
  ⟨0x38, "PMUL", false, .P, .P, .regs .F .none .none, fun f => .pmul (toP f.rd) (toP f.ra) (toF f.rb)⟩,
  ⟨0x39, "PMULG", false, .P, .F, .regs .none .none .none, fun f => .pmulg (toP f.rd) (toF f.ra)⟩,
  ⟨0x3A, "LINCOMB", false, .P, .P, .regs .F .P .F, fun f => .lincomb (toP f.rd) (toP f.ra) (toF f.rb) (toP f.rc) (toF f.re)⟩,
  ⟨0x3B, "LTBUILD", false, .T, .P, .regs .none .none .none, fun f => .ltbuild (toT f.rd) (toP f.ra)⟩,
  ⟨0x3C, "LTSEL", false, .P, .T, .imm .digit, fun f => .ltsel (toP f.rd) (toT f.ra) (toImm f.imm8)⟩,
  ⟨0x3F, "ZEROIZE", false, .none, .none, .regs .none .none .none, fun _ => .zeroize⟩]

/-- The opcode map of 30_encoding.md R90. -/
def opcodeMap : List Row := fieldRows ++ pointRows ++ scalarRows

def rowOf (op : Nat) : Option Row := opcodeMap.find? (fun r => r.op == op)

/-- A non-zero reserved bit or unused field (60_exceptions.md R274). -/
def Row.rsvViolated (r : Row) (f : Fields) : Bool :=
  f.rsv != 0 || (!r.usesD && f.d != 0) || r.rd.unusedNonzero f.rd || r.ra.unusedNonzero f.ra ||
    match r.tail with
    | .regs rb rc re => rb.unusedNonzero f.rb || rc.unusedNonzero f.rc || re.unusedNonzero f.re
    | .imm _ => f.rsv2 != 0

/-- A `P`, `A` or `T` index out of range (60_exceptions.md R275). -/
def Row.regViolated (r : Row) (f : Fields) : Bool :=
  r.rd.outOfRange f.rd || r.ra.outOfRange f.ra ||
    match r.tail with
    | .regs rb rc re => rb.outOfRange f.rb || rc.outOfRange f.rc || re.outOfRange f.re
    | .imm _ => false

/-- An immediate outside its legal set (60_exceptions.md R275). -/
def Row.immViolated (r : Row) (f : Fields) : Bool :=
  match r.tail with
  | .regs _ _ _ => false
  | .imm use => use.illegal f.imm8

/-- Decoding, with the checks 1 to 4 of 60_exceptions.md R278 in their order (30_encoding.md R95). -/
def decode (w : CmdWord) : Except CmdError Instr :=
  let f := fieldsOf w
  match rowOf f.op with
  | none => .error .illegal
  | some r =>
    if r.rsvViolated f then .error .rsv
    else if r.regViolated f then .error .reg
    else if r.immViolated f then .error .imm
    else .ok (r.build f)

/-- The command a word stands for, where it is legal. -/
def decode? (w : CmdWord) : Option Instr :=
  match decode w with
  | .ok i => some i
  | .error _ => none

/-- The command the decoder reads from an opcode-table word: a command is one 32-bit value with the table's bit
numbering (30_encoding.md R80), so there are no words to lay out. -/
def decodeTableWord (nbits w : Nat) : Option Instr := decode? (BitVec.ofNat 32 (w % 2 ^ nbits))

/-! ### The encoder -/

def bitOf : Domain → Nat
  | .field => 0
  | .scalar => 1

/-- Format R (30_encoding.md R80, R81). -/
def packR (op d rd ra rb rc re : Nat) : CmdWord :=
  BitVec.ofNat 32 (op * 2 ^ 26 + d * 2 ^ 25 + rd * 2 ^ 16 + ra * 2 ^ 12 + rb * 2 ^ 8 + rc * 2 ^ 4 + re)

/-- Format I (30_encoding.md R80, R82). -/
def packI (op d rd ra imm8 : Nat) : CmdWord :=
  BitVec.ofNat 32 (op * 2 ^ 26 + d * 2 ^ 25 + rd * 2 ^ 16 + ra * 2 ^ 12 + imm8 * 2 ^ 4)

/-- The word of a command (30_encoding.md R90). -/
def encode : Instr → CmdWord
  | .nop => packR 0x00 0 0 0 0 0 0
  | .fadd d rd ra rb => packR 0x01 (bitOf d) rd ra rb 0 0
  | .fsub d rd ra rb => packR 0x02 (bitOf d) rd ra rb 0 0
  | .fneg d rd ra => packR 0x03 (bitOf d) rd ra 0 0 0
  | .fmul d rd ra rb => packR 0x04 (bitOf d) rd ra rb 0 0
  | .fsqr d rd ra => packR 0x05 (bitOf d) rd ra 0 0 0
  | .fdbl d rd ra => packR 0x06 (bitOf d) rd ra 0 0 0
  | .ftom d rd ra => packR 0x07 (bitOf d) rd ra 0 0 0
  | .ffromm d rd ra => packR 0x08 (bitOf d) rd ra 0 0 0
  | .fldk d rd imm8 => packI 0x09 (bitOf d) rd 0 imm8.toNat
  | .fsel d rd ra rb => packR 0x0A (bitOf d) rd ra rb 0 0
  | .fcneg d rd ra => packR 0x0B (bitOf d) rd ra 0 0 0
  | .fisz d ra => packR 0x0C (bitOf d) 0 ra 0 0 0
  | .fisodd d ra => packR 0x0D (bitOf d) 0 ra 0 0 0
  | .feq d ra rb => packR 0x0E (bitOf d) 0 ra rb 0 0
  | .setc imm8 => packI 0x0F 0 0 0 imm8.toNat
  | .finv d rd ra => packR 0x10 (bitOf d) rd ra 0 0 0
  | .fsqrt d rd ra => packR 0x11 (bitOf d) rd ra 0 0 0
  | .fdec d rd => packR 0x14 (bitOf d) rd 0 0 0 0
  | .fenc d ra => packR 0x15 (bitOf d) 0 ra 0 0 0
  | .fred d rd => packR 0x16 (bitOf d) rd 0 0 0 0
  | .pident rd => packR 0x20 0 rd 0 0 0 0
  | .pgen rd => packR 0x21 0 rd 0 0 0 0
  | .padd rd ra rb => packR 0x22 0 rd ra rb 0 0
  | .padda rd ra rb => packR 0x23 0 rd ra rb 0 0
  | .pdbl rd ra => packR 0x24 0 rd ra 0 0 0
  | .pneg rd ra => packR 0x25 0 rd ra 0 0 0
  | .pcneg rd ra => packR 0x26 0 rd ra 0 0 0
  | .psel rd ra rb => packR 0x27 0 rd ra rb 0 0
  | .pisid ra => packR 0x28 0 0 ra 0 0 0
  | .peq ra rb => packR 0x29 0 0 ra rb 0 0
  | .toaff rd ra => packR 0x2A 0 rd ra 0 0 0
  | .fromaff rd ra => packR 0x2B 0 rd ra 0 0 0
  | .aident rd => packR 0x2C 0 rd 0 0 0 0
  | .agen rd => packR 0x2D 0 rd 0 0 0 0
  | .aneg rd ra => packR 0x2E 0 rd ra 0 0 0
  | .aisid ra => packR 0x2F 0 0 ra 0 0 0
  | .agetx rd ra => packR 0x30 0 rd ra 0 0 0
  | .agety rd ra => packR 0x31 0 rd ra 0 0 0
  | .aset rd ra rb => packR 0x32 0 rd ra rb 0 0
  | .penc ra imm8 => packI 0x33 0 0 ra imm8.toNat
  | .pdec rd imm8 => packI 0x34 0 rd 0 imm8.toNat
  | .pmul rd ra rb => packR 0x38 0 rd ra rb 0 0
  | .pmulg rd ra => packR 0x39 0 rd ra 0 0 0
  | .lincomb rd ra rb rc re => packR 0x3A 0 rd ra rb rc re
  | .ltbuild rd ra => packR 0x3B 0 rd ra 0 0 0
  | .ltsel rd ra imm8 => packI 0x3C 0 rd ra imm8.toNat
  | .zeroize => packR 0x3F 0 0 0 0 0 0

end Sys2Proof
end

