-- ==== Sys2Proof/Config.lean ====
section
/-!
DEFINITION. What an implementation fixes. The build parameters of 00_scope.md R8 are plain data (`Params`), held in the
machine's state as the spec's global constant state (10_state.md R39), so that every statement over all states is one
over all builds. The free values, which the spec leaves open without naming them a parameter, are constants with no
body.
-/

namespace Sys2Proof

/-- `BYTE_ORDER` (00_scope.md R8, 20_memory.md R59). -/
inductive ByteOrder where
  | big
  | little
  deriving DecidableEq, Repr

/-- `COORD` (00_scope.md R8): shown in PARAM0.COORD and of no other effect (10_state.md R27). -/
inductive Coord where
  | homogeneous
  | jacobian
  deriving DecidableEq, Repr

/-- The build parameters of 00_scope.md R8 that are not derived from others. -/
structure Params where
  /-- `W`, words per field element -/
  w : Nat
  /-- `WORD`, bits per word -/
  word : Nat
  /-- the field modulus -/
  p : Nat
  /-- the group order, the modulus of scalars -/
  n : Nat
  a : Nat
  b : Nat
  gx : Nat
  gy : Nat
  byteOrder : ByteOrder
  coord : Coord
  /-- `ROOT_OF_UNITY_p`; without meaning where `p` is no Tonelli–Shanks modulus -/
  rootP : Nat
  /-- `ROOT_OF_UNITY_n`; without meaning where `n` is no Tonelli–Shanks modulus -/
  rootN : Nat
  /-- `SQRT_TS_m`: the pairs of a modulus and a residue for which this instance returns the root `m - x` where the
  reference loop of 42_sqrt.md R173 finds `x`; any list is allowed. Log entry 5. -/
  otherRoots : List (Nat × Nat)
  bufBytes : Nat
  idValue : BitVec 32
  baseAddr : Nat
  tInit : Nat
  deriving DecidableEq, Repr

/-- The five registers `(delta, f, g, v, r)` of the inverse engine (41_inverter.md R151). -/
structure InverterRegs where
  delta : Int
  f : Int
  g : Int
  v : Nat
  r : Nat
  deriving DecidableEq, Repr, Inhabited

/-- The hidden state an implementation keeps (10_state.md R38). No command and no host access observes it. -/
structure Hidden where
  /-- the inverter's registers -/
  inverter : InverterRegs
  /-- the square-root pipeline's intermediates -/
  sqrtWork : List Nat
  /-- the scalar multiplier's digit sequence -/
  digits : List Int
  /-- the scalar multiplier's accumulator -/
  acc : Point
  /-- the scalar multiplier's private tables -/
  tables : List Point
  /-- the triples `(X, Y, Z)` that represent the projective point registers (10_state.md R27) -/
  coords : List (Nat × Nat × Nat)
  deriving DecidableEq, Repr, Inhabited

/-- Hidden state after reset and after ZEROIZE: cleared (70_reset_and_hazards.md R300, 44_scalar_mul.md R253). -/
def Hidden.cleared : Hidden :=
  { inverter := { delta := 0, f := 0, g := 0, v := 0, r := 0 }, sqrtWork := [], digits := [], acc := .identity,
    tables := [], coords := [] }

namespace Config

/-- FSQRT's destination for a non-residue, before it is brought into `[0, m)`: `draw([0, m))` (42_sqrt.md R175,
93_implementation_defined.md I1). Free; log entry 4. -/
opaque freeWord : Nat → Nat

/-- A read of a BUF word while STATUS.BUSY is 1: `draw([0, 2^32))` (70_reset_and_hazards.md R311). Free; log entry 6. -/
opaque freeBusWord : Nat → BitVec 32

/-- A read of BUFLEN while STATUS.BUSY is 1: `draw([0, 256))` (70_reset_and_hazards.md R311). Free; log entry 6. -/
opaque freeBusByte : Nat → BitVec 8

/-- What a command leaves in the hidden intermediates (10_state.md R38, 93_implementation_defined.md I13, I14).
Free; log entry 7. -/
opaque freeHidden : Nat → Hidden

/-- How long STATUS.BUSY reads 1 after a reset, before it is bounded by `T_INIT` (70_reset_and_hazards.md R302).
Free; log entry 8. -/
opaque freeInit : Nat → Nat

end Config

/-- TOY13 of 95_test_vectors.md section 1: the instance `State.reset` is built for (log entries 1 and 2). -/
def Params.toy13 : Params :=
  { w := 1, word := 32, p := 13, n := 19, a := 0, b := 2, gx := 1, gy := 4, byteOrder := .big, coord := .homogeneous,
    rootP := 0, rootN := 0, otherRoots := [], bufBytes := 8, idValue := 0, baseAddr := 0, tInit := 0 }

end Sys2Proof
end

