-- ==== Sys2Proof/Machine/Build.lean ====
section
/-!
DEFINITION. The build parameters that follow from others (00_scope.md R8).
-/

namespace Sys2Proof

/-- The number of bits of a positive integer: `NBITS_P`, `NBITS_N` (00_scope.md R8). -/
def nbits (m : Nat) : Nat := Nat.log2 m + 1

/-- `ceil(x/y)` (00_scope.md R11). -/
def ceilDiv (x y : Nat) : Nat := (x + y - 1) / y

/-- The largest `s` with `2^s ∣ x`, for `0 < x < 2^fuel`. -/
def twoAdic : (fuel x : Nat) → Nat
  | 0, _ => 0
  | fuel + 1, x => if x % 2 = 0 then twoAdic fuel (x / 2) + 1 else 0

/-- `S_m`: the 2-adic valuation of `m - 1` (00_scope.md R8, 42_sqrt.md R173). -/
def sOf (m : Nat) : Nat := twoAdic (nbits m) (m - 1)

/-- `Q_m`: the odd part of `m - 1` (00_scope.md R8, 42_sqrt.md R173). -/
def qOf (m : Nat) : Nat := (m - 1) / 2 ^ sOf m

/-- `N_DIV_m` (00_scope.md R8, 41_inverter.md R153). -/
def nDiv (m : Nat) : Nat := ceilDiv (49 * nbits m + 57) 17

/-- The square-root methods (42_sqrt.md R170). -/
inductive SqrtMethod where
  | exp
  | atkin
  | ts
  deriving DecidableEq, Repr

/-- `SQRT_m`: the method is fixed by the modulus (42_sqrt.md R170). -/
def sqrtMethod (m : Nat) : SqrtMethod :=
  if m % 4 = 3 then .exp else if m % 8 = 5 then .atkin else .ts

/-- The encoding PARAM0 shows a method with (42_sqrt.md R170). -/
def SqrtMethod.code : SqrtMethod → Nat
  | .exp => 0
  | .atkin => 1
  | .ts => 2

namespace Params

/-- `LBITS` (00_scope.md R8). -/
def lbits (c : Params) : Nat := c.w * c.word

/-- `R`, the Montgomery radix (00_scope.md R8). -/
def radix (c : Params) : Nat := 2 ^ c.lbits

/-- `m(D)` (00_scope.md R15). -/
def modulus (c : Params) : Domain → Nat
  | .field => c.p
  | .scalar => c.n

/-- `FB(D)`: `FB_P` or `FB_N`, `ceil(NBITS/8)` (00_scope.md R8, R15). -/
def fb (c : Params) (d : Domain) : Nat := ceilDiv (nbits (c.modulus d)) 8

/-- `DIGITS` (00_scope.md R8, 90_conflicts.md C1). -/
def digits (c : Params) : Nat := ceilDiv (nbits c.n + 1) 4

/-- The generator `G` (00_scope.md R8). -/
def generator (c : Params) : Point := .affine c.gx c.gy

/-- How many core cycles STATUS.BUSY reads 1 after a reset: at most `T_INIT`, and open below it
(70_reset_and_hazards.md R302). Log entry 8. -/
def initAfterReset (c : Params) (draw : Nat) : Nat :=
  if c.tInit = 0 then 0 else Config.freeInit draw % (c.tInit + 1)

end Params

end Sys2Proof
end

