-- ==== Sys2Proof/Machine/Modular.lean ====
section
/-!
DEFINITION. Integers modulo `m` (00_scope.md R11, R12): powers, inverses, the Montgomery maps, and the Montgomery
reduction an implementation may use.
-/

namespace Sys2Proof

/-- `(x - y) mod m`, for any `x` and `y` (00_scope.md R11). -/
def subMod (m x y : Nat) : Nat := (x + (m - y % m)) % m

/-- `b^e mod m` for `e < 2^fuel`, one squaring per bit of the exponent. -/
def powModFuel (m : Nat) : (fuel b e : Nat) → Nat
  | 0, _, _ => 1 % m
  | fuel + 1, b, e =>
    if e % 2 = 1 then b * powModFuel m fuel (b * b % m) (e / 2) % m
    else powModFuel m fuel (b * b % m) (e / 2)

/-- `b^e mod m`. -/
def powMod (m b e : Nat) : Nat := powModFuel m (nbits e) b e

/-- `inv_m(x)`: the `y` in `[1, m)` with `x*y mod m = 1`, for a prime `m` that does not divide `x` (00_scope.md R11);
computed as `x^(m-2)`. Log entry 9. -/
def invMod (m x : Nat) : Nat := powMod m x (m - 2)

/-- `mont_m(v) = v*R mod m` (00_scope.md R12). -/
def Params.mont (c : Params) (m v : Nat) : Nat := v * c.radix % m

/-- `val_m(w) = w*inv_m(R) mod m` (00_scope.md R12). -/
def Params.val (c : Params) (m w : Nat) : Nat := w * invMod m c.radix % m

/-- `montmul_m(x, y) = x*y*inv_m(R) mod m` (00_scope.md R12). -/
def Params.montMul (c : Params) (m x y : Nat) : Nat := x * y * invMod m c.radix % m

/-- `-inv_R(m) mod R` for an odd `m`: the constant of Montgomery reduction (40_field.md R115); the inverse modulo
`R = 2^LBITS` is `m^(R/2 - 1)`, because `R/2` is the order of the group of odd residues. -/
def Params.redcFactor (c : Params) (m : Nat) : Nat :=
  subMod c.radix 0 (powMod c.radix m (c.radix / 2 - 1))

/-- Montgomery reduction with one conditional subtraction, a way to compute the product that 40_field.md R115 names as
an implementation's: `REDC(T) = (T + ((T * (-inv_R(m))) mod R) * m) / R`. No command depends on it. -/
def Params.redc (c : Params) (m t : Nat) : Nat :=
  let u := (t + t * c.redcFactor m % c.radix * m) / c.radix
  if m ≤ u then u - m else u

end Sys2Proof
end

