-- ==== Sys2Proof/Machine/Group.lean ====
section
/-!
DEFINITION. The curve group `E` of 00_scope.md R13 with the operation of 43_point.md R190, and the complete projective
formulas of R192.
-/

namespace Sys2Proof

/-- `(x^3 + a*x + b) mod p`, the right side of the curve equation. -/
def Params.curveRhs (c : Params) (x : Nat) : Nat := (x ^ 3 + c.a * x + c.b) % c.p

/-- `(y^2 - x^3 - a*x - b) mod p = 0` (43_point.md R211). -/
def Params.onCurveXY (c : Params) (x y : Nat) : Bool := decide (y ^ 2 % c.p = c.curveRhs x)

/-- Membership of `E` (00_scope.md R13). -/
def Params.onCurve (c : Params) : Point → Bool
  | .identity => true
  | .affine x y => decide (x < c.p) && decide (y < c.p) && c.onCurveXY x y

/-- `-P` (43_point.md R190). -/
def Params.neg (c : Params) : Point → Point
  | .identity => .identity
  | .affine x y => .affine x ((c.p - y) % c.p)

/-- The slope of R190: of the tangent where the two `x` are equal, of the chord otherwise. -/
def Params.slope (c : Params) (x1 y1 x2 y2 : Nat) : Nat :=
  if x1 = x2 then (3 * x1 ^ 2 + c.a) * invMod c.p (2 * y1) % c.p
  else subMod c.p y2 y1 * invMod c.p (subMod c.p x2 x1) % c.p

/-- `P +E Q` (43_point.md R190). -/
def Params.add (c : Params) : Point → Point → Point
  | .identity, q => q
  | .affine x1 y1, .identity => .affine x1 y1
  | .affine x1 y1, .affine x2 y2 =>
    if x1 = x2 ∧ (y1 + y2) % c.p = 0 then .identity
    else
      let l := c.slope x1 y1 x2 y2
      let x3 := subMod c.p (l ^ 2) (x1 + x2)
      .affine x3 (subMod c.p (l * subMod c.p x1 x3) y1)

/-- `[k]P`, the `k`-fold sum, `[0]P = O` (00_scope.md R13). -/
def Params.nsmul (c : Params) : Nat → Point → Point
  | 0, _ => .identity
  | k + 1, q => c.add (c.nsmul k q) q

/-- `[1]B … [8]B`, the contents of a lookup table (10_state.md R30, 44_scalar_mul.md R245). -/
def Params.multiples (c : Params) (base : Point) : Vector Point 8 := Vector.ofFn fun j => c.nsmul (j.val + 1) base

/-! ### The reference complete formulas (43_point.md R192) -/

/-- A projective triple with `x = X/Z`, `y = Y/Z`. -/
structure Triple where
  X : Nat
  Y : Nat
  Z : Nat
  deriving DecidableEq, Repr

/-- A triple of an element of `E`: `(0 : 1 : 0)` for the identity. -/
def Triple.ofPoint : Point → Triple
  | .identity => ⟨0, 1, 0⟩
  | .affine x y => ⟨x, y, 1⟩

/-- The element of `E` a triple stands for, `Z = 0` the identity (10_state.md R27). -/
def Triple.toPoint (c : Params) (t : Triple) : Point :=
  if t.Z % c.p = 0 then .identity
  else .affine (t.X * invMod c.p t.Z % c.p) (t.Y * invMod c.p t.Z % c.p)

/-- The addition of Renes, Costello and Batina as 43_point.md R192 transcribes it, one line of the rule a line here.
Informative: no command depends on it, since which formulas an implementation uses is not observable (R191). -/
def Params.completeAdd (c : Params) (s t : Triple) : Triple :=
  let p := c.p
  let b3 := 3 * c.b % p
  let t0 := s.X * t.X % p; let t1 := s.Y * t.Y % p; let t2 := s.Z * t.Z % p
  let t3 := (s.X + s.Y) % p; let t4 := (t.X + t.Y) % p; let t3 := t3 * t4 % p
  let t4 := (t0 + t1) % p; let t3 := subMod p t3 t4
  let t4 := (s.X + s.Z) % p; let t5 := (t.X + t.Z) % p; let t4 := t4 * t5 % p
  let t5 := (t0 + t2) % p; let t4 := subMod p t4 t5
  let t5 := (s.Y + s.Z) % p; let x3 := (t.Y + t.Z) % p; let t5 := t5 * x3 % p
  let x3 := (t1 + t2) % p; let t5 := subMod p t5 x3
  let z3 := c.a * t4 % p; let x3 := b3 * t2 % p; let z3 := (x3 + z3) % p
  let x3 := subMod p t1 z3; let z3 := (t1 + z3) % p; let y3 := x3 * z3 % p
  let t1 := (t0 + t0) % p; let t1 := (t1 + t0) % p; let t2 := c.a * t2 % p
  let t4 := b3 * t4 % p; let t1 := (t1 + t2) % p; let t2 := subMod p t0 t2
  let t2 := c.a * t2 % p; let t4 := (t4 + t2) % p
  let t0 := t1 * t4 % p; let y3 := (y3 + t0) % p; let t0 := t5 * t4 % p
  let x3 := t3 * x3 % p; let x3 := subMod p x3 t0; let t0 := t3 * t1 % p
  let z3 := t5 * z3 % p; let z3 := (z3 + t0) % p
  ⟨x3, y3, z3⟩

end Sys2Proof
end

