-- ==== Sys2Proof/Machine/State.lean ====
section
/-!
DEFINITION. The machine's state as plain data, everything the spec gives the machine, and the state after reset.
-/

namespace Sys2Proof.Machine

/-- Why the machine could stop with a fault. The core takes no traps (60_exceptions.md R284), so no definition of this
model raises one. -/
inductive Fault where
  /-- An internal-invariant violation: "indicates a defect", unreachable from any sequence of host accesses
  (60_exceptions.md R280, 93_implementation_defined.md I18, treatment `stuck`). Raised by nothing, hence safe. -/
  | internalInvariant
  deriving DecidableEq, Repr

/-- Why the machine could refuse an instruction. -/
inductive Refusal where
  /-- An instruction that has no meaning yet, by its mnemonic. Raised by an arm of `exec` only, where one is left; none
  is. Safe. -/
  | notModelled (mnemonic : String)
  deriving DecidableEq, Repr

/-- What happens next outside the core, or that the core moves next: one entry of the total order of host accesses and
core steps (20_memory.md R63). Log entry 3. -/
inductive Input where
  /-- the host reads `bytes` bytes at a bus address -/
  | read (bytes addr : Nat)
  /-- the host writes `bytes` bytes at a bus address -/
  | write (bytes addr : Nat) (value : BitVec 32)
  /-- the core takes its next step -/
  | core
  /-- the platform asserts the reset input -/
  | reset
  deriving DecidableEq, Repr

/-- The bus response to a host access: an error response or not, and a read's data (20_memory.md R52 to R55). -/
structure Response where
  error : Bool
  data : Option (BitVec 32)
  deriving DecidableEq, Repr

/-- The byte buffer's contents: bytes by index (10_state.md R33). -/
abbrev Memory := List Host.Cell

structure State where
  /-- the build parameters, the global constant state (10_state.md R39) -/
  cfg : Params
  /-- FR (10_state.md R22) -/
  fr : Vector Nat 16
  /-- PR (10_state.md R26) -/
  pr : Vector Point 8
  /-- AR (10_state.md R26) -/
  ar : Vector Point 4
  /-- LT (10_state.md R30) -/
  lt : Vector (Vector Point 8) 2
  /-- CF (10_state.md R32) -/
  cf : Bool
  /-- BUF (10_state.md R33): the bytes that are not 0, by index, in the canonical form of `Memory.wf` -/
  buf : Memory
  /-- BUFLEN (10_state.md R34) -/
  buflen : BitVec 8
  /-- INFLIGHT (10_state.md R36) -/
  inflight : Option CmdWord
  /-- CMD readback (10_state.md R35) -/
  cmd : CmdWord
  /-- CTRL.IE (10_state.md R35) -/
  ie : Bool
  /-- STATUS.DONE (10_state.md R35) -/
  done : Bool
  /-- STATUS.ERR (10_state.md R35) -/
  err : ErrCode
  /-- STATUS.ERRS (10_state.md R35) -/
  errs : Bool
  /-- STATUS.OVR (10_state.md R35) -/
  ovr : Bool
  /-- core cycles of initialisation left (70_reset_and_hazards.md R302) -/
  init : Nat
  /-- hidden state (10_state.md R38) -/
  hidden : Hidden
  /-- the model's own: the counter the free values are read with (log entry 18) -/
  draws : Nat
  /-- the model's own: what happens next (20_memory.md R63, log entry 3) -/
  inputs : List Input
  /-- the model's own: the response to the last host access (log entry 17) -/
  resp : Option Response
  deriving DecidableEq, Repr

/-- The state after the reset of an instance (70_reset_and_hazards.md R300). It takes the free value at 0 for the length
of its initialisation (R302, log entry 8) and leaves the counter at 1, so that no later reset takes that one again (log
entry 18). -/
def State.resetOf (c : Params) : State :=
  { cfg := c, fr := Vector.replicate 16 0, pr := Vector.replicate 8 .identity, ar := Vector.replicate 4 .identity,
    lt := Vector.replicate 2 (Vector.replicate 8 .identity), cf := false, buf := [], buflen := 0, inflight := none,
    cmd := 0, ie := false, done := false, err := .ok, errs := false, ovr := false, init := c.initAfterReset 0,
    hidden := .cleared, draws := 1, inputs := [], resp := none }

/-- The machine right after reset, for the instance of log entry 1. -/
def State.reset : State := State.resetOf Params.toy13

/-- What a meaning and a step answer. -/
abbrev Result := Host.Outcome State Fault Refusal

end Sys2Proof.Machine
end

