-- ==== Sys2Proof/Machine/Memory.lean ====
section
/-!
DEFINITION. The byte buffer as memory: bytes by index in one canonical form, reading and writing one byte and byte
strings, and the byte form of integers. An index that is not listed reads as 0, the reset contents of BUF
(10_state.md R33).
-/

namespace Sys2Proof.Machine

namespace Memory

/-- What an index that is not listed reads as: every byte of BUF is 0 after reset (10_state.md R33). -/
def unlisted : Byte := 0

/-- Every index of the list is at least `lo`, the indices rise strictly, and no byte is the unlisted one. -/
def wfFrom : (lo : Nat) → Memory → Bool
  | _, [] => true
  | lo, (k, v) :: rest => decide (lo ≤ k) && (v != unlisted) && wfFrom (k + 1) rest

/-- The canonical form: indices strictly rising, no entry equal to what an unlisted index reads as. -/
def wf (m : Memory) : Bool := wfFrom 0 m

/-- Read one byte. -/
def read : Memory → (i : Nat) → Byte
  | [], _ => unlisted
  | (k, v) :: rest, i => if i = k then v else read rest i

/-- Write one byte, keeping the canonical form. -/
def write : Memory → (i : Nat) → Byte → Memory
  | [], i, b => if b = unlisted then [] else [(i, b)]
  | (k, v) :: rest, i, b =>
    if i < k then (if b = unlisted then (k, v) :: rest else (i, b) :: (k, v) :: rest)
    else if i = k then (if b = unlisted then rest else (i, b) :: rest)
    else (k, v) :: write rest i b

/-- The string `BUF[i..i+len-1]` (00_scope.md R14). -/
def readBytes (m : Memory) (i : Nat) : (len : Nat) → List Byte
  | 0 => []
  | len + 1 => read m i :: readBytes m (i + 1) len

/-- `BUF[i..] <- bytes`. -/
def writeBytes (m : Memory) (i : Nat) : List Byte → Memory
  | [] => m
  | b :: bs => writeBytes (write m i b) (i + 1) bs

end Memory

/-- `tobytes_L(v)` (20_memory.md R59): byte `i` is bits `[8*(L-1-i)+7 : 8*(L-1-i)]` of `v` in big order, bits
`[8*i+7 : 8*i]` in little order. -/
def toBytes (order : ByteOrder) (len v : Nat) : List Byte :=
  (List.range len).map fun i =>
    match order with
    | .big => BitVec.ofNat 8 (v / 2 ^ (8 * (len - 1 - i)))
    | .little => BitVec.ofNat 8 (v / 2 ^ (8 * i))

/-- The integer whose bytes are given from the most significant. -/
def fromBigBytes (bs : List Byte) : Nat := bs.foldl (fun acc b => acc * 256 + b.toNat) 0

/-- `frombytes` (20_memory.md R59), the inverse of `tobytes`. -/
def fromBytes (order : ByteOrder) (bs : List Byte) : Nat :=
  match order with
  | .big => fromBigBytes bs
  | .little => fromBigBytes bs.reverse

end Sys2Proof.Machine
end

