-- ==== Sys2Proof/Machine/Ops.lean ====
section
/-!
DEFINITION. The named operations over the state: reading and writing registers, the flag and the buffer; the two ways a
command completes (60_exceptions.md R272 and R277; a `CmdError` is what this machine has in place of an exception, R284,
and there is no return from one); accepting a command (R270); reset (70_reset_and_hazards.md R300).
-/

namespace Sys2Proof.Machine

namespace State

def readFR (s : State) (i : FReg) : Nat := s.fr[i]

def writeFR (s : State) (i : FReg) (w : Nat) : State := { s with fr := s.fr.set i w }

def readPR (s : State) (i : PReg) : Point := s.pr[i]

def writePR (s : State) (i : PReg) (q : Point) : State := { s with pr := s.pr.set i q }

def readAR (s : State) (i : AReg) : Point := s.ar[i]

def writeAR (s : State) (i : AReg) (q : Point) : State := { s with ar := s.ar.set i q }

def readLT (s : State) (t : TReg) : Vector Point 8 := s.lt[t]

/-- A table is written only as a whole (10_state.md R30). -/
def writeLT (s : State) (t : TReg) (table : Vector Point 8) : State := { s with lt := s.lt.set t table }

def setCF (s : State) (c : Bool) : State := { s with cf := c }

/-- `BUF[i]`. -/
def bufByte (s : State) (i : Nat) : Byte := Memory.read s.buf i

/-- `BUF[i..i+len-1]`. -/
def bufBytes (s : State) (i len : Nat) : List Byte := Memory.readBytes s.buf i len

/-- `BUF[i..] <- bytes`. -/
def storeBuf (s : State) (i : Nat) (bytes : List Byte) : State := { s with buf := Memory.writeBytes s.buf i bytes }

/-- An encoding into the buffer: `BUF[0..len-1] <- bytes; BUFLEN <- len` (40_field.md R131, 43_point.md R215). -/
def storeEncoding (s : State) (bytes : List Byte) : State :=
  { s.storeBuf 0 bytes with buflen := BitVec.ofNat 8 bytes.length }

/-- A command that runs one of the hidden engines, or rewrites the triple of a projective register, leaves in the hidden
intermediates what nothing states (10_state.md R38). Log entry 7. -/
def drawHidden (s : State) : State := { s with hidden := Config.freeHidden s.draws, draws := s.draws + 1 }

/-- Write a projective register, whose triple is hidden state (10_state.md R27, R38). -/
def storePR (s : State) (i : PReg) (q : Point) : State := (s.writePR i q).drawHidden

/-- STATUS.BUSY: a command in flight, or initialisation (10_state.md R35, R36, 70_reset_and_hazards.md R302). -/
def busy (s : State) : Bool := s.inflight.isSome || decide (0 < s.init)

/-- Completion without error (60_exceptions.md R277, R281, 10_state.md R37). -/
def completed (s : State) : State := { s with err := .ok, done := true, inflight := none }

/-- Completion with `CmdError(e)`: only STATUS is written and the core is idle again (60_exceptions.md R272, R281). -/
def failed (s : State) (e : CmdError) : State :=
  { s with err := .failed e, errs := true, done := true, inflight := none }

/-- Acceptance of a command word (60_exceptions.md R270). -/
def accept (s : State) (w : CmdWord) : State := { s with inflight := some w, cmd := w, done := false }

/-- Reset, hard or soft, at a point of the order of inputs (70_reset_and_hazards.md R300, R301): every piece of the
spec's state takes its reset value and an in-flight command is abandoned; the build parameters stay (10_state.md R39),
and so do the model's own fields. -/
def performReset (s : State) : State :=
  { State.resetOf s.cfg with
    init := s.cfg.initAfterReset s.draws, draws := s.draws + 1, inputs := s.inputs, resp := s.resp }

end State

/-- The command with error code `e` (60_exceptions.md R272). -/
def cmdError (e : CmdError) (s : State) : Result := .next (s.failed e)

end Sys2Proof.Machine
end

