-- ==== Sys2Proof/Machine/Operands.lean ====
section
/-!
DEFINITION. The operands of the commands: the range check of `F` sources, the values that words stand for, the field
byte form in the buffer, and the affine coordinates.
-/

namespace Sys2Proof.Machine

/-- The modulus `m(D)` of the machine's instance (00_scope.md R15). -/
def State.modulus (s : State) (d : Domain) : Nat := s.cfg.modulus d

/-- A word is in range for `m` (10_state.md R23). -/
def inRange (m w : Nat) : Bool := decide (w < m)

/-- Check 5 of 60_exceptions.md R278, then completion: with every `F` source in range for `m` the command completes in
`t`; otherwise it ends in `CmdError(RANGE)` from `s` (R276). -/
def rangeChecked (m : Nat) (sources : List Nat) (s t : State) : Result :=
  if sources.all (inRange m) then .next t.completed else cmdError .range s

/-- The check of an immediate that depends on the word alone, then completion (60_exceptions.md R275). The decoder has
already refused such a word (30_encoding.md R95). Log entry 16. -/
def immChecked (legal : Bool) (s t : State) : Result :=
  if legal then .next t.completed else cmdError .imm s

/-- `m(D)`-domain residue that `FR[i]` stands for (10_state.md R23). -/
def State.value (s : State) (d : Domain) (i : FReg) : Nat := s.cfg.val (s.modulus d) (s.readFR i)

/-- `frombytes(BUF[i..i+FB(D)-1])` (20_memory.md R59). -/
def State.bufValue (s : State) (d : Domain) (i : Nat) : Nat :=
  fromBytes s.cfg.byteOrder (s.bufBytes i (s.cfg.fb d))

/-- `tobytes_FB(D)(v)` (20_memory.md R59). -/
def State.valueBytes (s : State) (d : Domain) (v : Nat) : List Byte := toBytes s.cfg.byteOrder (s.cfg.fb d) v

/-- The coordinate `x` of an affine register, 0 for the identity (10_state.md R29). -/
def coordX : Point → Nat
  | .identity => 0
  | .affine x _ => x

/-- The coordinate `y` of an affine register, 0 for the identity (10_state.md R29). -/
def coordY : Point → Nat
  | .identity => 0
  | .affine _ y => y

/-- An entry of a table, or the identity, with the sign of the digit (44_scalar_mul.md R240, R246): the digit is in
`[-8, 8]`. -/
def selectDigit (c : Params) (table : Vector Point 8) (digit : Int) : Point :=
  let sel := if digit = 0 then .identity else table.toList.getD (digit.natAbs - 1) .identity
  if digit < 0 then c.neg sel else sel

end Sys2Proof.Machine
end

