-- ==== Sys2Proof/Machine/Flags.lean ====
section
/-!
DEFINITION. What is computed for and from the flags: the outcomes that commands write to CF, the selections that read
it, the interrupt output, and the words the host reads of the control and status registers (10_state.md R35).
-/

namespace Sys2Proof.Machine

/-- Constant-time select: the second operand where CF is 1 (40_field.md R121, 43_point.md R202). -/
def selectCF {α : Type} (cf : Bool) (whenClear whenSet : α) : α := if cf then whenSet else whenClear

/-- FISZ (40_field.md R123). -/
def flagZero (w : Nat) : Bool := decide (w = 0)

/-- FISODD: the parity of the value, not of the word (40_field.md R124). -/
def flagOdd (v : Nat) : Bool := decide (v % 2 = 1)

/-- FEQ (40_field.md R125). -/
def flagEqual (x y : Nat) : Bool := decide (x = y)

/-- PISID and AISID (43_point.md R204, R210). -/
def flagIdentity (q : Point) : Bool := decide (q = .identity)

/-- PEQ (43_point.md R205). -/
def flagSamePoint (q r : Point) : Bool := decide (q = r)

/-- The interrupt output, `STATUS.DONE AND CTRL.IE` (60_exceptions.md R282). -/
def State.irq (s : State) : Bool := s.done && s.ie

/-- The error codes of 60_exceptions.md R271. -/
def errorCode : ErrCode → Nat
  | .ok => 0
  | .failed .illegal => 1
  | .failed .rsv => 2
  | .failed .reg => 3
  | .failed .imm => 4
  | .failed .range => 5

/-- STATUS as the host reads it (10_state.md R35). -/
def State.statusWord (s : State) : BitVec 32 :=
  BitVec.ofNat 32 (s.busy.toNat + s.done.toNat * 2 ^ 1 + s.cf.toNat * 2 ^ 2 + errorCode s.err * 2 ^ 4
    + s.errs.toNat * 2 ^ 8 + s.ovr.toNat * 2 ^ 9)

/-- CTRL as the host reads it: SRST and the reserved bits read 0 (10_state.md R35). -/
def State.ctrlWord (s : State) : BitVec 32 := BitVec.ofNat 32 s.ie.toNat

/-- PARAM0.BO (10_state.md R35). -/
def byteOrderCode : ByteOrder → Nat
  | .big => 0
  | .little => 1

/-- PARAM0.COORD (10_state.md R35). -/
def coordCode : Coord → Nat
  | .homogeneous => 0
  | .jacobian => 1

/-- PARAM0 (10_state.md R35). A field wider than its bits shows its low bits, log entry 25. -/
def param0Word (c : Params) : BitVec 32 :=
  BitVec.ofNat 32 (c.w % 2 ^ 8 + c.word % 2 ^ 8 * 2 ^ 8 + byteOrderCode c.byteOrder * 2 ^ 16
    + coordCode c.coord * 2 ^ 17 + (sqrtMethod c.p).code * 2 ^ 20 + (sqrtMethod c.n).code * 2 ^ 22
    + c.bufBytes / 4 % 2 ^ 8 * 2 ^ 24)

/-- PARAM1 (10_state.md R35). -/
def param1Word (c : Params) : BitVec 32 :=
  BitVec.ofNat 32 (nbits c.p % 2 ^ 16 + nbits c.n % 2 ^ 16 * 2 ^ 16)

end Sys2Proof.Machine
end

