-- ==== Sys2Proof/Machine/Field.lean ====
section
/-!
DEFINITION. The field engine (40_field.md). Every meaning is the range check of its `F` sources, the operation on the
state before the command, and completion (R110).
-/

namespace Sys2Proof.Machine

/-- FADD (40_field.md R112). -/
def execFadd (d : Domain) (rd ra rb : FReg) (s : State) : Result :=
  rangeChecked (s.modulus d) [s.readFR ra, s.readFR rb] s
    (s.writeFR rd ((s.readFR ra + s.readFR rb) % s.modulus d))

/-- FSUB (40_field.md R113). -/
def execFsub (d : Domain) (rd ra rb : FReg) (s : State) : Result :=
  rangeChecked (s.modulus d) [s.readFR ra, s.readFR rb] s
    (s.writeFR rd (subMod (s.modulus d) (s.readFR ra) (s.readFR rb)))

/-- FNEG (40_field.md R114). -/
def execFneg (d : Domain) (rd ra : FReg) (s : State) : Result :=
  rangeChecked (s.modulus d) [s.readFR ra] s (s.writeFR rd (subMod (s.modulus d) 0 (s.readFR ra)))

/-- FMUL (40_field.md R115). -/
def execFmul (d : Domain) (rd ra rb : FReg) (s : State) : Result :=
  rangeChecked (s.modulus d) [s.readFR ra, s.readFR rb] s
    (s.writeFR rd (s.cfg.montMul (s.modulus d) (s.readFR ra) (s.readFR rb)))

/-- FSQR (40_field.md R116). -/
def execFsqr (d : Domain) (rd ra : FReg) (s : State) : Result :=
  rangeChecked (s.modulus d) [s.readFR ra] s
    (s.writeFR rd (s.cfg.montMul (s.modulus d) (s.readFR ra) (s.readFR ra)))

/-- FDBL (40_field.md R117). -/
def execFdbl (d : Domain) (rd ra : FReg) (s : State) : Result :=
  rangeChecked (s.modulus d) [s.readFR ra] s (s.writeFR rd (2 * s.readFR ra % s.modulus d))

/-- FTOM (40_field.md R118). -/
def execFtom (d : Domain) (rd ra : FReg) (s : State) : Result :=
  rangeChecked (s.modulus d) [s.readFR ra] s (s.writeFR rd (s.cfg.mont (s.modulus d) (s.readFR ra)))

/-- FFROMM (40_field.md R119). -/
def execFfromm (d : Domain) (rd ra : FReg) (s : State) : Result :=
  rangeChecked (s.modulus d) [s.readFR ra] s (s.writeFR rd (s.value d ra))

/-- FLDK (40_field.md R120); the immediate is unsigned (30_encoding.md R85). -/
def execFldk (d : Domain) (rd : FReg) (imm8 : BitVec 8) (s : State) : Result :=
  rangeChecked (s.modulus d) [] s
    (s.writeFR rd (s.cfg.mont (s.modulus d) (imm8.toNat % s.modulus d)))

/-- FSEL (40_field.md R121): both sources are range-checked, whichever is selected. -/
def execFsel (d : Domain) (rd ra rb : FReg) (s : State) : Result :=
  rangeChecked (s.modulus d) [s.readFR ra, s.readFR rb] s
    (s.writeFR rd (selectCF s.cf (s.readFR ra) (s.readFR rb)))

/-- FCNEG (40_field.md R122). -/
def execFcneg (d : Domain) (rd ra : FReg) (s : State) : Result :=
  rangeChecked (s.modulus d) [s.readFR ra] s
    (s.writeFR rd (selectCF s.cf (s.readFR ra) (subMod (s.modulus d) 0 (s.readFR ra))))

/-- FISZ (40_field.md R123). -/
def execFisz (d : Domain) (ra : FReg) (s : State) : Result :=
  rangeChecked (s.modulus d) [s.readFR ra] s (s.setCF (flagZero (s.readFR ra)))

/-- FISODD (40_field.md R124). -/
def execFisodd (d : Domain) (ra : FReg) (s : State) : Result :=
  rangeChecked (s.modulus d) [s.readFR ra] s (s.setCF (flagOdd (s.value d ra)))

/-- FEQ (40_field.md R125). -/
def execFeq (d : Domain) (ra rb : FReg) (s : State) : Result :=
  rangeChecked (s.modulus d) [s.readFR ra, s.readFR rb] s (s.setCF (flagEqual (s.readFR ra) (s.readFR rb)))

/-- SETC (40_field.md R126). -/
def execSetc (imm8 : BitVec 8) (s : State) : Result :=
  immChecked (immIsBit imm8) s (s.setCF (decide (imm8.toNat = 1)))

/-- FDEC (40_field.md R130). -/
def execFdec (d : Domain) (rd : FReg) (s : State) : Result :=
  let v := s.bufValue d 0
  let ok := decide (v < s.modulus d)
  rangeChecked (s.modulus d) [] s ((s.writeFR rd (if ok then s.cfg.mont (s.modulus d) v else 0)).setCF ok)

/-- FENC (40_field.md R131). -/
def execFenc (d : Domain) (ra : FReg) (s : State) : Result :=
  rangeChecked (s.modulus d) [s.readFR ra] s (s.storeEncoding (s.valueBytes d (s.value d ra)))

/-- FRED (40_field.md R132). -/
def execFred (d : Domain) (rd : FReg) (s : State) : Result :=
  rangeChecked (s.modulus d) [] s
    (s.writeFR rd (s.cfg.mont (s.modulus d) (s.bufValue d 0 % s.modulus d)))

end Sys2Proof.Machine
end

