-- ==== Sys2Proof/Machine/Inverter.lean ====
section
/-!
DEFINITION. The modular inverse engine (41_inverter.md): the divstep engine of R150 to R154, and FINV, whose
architectural result is R155.
-/

namespace Sys2Proof

/-- The engine's state for a source word `w` (41_inverter.md R151). -/
def inverterStart (m w : Nat) : InverterRegs := { delta := 1, f := m, g := w, v := 0, r := 1 }

/-- One divstep (41_inverter.md R152). -/
def divstep (m : Nat) (e : InverterRegs) : InverterRegs :=
  if 0 < e.delta ∧ e.g % 2 = 1 then
    { delta := 1 - e.delta, f := e.g, g := (e.g - e.f) / 2, v := 2 * e.r % m, r := subMod m e.r e.v }
  else if e.g % 2 = 1 then
    { delta := 1 + e.delta, f := e.f, g := (e.g + e.f) / 2, v := 2 * e.v % m, r := (e.r + e.v) % m }
  else
    { delta := 1 + e.delta, f := e.f, g := e.g / 2, v := 2 * e.v % m, r := e.r }

/-- `count` divsteps. -/
def divsteps (m : Nat) : (count : Nat) → InverterRegs → InverterRegs
  | 0, e => e
  | count + 1, e => divsteps m count (divstep m e)

/-- The engine after its `N_DIV_m` divsteps, the same number for every input (41_inverter.md R150, R153). -/
def inverterRun (m w : Nat) : InverterRegs := divsteps m (nDiv m) (inverterStart m w)

/-- The correction constant `C_m = (inv_m(2)^N * R^2) mod m` (41_inverter.md R154). -/
def Params.correction (c : Params) (m : Nat) : Nat := powMod m (invMod m 2) (nDiv m) * c.radix ^ 2 % m

/-- Finalisation: the sign of `f` selects between `v` and `-v` (41_inverter.md R154). -/
def Params.inverterOut (c : Params) (m : Nat) (e : InverterRegs) : Nat :=
  (if e.f < 0 then subMod m 0 e.v else e.v) * c.correction m % m

namespace Machine

/-- FINV (41_inverter.md R155). -/
def execFinv (d : Domain) (rd ra : FReg) (s : State) : Result :=
  let m := s.modulus d
  let ok := decide (s.readFR ra ≠ 0)
  rangeChecked m [s.readFR ra] s
    ((s.writeFR rd (if ok then s.cfg.mont m (invMod m (s.value d ra)) else 0)).setCF ok).drawHidden

end Machine

end Sys2Proof
end

