-- ==== Sys2Proof/Machine/Sqrt.lean ====
section
/-!
DEFINITION. The modular square-root pipeline (42_sqrt.md): the three methods on values, and FSQRT.
-/

namespace Sys2Proof

/-- EXP (42_sqrt.md R171). -/
def sqrtExp (m a : Nat) : Nat := powMod m a ((m + 1) / 4)

/-- ATKIN (42_sqrt.md R172). DESIGN CHOICE, log entry 27: a corner case of R175 says that the value 1 gives value 1, but
this formula gives `m - 1` for some moduli (37, 61); the model follows the formula. -/
def sqrtAtkin (m a : Nat) : Nat :=
  let t := powMod m 2 ((m - 5) / 8)
  let a1 := powMod m a ((m - 5) / 8)
  let b := t * a1 % m
  let i := 2 * a * b ^ 2 % m
  a * b * subMod m i 1 % m

/-- Atkin's own validity value `a0 = (a1^2 * a)^2` (42_sqrt.md R172; 90_conflicts.md C5: R174's test is the
architectural one, and the two agree). -/
def atkinA0 (m a : Nat) : Nat := (powMod m a ((m - 5) / 8) ^ 2 * a) ^ 2 % m

/-- The least `i` in `[i0, i0 + fuel)` with `t^(2^i) = 1`, given `u = t^(2^i0)`. -/
def leastOrder (m : Nat) : (fuel i0 u : Nat) → Option Nat
  | 0, _, _ => none
  | fuel + 1, i0, u => if u = 1 then some i0 else leastOrder m fuel (i0 + 1) (u * u % m)

/-- `v^(2^k) mod m`, by `k` squarings. -/
def squarings (m : Nat) : (k v : Nat) → Nat
  | 0, v => v
  | k + 1, v => squarings m k (v * v % m)

/-- The loop of the reference Tonelli–Shanks (42_sqrt.md R173), at most `rounds` times while `t ≠ 1`. -/
def tonelliLoop (m : Nat) : (rounds M c t x : Nat) → Nat
  | 0, _, _, _, x => x
  | rounds + 1, M, c, t, x =>
    if t = 1 then x
    else
      match leastOrder m (M - 1) 1 (t * t % m) with
      | none => x
      | some i =>
        let b := squarings m (M - i - 1) c
        tonelliLoop m rounds i (b * b % m) (t * (b * b % m) % m) (x * b % m)

/-- The reference Tonelli–Shanks root (42_sqrt.md R173). -/
def sqrtTonelli (m rootOfUnity a : Nat) : Nat :=
  if a = 0 then 0
  else tonelliLoop m (sOf m) (sOf m) rootOfUnity (powMod m a (qOf m)) (powMod m a ((qOf m + 1) / 2))

/-- `SQRT_TS_m(a)`: the reference root or the other one, as the instance chooses for `m` and `a` (42_sqrt.md R173,
93_implementation_defined.md I2). Log entry 5. -/
def sqrtTs (takesOther : Bool) (m rootOfUnity a : Nat) : Nat :=
  let x := sqrtTonelli m rootOfUnity a
  if takesOther then subMod m 0 x else x

/-- `ROOT_OF_UNITY_m` of the instance (00_scope.md R8). -/
def Params.rootOfUnity (c : Params) : Domain → Nat
  | .field => c.rootP
  | .scalar => c.rootN

/-- Whether the instance returns the other root for `a` modulo `m`: its choice of `SQRT_TS_m`, a function of `a` alone
that another instance need not share (42_sqrt.md R173, 93_implementation_defined.md I2). Log entry 5. -/
def Params.takesOtherRoot (c : Params) (m a : Nat) : Bool := decide ((m, a) ∈ c.otherRoots)

/-- `root_m(a)` by the method of the modulus (42_sqrt.md R170, R175). -/
def Params.root (c : Params) (d : Domain) (a : Nat) : Nat :=
  let m := c.modulus d
  match sqrtMethod m with
  | .exp => sqrtExp m a
  | .atkin => sqrtAtkin m a
  | .ts => sqrtTs (c.takesOtherRoot m a) m (c.rootOfUnity d) a

/-- Validity, for every method: the squared candidate is compared with the input (42_sqrt.md R174). -/
def rootValid (m a x : Nat) : Bool := decide (x ^ 2 % m = a)

namespace Machine

/-- FSQRT (42_sqrt.md R175). For a non-residue the destination is a free word below `m` (log entry 4).
For the value 1 under ATKIN, see log entry 27. -/
def execFsqrt (d : Domain) (rd ra : FReg) (s : State) : Result :=
  let m := s.modulus d
  let a := s.value d ra
  let x := s.cfg.root d a
  let ok := rootValid m a x
  let w := if ok then s.cfg.mont m x else Config.freeWord s.draws % m
  rangeChecked m [s.readFR ra] s ((s.writeFR rd w).setCF ok).drawHidden

end Machine

end Sys2Proof
end

