-- ==== Sys2Proof/Machine/PointCmd.lean ====
section
/-!
DEFINITION. The point commands (43_point.md): the adder and the selections on projective registers, the affine
registers, and the SEC1 encodings. A point command reads every source before it writes its destination (R193).
-/

namespace Sys2Proof.Machine

/-! ### Projective registers -/

/-- PIDENT (43_point.md R195). -/
def execPident (rd : PReg) (s : State) : Result := .next (s.storePR rd .identity).completed

/-- PGEN (43_point.md R196). -/
def execPgen (rd : PReg) (s : State) : Result := .next (s.storePR rd s.cfg.generator).completed

/-- PADD (43_point.md R197). -/
def execPadd (rd ra rb : PReg) (s : State) : Result :=
  .next (s.storePR rd (s.cfg.add (s.readPR ra) (s.readPR rb))).completed

/-- PADDA (43_point.md R198). -/
def execPadda (rd ra : PReg) (rb : AReg) (s : State) : Result :=
  .next (s.storePR rd (s.cfg.add (s.readPR ra) (s.readAR rb))).completed

/-- PDBL (43_point.md R199). -/
def execPdbl (rd ra : PReg) (s : State) : Result :=
  .next (s.storePR rd (s.cfg.add (s.readPR ra) (s.readPR ra))).completed

/-- PNEG (43_point.md R200). -/
def execPneg (rd ra : PReg) (s : State) : Result := .next (s.storePR rd (s.cfg.neg (s.readPR ra))).completed

/-- PCNEG (43_point.md R201). -/
def execPcneg (rd ra : PReg) (s : State) : Result :=
  .next (s.storePR rd (selectCF s.cf (s.readPR ra) (s.cfg.neg (s.readPR ra)))).completed

/-- PSEL (43_point.md R202). -/
def execPsel (rd ra rb : PReg) (s : State) : Result :=
  .next (s.storePR rd (selectCF s.cf (s.readPR ra) (s.readPR rb))).completed

/-- PISID (43_point.md R204). -/
def execPisid (ra : PReg) (s : State) : Result := .next (s.setCF (flagIdentity (s.readPR ra))).completed

/-- PEQ (43_point.md R205). -/
def execPeq (ra rb : PReg) (s : State) : Result :=
  .next (s.setCF (flagSamePoint (s.readPR ra) (s.readPR rb))).completed

/-- TOAFF (43_point.md R203); its inversion of `Z` runs the inverse engine. -/
def execToaff (rd : AReg) (ra : PReg) (s : State) : Result :=
  .next (s.writeAR rd (s.readPR ra)).drawHidden.completed

/-- FROMAFF (43_point.md R206). -/
def execFromaff (rd : PReg) (ra : AReg) (s : State) : Result := .next (s.storePR rd (s.readAR ra)).completed

/-! ### Affine registers -/

/-- AIDENT (43_point.md R207). -/
def execAident (rd : AReg) (s : State) : Result := .next (s.writeAR rd .identity).completed

/-- AGEN (43_point.md R208). -/
def execAgen (rd : AReg) (s : State) : Result := .next (s.writeAR rd s.cfg.generator).completed

/-- ANEG (43_point.md R209). -/
def execAneg (rd ra : AReg) (s : State) : Result := .next (s.writeAR rd (s.cfg.neg (s.readAR ra))).completed

/-- AISID (43_point.md R210). -/
def execAisid (ra : AReg) (s : State) : Result := .next (s.setCF (flagIdentity (s.readAR ra))).completed

/-- AGETX (43_point.md R212). -/
def execAgetx (rd : FReg) (ra : AReg) (s : State) : Result :=
  .next (s.writeFR rd (s.cfg.mont s.cfg.p (coordX (s.readAR ra)))).completed

/-- AGETY (43_point.md R213). -/
def execAgety (rd : FReg) (ra : AReg) (s : State) : Result :=
  .next (s.writeFR rd (s.cfg.mont s.cfg.p (coordY (s.readAR ra)))).completed

/-- ASET (43_point.md R211). -/
def execAset (rd : AReg) (ra rb : FReg) (s : State) : Result :=
  let x := s.value .field ra
  let y := s.value .field rb
  let ok := s.cfg.onCurveXY x y
  rangeChecked s.cfg.p [s.readFR ra, s.readFR rb] s
    ((s.writeAR rd (if ok then .affine x y else .identity)).setCF ok)

/-! ### SEC1 encodings -/

/-- The encoding of an affine point (43_point.md R215, R216): compressed where `compressed`. -/
def sec1Encode (s : State) (compressed : Bool) : Point → List Byte
  | .identity => [0x00]
  | .affine x y =>
    if compressed then BitVec.ofNat 8 (0x02 + y % 2) :: s.valueBytes .field x
    else 0x04 :: (s.valueBytes .field x ++ s.valueBytes .field y)

/-- PENC (43_point.md R215). -/
def execPenc (ra : AReg) (imm8 : BitVec 8) (s : State) : Result :=
  immChecked (immIsBit imm8) s (s.storeEncoding (sec1Encode s (decide (imm8.toNat = 1)) (s.readAR ra)))

/-- The compressed case of 43_point.md R214: a root of the right side of the curve equation, with the parity the tag
asks for; invalid where there is none. -/
def decompress (c : Params) (tagOdd : Bool) (x : Nat) : Option Point :=
  if x < c.p then
    let rhs := c.curveRhs x
    let r := c.root .field rhs
    if rootValid c.p rhs r then
      let y := if flagOdd r = tagOdd then r else (c.p - r) % c.p
      if flagOdd y = tagOdd then some (.affine x y) else none
    else none
  else none

/-- The uncompressed case of 43_point.md R214. -/
def checkedPoint (c : Params) (x y : Nat) : Option Point :=
  if x < c.p ∧ y < c.p ∧ c.onCurveXY x y = true then some (.affine x y) else none

/-- The point the buffer encodes, by BUFLEN and the tag `BUF[0]` (43_point.md R214); `none` is an invalid encoding. -/
def sec1Decode (s : State) (allowIdentity : Bool) : Option Point :=
  let len := s.buflen.toNat
  let tag := s.bufByte 0
  let fb := s.cfg.fb .field
  if len = 1 ∧ tag = 0x00 then (if allowIdentity then some .identity else none)
  else if len = 1 + fb ∧ (tag = 0x02 ∨ tag = 0x03) then
    decompress s.cfg (decide (tag = 0x03)) (s.bufValue .field 1)
  else if len = 1 + 2 * fb ∧ tag = 0x04 then
    checkedPoint s.cfg (s.bufValue .field 1) (s.bufValue .field (1 + fb))
  else none

/-- PDEC (43_point.md R214). -/
def execPdec (rd : AReg) (imm8 : BitVec 8) (s : State) : Result :=
  let r := sec1Decode s (decide (imm8.toNat = 1))
  immChecked (immIsBit imm8) s ((s.writeAR rd (r.getD .identity)).setCF r.isSome).drawHidden

end Sys2Proof.Machine
end

