-- ==== Sys2Proof/Machine/ScalarMul.lean ====
section
/-!
DEFINITION. The scalar multiplier and the lookup table (44_scalar_mul.md).
-/

namespace Sys2Proof.Machine

/-- The signed radix-16 digits of `k` from the least significant, with the carry rule of 44_scalar_mul.md R242; `k` is
what is left of the scalar. -/
def recodeFrom : (count k carry : Nat) → List Int
  | 0, _, _ => []
  | 1, k, carry => [((k % 16 + carry : Nat) : Int)]
  | count + 2, k, carry =>
    let t := k % 16 + carry
    let c := if 8 ≤ t then 1 else 0
    ((t : Int) - 16 * (c : Nat)) :: recodeFrom (count + 1) (k / 16) c

/-- `e[0..DIGITS-1]` (44_scalar_mul.md R242). -/
def recode (c : Params) (k : Nat) : List Int := recodeFrom c.digits k 0

/-- `[16]acc`, by 4 doublings (44_scalar_mul.md R240). -/
def times16 (c : Params) (acc : Point) : Point :=
  let acc := c.add acc acc
  let acc := c.add acc acc
  let acc := c.add acc acc
  c.add acc acc

/-- The variable-base windowed multiplication of `q` by `k` (44_scalar_mul.md R240): from the most significant digit
down, 4 doublings and the addition of the selected entry of a private table. -/
def windowMul (c : Params) (k : Nat) (q : Point) : Point :=
  let table := c.multiples q
  (recode c k).reverse.foldl (fun acc e => c.add (times16 c acc) (selectDigit c table e)) .identity

/-- Both digit streams in one pass: per digit 4 doublings, then the entry of `q1`'s table, then that of `q2`'s
(44_scalar_mul.md R244). -/
def windowLincomb (c : Params) (k1 : Nat) (q1 : Point) (k2 : Nat) (q2 : Point) : Point :=
  let t1 := c.multiples q1
  let t2 := c.multiples q2
  ((recode c k1).zip (recode c k2)).reverse.foldl
    (fun acc e => c.add (c.add (times16 c acc) (selectDigit c t1 e.1)) (selectDigit c t2 e.2)) .identity

/-- PMUL (44_scalar_mul.md R241). -/
def execPmul (rd ra : PReg) (rb : FReg) (s : State) : Result :=
  rangeChecked s.cfg.n [s.readFR rb] s
    (s.storePR rd (windowMul s.cfg (s.value .scalar rb) (s.readPR ra)))

/-- PMULG (44_scalar_mul.md R243), computed as R240 with the generator; no command observes the method. -/
def execPmulg (rd : PReg) (ra : FReg) (s : State) : Result :=
  rangeChecked s.cfg.n [s.readFR ra] s
    (s.storePR rd (windowMul s.cfg (s.value .scalar ra) s.cfg.generator))

/-- LINCOMB (44_scalar_mul.md R244). -/
def execLincomb (rd ra : PReg) (rb : FReg) (rc : PReg) (re : FReg) (s : State) : Result :=
  rangeChecked s.cfg.n [s.readFR rb, s.readFR re] s
    (s.storePR rd
      (windowLincomb s.cfg (s.value .scalar rb) (s.readPR ra) (s.value .scalar re) (s.readPR rc)))

/-- LTBUILD (44_scalar_mul.md R245). -/
def execLtbuild (rd : TReg) (ra : PReg) (s : State) : Result :=
  .next (s.writeLT rd (s.cfg.multiples (s.readPR ra))).completed

/-- LTSEL (44_scalar_mul.md R246); the immediate is the signed digit (30_encoding.md R86). -/
def execLtsel (rd : PReg) (ra : TReg) (imm8 : BitVec 8) (s : State) : Result :=
  immChecked (immIsDigit imm8) s (s.storePR rd (selectDigit s.cfg (s.readLT ra) imm8.toInt))

end Sys2Proof.Machine
end

