-- ==== Sys2Proof/Machine/System.lean ====
section
/-!
DEFINITION. The system commands (44_scalar_mul.md section 4).
-/

namespace Sys2Proof.Machine

/-- NOP (44_scalar_mul.md R250). -/
def execNop (s : State) : Result := .next s.completed

/-- What ZEROIZE clears (44_scalar_mul.md R253). DESIGN CHOICE, log entry 28: the CMD readback is not among it and keeps
the word of ZEROIZE, as the pseudocode has it, although a corner case of R253 calls the state the reset state but for
CTRL.IE and the sticky STATUS bits. -/
def State.zeroized (s : State) : State :=
  { s with
    fr := Vector.replicate 16 0, pr := Vector.replicate 8 .identity, ar := Vector.replicate 4 .identity,
    lt := Vector.replicate 2 (Vector.replicate 8 .identity), buf := [], buflen := 0, cf := false,
    hidden := .cleared }

/-- ZEROIZE (44_scalar_mul.md R253). -/
def execZeroize (s : State) : Result := .next s.zeroized.completed

end Sys2Proof.Machine
end

