-- ==== Sys2Proof/Machine/Dispatch.lean ====
section
/-!
DEFINITION. One arm per command: its meaning.
-/

namespace Sys2Proof.Machine

def exec (i : Instr) (s : State) : Host.Outcome State Fault Refusal :=
  match i with
  | .nop => Sys2Proof.Machine.execNop s
  | .fadd d rd ra rb => Sys2Proof.Machine.execFadd d rd ra rb s
  | .fsub d rd ra rb => Sys2Proof.Machine.execFsub d rd ra rb s
  | .fneg d rd ra => Sys2Proof.Machine.execFneg d rd ra s
  | .fmul d rd ra rb => Sys2Proof.Machine.execFmul d rd ra rb s
  | .fsqr d rd ra => Sys2Proof.Machine.execFsqr d rd ra s
  | .fdbl d rd ra => Sys2Proof.Machine.execFdbl d rd ra s
  | .ftom d rd ra => Sys2Proof.Machine.execFtom d rd ra s
  | .ffromm d rd ra => Sys2Proof.Machine.execFfromm d rd ra s
  | .fldk d rd imm8 => Sys2Proof.Machine.execFldk d rd imm8 s
  | .fsel d rd ra rb => Sys2Proof.Machine.execFsel d rd ra rb s
  | .fcneg d rd ra => Sys2Proof.Machine.execFcneg d rd ra s
  | .fisz d ra => Sys2Proof.Machine.execFisz d ra s
  | .fisodd d ra => Sys2Proof.Machine.execFisodd d ra s
  | .feq d ra rb => Sys2Proof.Machine.execFeq d ra rb s
  | .setc imm8 => Sys2Proof.Machine.execSetc imm8 s
  | .finv d rd ra => Sys2Proof.Machine.execFinv d rd ra s
  | .fsqrt d rd ra => Sys2Proof.Machine.execFsqrt d rd ra s
  | .fdec d rd => Sys2Proof.Machine.execFdec d rd s
  | .fenc d ra => Sys2Proof.Machine.execFenc d ra s
  | .fred d rd => Sys2Proof.Machine.execFred d rd s
  | .pident rd => Sys2Proof.Machine.execPident rd s
  | .pgen rd => Sys2Proof.Machine.execPgen rd s
  | .padd rd ra rb => Sys2Proof.Machine.execPadd rd ra rb s
  | .padda rd ra rb => Sys2Proof.Machine.execPadda rd ra rb s
  | .pdbl rd ra => Sys2Proof.Machine.execPdbl rd ra s
  | .pneg rd ra => Sys2Proof.Machine.execPneg rd ra s
  | .pcneg rd ra => Sys2Proof.Machine.execPcneg rd ra s
  | .psel rd ra rb => Sys2Proof.Machine.execPsel rd ra rb s
  | .pisid ra => Sys2Proof.Machine.execPisid ra s
  | .peq ra rb => Sys2Proof.Machine.execPeq ra rb s
  | .toaff rd ra => Sys2Proof.Machine.execToaff rd ra s
  | .fromaff rd ra => Sys2Proof.Machine.execFromaff rd ra s
  | .aident rd => Sys2Proof.Machine.execAident rd s
  | .agen rd => Sys2Proof.Machine.execAgen rd s
  | .aneg rd ra => Sys2Proof.Machine.execAneg rd ra s
  | .aisid ra => Sys2Proof.Machine.execAisid ra s
  | .agetx rd ra => Sys2Proof.Machine.execAgetx rd ra s
  | .agety rd ra => Sys2Proof.Machine.execAgety rd ra s
  | .aset rd ra rb => Sys2Proof.Machine.execAset rd ra rb s
  | .penc ra imm8 => Sys2Proof.Machine.execPenc ra imm8 s
  | .pdec rd imm8 => Sys2Proof.Machine.execPdec rd imm8 s
  | .pmul rd ra rb => Sys2Proof.Machine.execPmul rd ra rb s
  | .pmulg rd ra => Sys2Proof.Machine.execPmulg rd ra s
  | .lincomb rd ra rb rc re => Sys2Proof.Machine.execLincomb rd ra rb rc re s
  | .ltbuild rd ra => Sys2Proof.Machine.execLtbuild rd ra s
  | .ltsel rd ra imm8 => Sys2Proof.Machine.execLtsel rd ra imm8 s
  | .zeroize => Sys2Proof.Machine.execZeroize s

end Sys2Proof.Machine
end

