-- ==== Sys2Proof/Machine/HostPort.lean ====
section
/-!
DEFINITION. The host's side of the register window (20_memory.md): which register an access reaches, what a read
returns, what a write does, and the dropped writes and open reads while STATUS.BUSY is 1 (70_reset_and_hazards.md).
-/

namespace Sys2Proof.Machine

/-- The registers of the map (20_memory.md R57). -/
inductive HostReg where
  | id
  | param0
  | param1
  | ctrl
  | status
  | cmd
  | buflen
  | bufWord (i : Nat)
  deriving DecidableEq, Repr

/-- The register at an offset of the window; `none` where R57 maps none (20_memory.md R53). -/
def hostReg (c : Params) (off : Nat) : Option HostReg :=
  if off = 0x000 then some .id
  else if off = 0x004 then some .param0
  else if off = 0x008 then some .param1
  else if off = 0x00C then some .ctrl
  else if off = 0x010 then some .status
  else if off = 0x014 then some .cmd
  else if off = 0x018 then some .buflen
  else if 0x100 ≤ off ∧ off % 4 = 0 ∧ (off - 0x100) / 4 < c.bufBytes / 4 then some (.bufWord ((off - 0x100) / 4))
  else none

/-- The bus address lies in the window of 512 bytes at `BASE_ADDR` (20_memory.md R50). -/
def inWindow (c : Params) (addr : Nat) : Bool := decide (c.baseAddr ≤ addr) && decide (addr < c.baseAddr + 0x200)

/-- The register an access of `bytes` bytes at a bus address of the window reaches: only an aligned 32-bit access at a
mapped offset reaches one (20_memory.md R52, R53). -/
def accessReg (c : Params) (bytes addr : Nat) : Option HostReg :=
  let off := addr - c.baseAddr
  if bytes = 4 ∧ off % 4 = 0 then hostReg c off else none

/-- BUF word `i`: byte `BUF[4*i + j]` is bits `[8*j+7 : 8*j]` (20_memory.md R60). -/
def State.bufWord (s : State) (i : Nat) : BitVec 32 :=
  s.bufByte (4 * i + 3) ++ s.bufByte (4 * i + 2) ++ s.bufByte (4 * i + 1) ++ s.bufByte (4 * i)

/-- The four bytes a host write of a BUF word stores, lowest lane first (20_memory.md R60). -/
def lanes (v : BitVec 32) : List Byte :=
  [v.extractLsb' 0 8, v.extractLsb' 8 8, v.extractLsb' 16 8, v.extractLsb' 24 8]

/-- What a read of a register returns (10_state.md R35); of BUF and BUFLEN while busy, a free value
(70_reset_and_hazards.md R311, log entry 6). -/
def State.regWord (s : State) : HostReg → BitVec 32
  | .id => s.cfg.idValue
  | .param0 => param0Word s.cfg
  | .param1 => param1Word s.cfg
  | .ctrl => s.ctrlWord
  | .status => s.statusWord
  | .cmd => s.cmd
  | .buflen => if s.busy then (Config.freeBusByte s.draws).setWidth 32 else s.buflen.setWidth 32
  | .bufWord i => if s.busy then Config.freeBusWord s.draws else s.bufWord i

/-- A free value has been read. -/
def State.nextDraw (s : State) : State := { s with draws := s.draws + 1 }

def State.respond (s : State) (r : Response) : State := { s with resp := some r }

/-- A write that R310 drops while busy: only STATUS.OVR changes (70_reset_and_hazards.md R310). -/
def State.dropWrite (s : State) : State := { s with ovr := true }

/-- A write to CTRL: bit 1 is the soft reset, which wins over bit 0; otherwise bit 0 is IE (10_state.md R35,
70_reset_and_hazards.md R301). -/
def State.writeCtrl (s : State) (v : BitVec 32) : State :=
  if v.getLsbD 1 then s.performReset else { s with ie := v.getLsbD 0 }

/-- A write to STATUS clears each write-1-to-clear bit written as 1: DONE, ERRS and OVR (10_state.md R35). -/
def State.writeStatus (s : State) (v : BitVec 32) : State :=
  { s with done := s.done && !v.getLsbD 1, errs := s.errs && !v.getLsbD 8, ovr := s.ovr && !v.getLsbD 9 }

/-- A write to CMD, BUFLEN or BUF: performed when idle, dropped while busy (70_reset_and_hazards.md R310). -/
def State.unlessBusy (s : State) (t : State) : State := if s.busy then s.dropWrite else t

/-- What a write to a register does (20_memory.md R54, R55). -/
def State.writeReg (s : State) (r : HostReg) (v : BitVec 32) : State :=
  match r with
  | .id => s
  | .param0 => s
  | .param1 => s
  | .ctrl => s.writeCtrl v
  | .status => s.writeStatus v
  | .cmd => s.unlessBusy (s.accept v)
  | .buflen => s.unlessBusy { s with buflen := v.setWidth 8 }
  | .bufWord i => s.unlessBusy (s.storeBuf (4 * i) (lanes v))

/-- A host read (20_memory.md R52 to R55). Outside the window it does not reach the core. -/
def hostRead (bytes addr : Nat) (s : State) : State :=
  if inWindow s.cfg addr then
    match accessReg s.cfg bytes addr with
    | none => s.respond { error := true, data := some 0 }
    | some r => s.nextDraw.respond { error := false, data := some (s.regWord r) }
  else s

/-- A host write (20_memory.md R52 to R55). Outside the window it does not reach the core. -/
def hostWrite (bytes addr : Nat) (v : BitVec 32) (s : State) : State :=
  if inWindow s.cfg addr then
    match accessReg s.cfg bytes addr with
    | none => s.respond { error := true, data := none }
    | some r => (s.writeReg r v).respond { error := false, data := none }
  else s

end Sys2Proof.Machine
end

