-- ==== Sys2Proof/Machine/CoreStep.lean ====
section
/-!
DEFINITION. What the core does when it moves: the completion step of the command in flight (10_state.md R37), or a cycle
of initialisation, or nothing (60_exceptions.md R290); and how a command word comes to be in flight.
-/

namespace Sys2Proof.Machine

/-- Completion of the command word in flight: the checks of 60_exceptions.md R278 that depend on the word alone, then
the command's own rule, which makes the last check. -/
def completeWord (w : CmdWord) (s : State) : Result :=
  match decode w with
  | .ok i => exec i s
  | .error e => cmdError e s

/-- One step of the core. With nothing in flight, initialisation counts down (70_reset_and_hazards.md R302), and an idle
core keeps all state (60_exceptions.md R290). -/
def coreStep (s : State) : Result :=
  match s.inflight with
  | some w => completeWord w s
  | none => .next { s with init := s.init - 1 }

/-- The step of one entry of the order of inputs (20_memory.md R63). -/
def inputStep (i : Input) (s : State) : Result :=
  match i with
  | .read bytes addr => .next (hostRead bytes addr s)
  | .write bytes addr v => .next (hostWrite bytes addr v s)
  | .core => coreStep s
  | .reset => .next s.performReset

/-- The state in which the core's very next step completes the command word `w`: initialisation over, nothing before the
core in the order, and the word accepted as by a host write to CMD (60_exceptions.md R270). Log entry 11. -/
def State.acceptNow (s : State) (w : CmdWord) : State := { s with init := 0, inputs := [] }.accept w

end Sys2Proof.Machine
end

