-- ==== Sys2Proof/Machine/Step.lean ====
section
/-!
DEFINITION. One step of the machine: the first of the inputs happens, or, with none left, the core moves.
-/

namespace Sys2Proof.Machine

/-- 20_memory.md R63: the total order of host accesses and core steps is the list of inputs; after its end the core
moves alone. -/
def step (s : State) : Host.Outcome State Fault Refusal :=
  match s.inputs with
  | [] => coreStep s
  | i :: rest => inputStep i { s with inputs := rest }

/-- The command with the table's word `w` in flight (log entry 11). -/
def State.withFetchWord (s : State) (nbits w : Nat) : State := s.acceptNow (BitVec.ofNat 32 (w % 2 ^ nbits))

end Sys2Proof.Machine
end

