-- ==== Sys2Proof/Safety.lean ====
section
/-!
DEFINITION. The terms claims are stated in: which builds the spec allows, the invariant of the machine, and the frame
predicates that say what a command leaves unchanged.
-/

namespace Sys2Proof

/-- The build parameters the spec allows (00_scope.md R8, R9). -/
structure Params.Legal (c : Params) : Prop where
  word : c.word = 32 ∨ c.word = 64
  pPrime : Nat.Prime c.p
  nPrime : Nat.Prime c.n
  pAbove3 : 3 < c.p
  nOdd : c.n % 2 = 1
  pBelowRadix : c.p < c.radix
  nBelowRadix : c.n < c.radix
  aBelow : c.a < c.p
  bBelow : c.b < c.p
  nonsingular : (4 * c.a ^ 3 + 27 * c.b ^ 2) % c.p ≠ 0
  generatorOnCurve : c.onCurve c.generator = true
  generatorOrder : c.nsmul c.n c.generator = .identity
  bufWords : c.bufBytes % 4 = 0
  bufPoint : 1 + 2 * c.fb .field ≤ c.bufBytes
  bufScalar : c.fb .scalar ≤ c.bufBytes
  bufMax : c.bufBytes ≤ 252
  baseAligned : c.baseAddr % 512 = 0
  rootP : sqrtMethod c.p = .ts →
    c.rootP < c.p ∧ c.rootP ^ 2 ^ sOf c.p % c.p = 1 ∧ c.rootP ^ 2 ^ (sOf c.p - 1) % c.p ≠ 1
  rootN : sqrtMethod c.n = .ts →
    c.rootN < c.n ∧ c.rootN ^ 2 ^ sOf c.n % c.n = 1 ∧ c.rootN ^ 2 ^ (sOf c.n - 1) % c.n ≠ 1

/-- `a` is a quadratic residue modulo `m`, 0 included (00_scope.md R17). -/
def IsResidue (m a : Nat) : Prop := ∃ x, x < m ∧ x ^ 2 % m = a % m

/-! ### Command words, as the rules list them -/

/-- The unassigned opcodes (30_encoding.md R92, 60_exceptions.md R273). -/
def unassignedOpcodes : List Nat :=
  [0x12, 0x13, 0x17, 0x18, 0x19, 0x1A, 0x1B, 0x1C, 0x1D, 0x1E, 0x1F, 0x35, 0x36, 0x37, 0x3D, 0x3E]

/-- The opcode of a word. -/
def opOf (w : CmdWord) : Nat := bits w.toNat 31 26

/-- The opcodes whose row of 30_encoding.md R90 does not use `D`: NOP, SETC and everything from `0x20` on. -/
def opReservesD (op : Nat) : Bool := decide (op = 0x00) || decide (op = 0x0F) || decide (0x20 ≤ op)

/-- The opcodes with a format I row (30_encoding.md R82). -/
def opIsFormatI (op : Nat) : Bool := decide (op ∈ [0x09, 0x0F, 0x33, 0x34, 0x3C])

/-- The opcodes whose row marks `rd` with `-`. -/
def opUnusedRd (op : Nat) : Bool := decide (op ∈ [0x00, 0x0C, 0x0D, 0x0E, 0x0F, 0x15, 0x28, 0x29, 0x2F, 0x33, 0x3F])

/-- The opcodes whose row marks `ra` with `-`. -/
def opUnusedRa (op : Nat) : Bool :=
  decide (op ∈ [0x00, 0x09, 0x0F, 0x14, 0x16, 0x20, 0x21, 0x2C, 0x2D, 0x34, 0x3F])

/-- The format R opcodes whose row uses `rb`. -/
def opUsesRb (op : Nat) : Bool :=
  decide (op ∈ [0x01, 0x02, 0x04, 0x0A, 0x0E, 0x22, 0x23, 0x27, 0x29, 0x32, 0x38, 0x3A])

/-- A reserved bit or unused field of the word is non-zero (60_exceptions.md R274): bits 24:20; bit 25 where `D` is
reserved; an index field marked `-`; bits 3:0 of a format I word. LINCOMB alone uses `rc` and `re`. -/
def wordReserved (w : CmdWord) : Bool :=
  let v := w.toNat
  let op := opOf w
  bits v 24 20 != 0 || (opReservesD op && bits v 25 25 != 0) || (opUnusedRd op && bits v 19 16 != 0)
    || (opUnusedRa op && bits v 15 12 != 0) || (!opIsFormatI op && !opUsesRb op && bits v 11 8 != 0)
    || (!opIsFormatI op && op != 0x3A && bits v 7 4 != 0) || (op != 0x3A && bits v 3 0 != 0)

/-- An index of the word is outside its register file (60_exceptions.md R275): a `PR` index 8 to 15, an `AR` index 4 to
15, an `LT` index 2 to 15. -/
def wordBadIndex (w : CmdWord) : Bool :=
  let v := w.toNat
  let op := opOf w
  let rd := bits v 19 16
  let ra := bits v 15 12
  let rb := bits v 11 8
  let rc := bits v 7 4
  (decide (op ∈ [0x20, 0x21, 0x22, 0x23, 0x24, 0x25, 0x26, 0x27, 0x2B, 0x38, 0x39, 0x3A, 0x3C]) && decide (8 ≤ rd))
    || (decide (op ∈ [0x22, 0x23, 0x24, 0x25, 0x26, 0x27, 0x28, 0x29, 0x2A, 0x38, 0x3A, 0x3B]) && decide (8 ≤ ra))
    || (decide (op ∈ [0x22, 0x27, 0x29]) && decide (8 ≤ rb))
    || (decide (op = 0x3A) && decide (8 ≤ rc))
    || (decide (op ∈ [0x2A, 0x2C, 0x2D, 0x2E, 0x32, 0x34]) && decide (4 ≤ rd))
    || (decide (op ∈ [0x2B, 0x2E, 0x2F, 0x30, 0x31, 0x33]) && decide (4 ≤ ra))
    || (decide (op = 0x23) && decide (4 ≤ rb))
    || (decide (op = 0x3B) && decide (2 ≤ rd))
    || (decide (op = 0x3C) && decide (2 ≤ ra))

/-- The immediate of the word is outside its legal set (60_exceptions.md R275): above 1 for SETC, PENC and PDEC, a digit
below -8 or above 8 for LTSEL. -/
def wordBadImm (w : CmdWord) : Bool :=
  let op := opOf w
  let imm := bits w.toNat 11 4
  let digit := (BitVec.ofNat 8 imm).toInt
  (decide (op ∈ [0x0F, 0x33, 0x34]) && decide (1 < imm))
    || (decide (op = 0x3C) && (decide (digit < -8) || decide (8 < digit)))

/-- The commands that write CF (10_state.md R32). -/
def Instr.writesCF : Instr → Bool
  | .setc _ | .fisz _ _ | .fisodd _ _ | .feq _ _ _ | .finv _ _ _ | .fsqrt _ _ _ | .fdec _ _ | .pisid _ | .peq _ _
  | .aisid _ | .aset _ _ _ | .pdec _ _ | .zeroize => true
  | _ => false

namespace Machine

/-- What holds of every state that a host can bring about: the build is one the spec allows; a field register is in
range for one of the moduli (10_state.md R23); every point register holds an element of `E` (R28); each table holds the
multiples of one base (R30); the buffer is in canonical form within its `BUF_BYTES` bytes (R33); a command in flight is
the last accepted one, with DONE clear and initialisation over (60_exceptions.md R270, 70_reset_and_hazards.md R310);
initialisation lasts at most `T_INIT` (R302). -/
structure State.Inv (s : State) : Prop where
  legal : s.cfg.Legal
  frRange : ∀ i, s.readFR i < s.cfg.p ∨ s.readFR i < s.cfg.n
  prOnCurve : ∀ i, s.cfg.onCurve (s.readPR i) = true
  arOnCurve : ∀ i, s.cfg.onCurve (s.readAR i) = true
  ltMultiples : ∀ t, ∃ base, s.cfg.onCurve base = true ∧ s.readLT t = s.cfg.multiples base
  bufCanonical : Memory.wf s.buf = true
  bufWithin : ∀ i, s.cfg.bufBytes ≤ i → s.bufByte i = 0
  inflightAccepted : ∀ w, s.inflight = some w → s.cmd = w ∧ s.done = false ∧ s.init = 0
  initBound : s.init ≤ s.cfg.tInit

/-- An `F` source is in range for the command's modulus (60_exceptions.md R276). -/
def State.InRange (s : State) (d : Domain) (i : FReg) : Prop := s.readFR i < s.modulus d

/-- The parts of the state that no command writes. -/
structure SameControl (s t : State) : Prop where
  cfg : t.cfg = s.cfg
  cmd : t.cmd = s.cmd
  ie : t.ie = s.ie
  ovr : t.ovr = s.ovr
  init : t.init = s.init
  inputs : t.inputs = s.inputs
  resp : t.resp = s.resp

/-- The bookkeeping of a completion without error (60_exceptions.md R277, R281). -/
structure Succeeds (s t : State) : Prop where
  err : t.err = .ok
  done : t.done = true
  inflight : t.inflight = none
  errs : t.errs = s.errs
  control : SameControl s t

/-- The state a command with `CmdError(e)` leaves: everything as before but ERR, ERRS, DONE and INFLIGHT
(60_exceptions.md R272). -/
def errorState (e : CmdError) (s : State) : State :=
  { s with err := .failed e, errs := true, done := true, inflight := none }

def SameFR (s t : State) : Prop := ∀ i, t.readFR i = s.readFR i

def SameFRExcept (rd : FReg) (s t : State) : Prop := ∀ i, i ≠ rd → t.readFR i = s.readFR i

def SamePR (s t : State) : Prop := ∀ i, t.readPR i = s.readPR i

def SamePRExcept (rd : PReg) (s t : State) : Prop := ∀ i, i ≠ rd → t.readPR i = s.readPR i

def SameAR (s t : State) : Prop := ∀ i, t.readAR i = s.readAR i

def SameARExcept (rd : AReg) (s t : State) : Prop := ∀ i, i ≠ rd → t.readAR i = s.readAR i

def SameLT (s t : State) : Prop := ∀ i, t.readLT i = s.readLT i

/-- Every byte of the buffer reads as before, and BUFLEN too. -/
def SameBuf (s t : State) : Prop := (∀ i, t.bufByte i = s.bufByte i) ∧ t.buflen = s.buflen

/-- A command that completes and changes one field register (and, for the commands that say so, CF). -/
structure OnlyFR (rd : FReg) (s t : State) : Prop where
  succeeds : Succeeds s t
  fr : SameFRExcept rd s t
  pr : SamePR s t
  ar : SameAR s t
  lt : SameLT s t
  buf : SameBuf s t

/-- A command that completes and changes one field register and nothing else. That the hidden intermediates are among
what it leaves is the model's choice (DESIGN CHOICE, log entry 7). -/
structure OnlyWord (rd : FReg) (s t : State) : Prop where
  only : OnlyFR rd s t
  cf : t.cf = s.cf
  hidden : t.hidden = s.hidden

/-- A command that completes and changes one projective register, CF unchanged. -/
structure OnlyPR (rd : PReg) (s t : State) : Prop where
  succeeds : Succeeds s t
  fr : SameFR s t
  pr : SamePRExcept rd s t
  ar : SameAR s t
  lt : SameLT s t
  cf : t.cf = s.cf
  buf : SameBuf s t

/-- A command that completes and changes one affine register (and, for the commands that say so, CF). -/
structure OnlyAR (rd : AReg) (s t : State) : Prop where
  succeeds : Succeeds s t
  fr : SameFR s t
  pr : SamePR s t
  ar : SameARExcept rd s t
  lt : SameLT s t
  buf : SameBuf s t

/-- A command that completes and changes CF alone. -/
structure OnlyCF (s t : State) : Prop where
  succeeds : Succeeds s t
  fr : SameFR s t
  pr : SamePR s t
  ar : SameAR s t
  lt : SameLT s t
  buf : SameBuf s t

/-- A command that completes and stores `bytes` at the start of the buffer, with their number in BUFLEN. -/
structure OnlyEncoding (bytes : List Byte) (s t : State) : Prop where
  succeeds : Succeeds s t
  stored : ∀ i (h : i < bytes.length), t.bufByte i = bytes[i]
  beyond : ∀ i, bytes.length ≤ i → t.bufByte i = s.bufByte i
  buflen : t.buflen.toNat = bytes.length
  fr : SameFR s t
  pr : SamePR s t
  ar : SameAR s t
  lt : SameLT s t
  cf : t.cf = s.cf

/-- The state with the hidden intermediates replaced (10_state.md R38). -/
def State.withHidden (s : State) (h : Hidden) : State := { s with hidden := h }

/-- Two outcomes that differ in nothing a command or the host can observe (10_state.md R38). -/
def SameButHidden : Result → Result → Prop
  | .next s, .next t => t = s.withHidden t.hidden
  | .fault f, .fault g => f = g
  | .refused f, .refused g => f = g
  | _, _ => False

end Machine

end Sys2Proof
end

