-- ==== Sys2Proof/Certificates/Slice0/Obligations.lean ====
section
/-!
DEFINITION. The statements for the provers.
-/

open Sys2Proof Sys2Proof.Machine

/-- For every command whose immediate is legal, with every operand at every value its field admits, the decoder reads
the encoder's word as that command: no bit of an encoding is dropped. From 30_encoding.md section 3 (R90);
30_encoding.md section 4. -/
def Obligations.DecodeOfEncodeIsTheCommand : Prop :=
  ∀ i : Instr, i.wellFormed = true → decode (encode i) = .ok i

/-- If the decoder reads a word as a command, that command is well formed and the word is its encoding: no two legal
words stand for one command. From 30_encoding.md section 4 (R95). -/
def Obligations.EncodeOfDecodeIsTheWord : Prop :=
  ∀ (w : CmdWord) (i : Instr), decode w = .ok i → i.wellFormed = true ∧ encode i = w

/-- For every 32-bit word: an unassigned opcode is ILLEGAL whatever the other fields; else a non-zero reserved bit or
unused field is RSV; else an index outside its register file is REG; else an immediate outside its legal set is IMM;
else the word decodes to a command. The lists of opcodes are written out from R273 to R275 and the columns of R90,
apart from the decoder's table. Formalises R273, R274, R275. -/
def Obligations.DecodeErrorsInPriority : Prop :=
  ∀ w : CmdWord,
    (opOf w ∈ unassignedOpcodes → decode w = .error .illegal) ∧
    (opOf w ∉ unassignedOpcodes → wordReserved w = true → decode w = .error .rsv) ∧
    (opOf w ∉ unassignedOpcodes → wordReserved w = false → wordBadIndex w = true → decode w = .error .reg) ∧
    (opOf w ∉ unassignedOpcodes → wordReserved w = false → wordBadIndex w = false → wordBadImm w = true →
      decode w = .error .imm) ∧
    (opOf w ∉ unassignedOpcodes → wordReserved w = false → wordBadIndex w = false → wordBadImm w = false →
      ∃ i, decode w = .ok i)

/-- The words 0x04031200, 0x52010000, 0x8C010000, 0xE8020112, 0xF0010FD0 and 0x00000000 are FADD F3, F1, F2; FDEC.n
F1; PADDA P1, P0, A0; LINCOMB P2, P0, F1, P1, F2; LTSEL P1, T0, #-3; and NOP. From 30_encoding.md section 3;
95_test_vectors.md section 3. -/
def Obligations.SpecWordsDecode : Prop :=
  decode 0x04031200 = .ok (.fadd .field 3 1 2) ∧ decode 0x52010000 = .ok (.fdec .scalar 1) ∧
    decode 0x8C010000 = .ok (.padda 1 0 0) ∧ decode 0xE8020112 = .ok (.lincomb 2 0 1 1 2) ∧
    decode 0xF0010FD0 = .ok (.ltsel 1 0 0xFD) ∧ decode 0x00000000 = .ok .nop

/-- With a command word in flight that decodes to a command, and the core next in the order of inputs (or no input
left), the step is exec of that command at that state; the only thing the step adds is that the entry of the order is
used up. From 10_state.md section 8 (R37); 20_memory.md section 5 (R63). -/
def Obligations.StepRunsTheDecodedCommand : Prop :=
  ∀ (s : State) (w : CmdWord) (i : Instr), s.inflight = some w → decode w = .ok i →
    (s.inputs = [] → step s = exec i s) ∧
    (∀ rest, s.inputs = .core :: rest → step s = exec i { s with inputs := rest })

/-- With a word in flight that the decoder refuses with code e, and the core next in the order of inputs (or no input
left), the next state is the old one with ERR = e, ERRS = 1, DONE = 1 and INFLIGHT empty, and nothing else changed but
the entry of the order that is used up. From 60_exceptions.md section 2 (R272, R278). -/
def Obligations.MalformedWordWritesStatusOnly : Prop :=
  ∀ (s : State) (w : CmdWord) (e : CmdError), s.inflight = some w → decode w = .error e →
    (s.inputs = [] → step s = .next { s with err := .failed e, errs := true, done := true, inflight := none }) ∧
    (∀ rest, s.inputs = .core :: rest →
      step s = .next { s with err := .failed e, errs := true, done := true, inflight := none, inputs := rest })

/-- From every state the step answers a next state: the machine takes no traps, whatever word is in flight and
whatever the host or the platform does. From 60_exceptions.md section 4 (R284); 30_encoding.md section 4 (R95). -/
def Obligations.EveryStepAnswersNext : Prop :=
  ∀ s : State, ∃ t, step s = .next t

/-- For every command and every state: if the command ends with an error code, the state is the one before it but for
ERR, ERRS, DONE and INFLIGHT; no register, table, buffer byte, BUFLEN, flag or hidden state is written. Formalises
R272. -/
def Obligations.CommandErrorsArePrecise : Prop :=
  ∀ (i : Instr) (s t : State) (e : CmdError), exec i s = .next t → t.err = .failed e →
    t = { s with err := .failed e, errs := true, done := true, inflight := none }

/-- Whatever word is in flight, the core's step sets DONE and empties INFLIGHT; either ERR is OK and ERRS is as
before, or ERR is an error code and ERRS is 1. From 60_exceptions.md section 3 (R281); 60_exceptions.md section 2
(R277). -/
def Obligations.CompletionSetsStatus : Prop :=
  ∀ (s : State) (w : CmdWord), s.inflight = some w →
    ∃ t, coreStep s = .next t ∧ t.done = true ∧ t.inflight = none ∧
      ((t.err = .ok ∧ t.errs = s.errs) ∨ (∃ e, t.err = .failed e ∧ t.errs = true))

/-- From every state with the invariant (a legal build, field registers in range for a modulus, every point register
on the curve, every table the multiples of one base, the buffer canonical and within BUF_BYTES, an in-flight word the
last accepted one with DONE clear, initialisation bounded), a step gives a state with it, whatever the host does. From
10_state.md section 3 (R28); 10_state.md section 2 (R23); 10_state.md section 4 (R30). -/
def Obligations.StepKeepsInvariant : Prop :=
  ∀ s t : State, s.Inv → step s = .next t → t.Inv

/-- For every build the spec allows, the state after its reset has the invariant that every step keeps; and the
instance of State.reset (a choice of the model, log entry 1) is such a build. From 70_reset_and_hazards.md section 1.
-/
def Obligations.ResetStateHasInvariant : Prop :=
  (∀ c : Params, c.Legal → (State.resetOf c).Inv) ∧ State.reset.Inv

/-- Whatever the step (a command, a host access, a soft reset or the reset input), the build parameters are the same
after it. Formalises R39. -/
def Obligations.StepKeepsBuildParameters : Prop :=
  ∀ s t : State, step s = .next t → t.cfg = s.cfg

/-- If a command changes CF then it is one of SETC, FISZ, FISODD, FEQ, FINV, FSQRT, FDEC, PISID, PEQ, AISID, ASET,
PDEC and ZEROIZE, and it completed without error. From 10_state.md section 5 (R32). -/
def Obligations.OnlyListedCommandsWriteCF : Prop :=
  ∀ (i : Instr) (s t : State), exec i s = .next t → t.cf ≠ s.cf → i.writesCF = true ∧ t.err = .ok

/-- Two states that differ only in the hidden intermediates step to states that differ at most in them: no command,
error, host access or reset lets them out. The two steps are taken under the same free values (DESIGN CHOICE, log
entry 18). From 10_state.md section 8 (R38). -/
def Obligations.HiddenStateIsUnobservable : Prop :=
  ∀ (s : State) (h : Hidden), SameButHidden (step s) (step (s.withHidden h))

/-- If a command changes an entry of a table then it is an LTBUILD of that table, or ZEROIZE; in particular no scalar-
multiplication command changes one. From 10_state.md section 4 (R30, R31). -/
def Obligations.LookupTablesChangeOnlyByBuild : Prop :=
  ∀ (i : Instr) (s t : State) (k : TReg), exec i s = .next t → t.readLT k ≠ s.readLT k →
    (∃ ra, i = .ltbuild k ra) ∨ i = .zeroize

/-- With the sources in range, FADD, FSUB, FNEG and FDBL answer a next state whose destination is the sum, difference,
negative and double of the words modulo m(D), and likewise of the values; every other register, CF, the buffer and the
rest are unchanged. With a source out of range the command ends in RANGE and writes STATUS only. The word with the
command's opcode, domain bit and operands in the fields of its format, every other bit 0, decodes to it. That the
hidden intermediates are unchanged is the model's own choice (DESIGN CHOICE, log entry 7); no rule is cited for it.
From 40_field.md section 2 (R112, R113, R114, R117). -/
def Obligations.FieldAdditionCommands : Prop :=
  ∀ (s : State) (d : Domain) (rd ra rb : FReg), s.cfg.Legal →
    let m := s.modulus d
    (decode (packR 0x01 (bitOf d) rd ra rb 0 0) = .ok (.fadd d rd ra rb) ∧
      decode (packR 0x02 (bitOf d) rd ra rb 0 0) = .ok (.fsub d rd ra rb) ∧
      decode (packR 0x03 (bitOf d) rd ra 0 0 0) = .ok (.fneg d rd ra) ∧
      decode (packR 0x06 (bitOf d) rd ra 0 0 0) = .ok (.fdbl d rd ra)) ∧
    (s.InRange d ra → s.InRange d rb →
      (∃ t, exec (.fadd d rd ra rb) s = .next t ∧ OnlyWord rd s t ∧
        t.readFR rd = (s.readFR ra + s.readFR rb) % m ∧
        t.value d rd = (s.value d ra + s.value d rb) % m) ∧
      (∃ t, exec (.fsub d rd ra rb) s = .next t ∧ OnlyWord rd s t ∧
        (t.readFR rd : Int) = ((s.readFR ra : Int) - s.readFR rb) % m ∧
        (t.value d rd : Int) = ((s.value d ra : Int) - s.value d rb) % m)) ∧
    (s.InRange d ra →
      (∃ t, exec (.fneg d rd ra) s = .next t ∧ OnlyWord rd s t ∧
        (t.readFR rd : Int) = (0 - (s.readFR ra : Int)) % m ∧
        (t.value d rd : Int) = (0 - (s.value d ra : Int)) % m) ∧
      (∃ t, exec (.fdbl d rd ra) s = .next t ∧ OnlyWord rd s t ∧
        t.readFR rd = 2 * s.readFR ra % m ∧ t.value d rd = 2 * s.value d ra % m)) ∧
    (¬(s.InRange d ra ∧ s.InRange d rb) →
      exec (.fadd d rd ra rb) s = .next (errorState .range s) ∧
      exec (.fsub d rd ra rb) s = .next (errorState .range s)) ∧
    (¬s.InRange d ra →
      exec (.fneg d rd ra) s = .next (errorState .range s) ∧
      exec (.fdbl d rd ra) s = .next (errorState .range s))

/-- With the sources in range, FMUL and FSQR answer a next state whose destination is the product of the words and of
inv_m(R) modulo m(D), so that its value is the product of the values; nothing else changes. With a source out of range
the command ends in RANGE and writes STATUS only. The word with the command's opcode, domain bit and operands in the
fields of its format, every other bit 0, decodes to it. That the hidden intermediates are unchanged is the model's own
choice (DESIGN CHOICE, log entry 7); no rule is cited for it. From 40_field.md section 2 (R115, R116). -/
def Obligations.MontgomeryProductCommands : Prop :=
  ∀ (s : State) (d : Domain) (rd ra rb : FReg), s.cfg.Legal →
    let m := s.modulus d
    (decode (packR 0x04 (bitOf d) rd ra rb 0 0) = .ok (.fmul d rd ra rb) ∧
      decode (packR 0x05 (bitOf d) rd ra 0 0 0) = .ok (.fsqr d rd ra)) ∧
    (s.InRange d ra → s.InRange d rb →
      ∃ t, exec (.fmul d rd ra rb) s = .next t ∧ OnlyWord rd s t ∧
        (∀ inv, inv < m → inv * s.cfg.radix % m = 1 → t.readFR rd = s.readFR ra * s.readFR rb * inv % m) ∧
        t.value d rd = s.value d ra * s.value d rb % m) ∧
    (s.InRange d ra →
      ∃ t, exec (.fsqr d rd ra) s = .next t ∧ OnlyWord rd s t ∧
        (∀ inv, inv < m → inv * s.cfg.radix % m = 1 → t.readFR rd = s.readFR ra * s.readFR ra * inv % m) ∧
        t.value d rd = s.value d ra * s.value d ra % m) ∧
    (¬(s.InRange d ra ∧ s.InRange d rb) → exec (.fmul d rd ra rb) s = .next (errorState .range s)) ∧
    (¬s.InRange d ra → exec (.fsqr d rd ra) s = .next (errorState .range s))

/-- With the source in range, FTOM writes the word times R modulo m(D), whose value is the source word; FFROMM writes
the word times inv_m(R), which is the value of the source; nothing else changes. With the source out of range either
ends in RANGE and writes STATUS only. The word with the command's opcode, domain bit and operands in the fields of its
format, every other bit 0, decodes to it. That the hidden intermediates are unchanged is the model's own choice
(DESIGN CHOICE, log entry 7); no rule is cited for it. From 40_field.md section 3 (R118, R119). -/
def Obligations.MontgomeryConversionCommands : Prop :=
  ∀ (s : State) (d : Domain) (rd ra : FReg), s.cfg.Legal →
    let m := s.modulus d
    (decode (packR 0x07 (bitOf d) rd ra 0 0 0) = .ok (.ftom d rd ra) ∧
      decode (packR 0x08 (bitOf d) rd ra 0 0 0) = .ok (.ffromm d rd ra)) ∧
    (s.InRange d ra →
      (∃ t, exec (.ftom d rd ra) s = .next t ∧ OnlyWord rd s t ∧
        t.readFR rd = s.readFR ra * s.cfg.radix % m ∧ t.value d rd = s.readFR ra) ∧
      (∃ t, exec (.ffromm d rd ra) s = .next t ∧ OnlyWord rd s t ∧ t.readFR rd = s.value d ra ∧
        (∀ inv, inv < m → inv * s.cfg.radix % m = 1 →
          t.readFR rd = s.readFR ra * inv % m ∧ t.value d rd = s.value d ra * inv % m))) ∧
    (¬s.InRange d ra →
      exec (.ftom d rd ra) s = .next (errorState .range s) ∧
      exec (.ffromm d rd ra) s = .next (errorState .range s))

/-- FLDK answers a next state whose destination is (k mod m) * R mod m for the unsigned immediate k, so that its value
is k mod m; nothing else changes. The word with the command's opcode, domain bit and operands in the fields of its
format, every other bit 0, decodes to it. That the hidden intermediates are unchanged is the model's own choice
(DESIGN CHOICE, log entry 7); no rule is cited for it. From 40_field.md section 3 (R120); 30_encoding.md section 2
(R85). -/
def Obligations.SmallConstantLoad : Prop :=
  ∀ (s : State) (d : Domain) (rd : FReg) (imm8 : BitVec 8), s.cfg.Legal →
    (decode (packI 0x09 (bitOf d) rd 0 imm8.toNat) = .ok (.fldk d rd imm8)) ∧
    ∃ t, exec (.fldk d rd imm8) s = .next t ∧ OnlyWord rd s t ∧
      t.readFR rd = imm8.toNat % s.modulus d * s.cfg.radix % s.modulus d ∧
      t.value d rd = imm8.toNat % s.modulus d

/-- With the sources in range, FSEL writes FR[rb] where CF is 1 and FR[ra] where it is 0, and FCNEG writes the
negative modulo m(D) where CF is 1 and the word itself where it is 0; CF and everything else are unchanged. With any
source out of range, selected or not, the command ends in RANGE. The word with the command's opcode, domain bit and
operands in the fields of its format, every other bit 0, decodes to it. That the hidden intermediates are unchanged is
the model's own choice (DESIGN CHOICE, log entry 7); no rule is cited for it. From 40_field.md section 4 (R121, R122).
-/
def Obligations.ConditionalFieldCommands : Prop :=
  ∀ (s : State) (d : Domain) (rd ra rb : FReg),
    (decode (packR 0x0A (bitOf d) rd ra rb 0 0) = .ok (.fsel d rd ra rb) ∧
      decode (packR 0x0B (bitOf d) rd ra 0 0 0) = .ok (.fcneg d rd ra)) ∧
    (s.InRange d ra → s.InRange d rb →
      ∃ t, exec (.fsel d rd ra rb) s = .next t ∧ OnlyWord rd s t ∧
        (s.cf = true → t.readFR rd = s.readFR rb) ∧ (s.cf = false → t.readFR rd = s.readFR ra)) ∧
    (s.InRange d ra →
      ∃ t, exec (.fcneg d rd ra) s = .next t ∧ OnlyWord rd s t ∧
        (s.cf = true → (t.readFR rd : Int) = (0 - (s.readFR ra : Int)) % (s.modulus d : Int)) ∧
        (s.cf = false → t.readFR rd = s.readFR ra)) ∧
    (¬(s.InRange d ra ∧ s.InRange d rb) → exec (.fsel d rd ra rb) s = .next (errorState .range s)) ∧
    (¬s.InRange d ra → exec (.fcneg d rd ra) s = .next (errorState .range s))

/-- With the sources in range, FISZ sets CF exactly when the word is 0 (exactly when the value is 0), FISODD exactly
when the value is odd, FEQ exactly when the words are equal (exactly when the values are equal); everything else is
unchanged. With a source out of range the command ends in RANGE. The word with the command's opcode, domain bit and
operands in the fields of its format, every other bit 0, decodes to it. That the hidden intermediates are unchanged is
the model's own choice (DESIGN CHOICE, log entry 7); no rule is cited for it. From 40_field.md section 4 (R123, R124,
R125). -/
def Obligations.FieldPredicateCommands : Prop :=
  ∀ (s : State) (d : Domain) (ra rb : FReg), s.cfg.Legal →
    (decode (packR 0x0C (bitOf d) 0 ra 0 0 0) = .ok (.fisz d ra) ∧
      decode (packR 0x0D (bitOf d) 0 ra 0 0 0) = .ok (.fisodd d ra) ∧
      decode (packR 0x0E (bitOf d) 0 ra rb 0 0) = .ok (.feq d ra rb)) ∧
    (s.InRange d ra →
      (∃ t, exec (.fisz d ra) s = .next t ∧ OnlyCF s t ∧ t.hidden = s.hidden ∧
        (t.cf = true ↔ s.readFR ra = 0) ∧ (t.cf = true ↔ s.value d ra = 0)) ∧
      (∃ t, exec (.fisodd d ra) s = .next t ∧ OnlyCF s t ∧ t.hidden = s.hidden ∧
        (t.cf = true ↔ s.value d ra % 2 = 1))) ∧
    (s.InRange d ra → s.InRange d rb →
      ∃ t, exec (.feq d ra rb) s = .next t ∧ OnlyCF s t ∧ t.hidden = s.hidden ∧
        (t.cf = true ↔ s.readFR ra = s.readFR rb) ∧ (t.cf = true ↔ s.value d ra = s.value d rb)) ∧
    (¬s.InRange d ra →
      exec (.fisz d ra) s = .next (errorState .range s) ∧ exec (.fisodd d ra) s = .next (errorState .range s)) ∧
    (¬(s.InRange d ra ∧ s.InRange d rb) → exec (.feq d ra rb) s = .next (errorState .range s))

/-- SETC with immediate 0 clears CF and with 1 sets it, and changes nothing else; with any other immediate it ends in
IMM and writes STATUS only. The word with the command's opcode, domain bit and operands in the fields of its format,
every other bit 0, decodes to it. That the hidden intermediates are unchanged is the model's own choice (DESIGN
CHOICE, log entry 7); no rule is cited for it. The clause on an illegal immediate is about a term that no word decodes
to (DESIGN CHOICE, log entry 16); such a word itself is refused by the decoder. From 40_field.md section 4 (R126);
30_encoding.md section 2 (R87). -/
def Obligations.SetChoiceFlagCommand : Prop :=
  ∀ (s : State) (imm8 : BitVec 8),
    (imm8.toNat ≤ 1 → decode (packI 0x0F 0 0 0 imm8.toNat) = .ok (.setc imm8)) ∧
    (imm8.toNat ≤ 1 →
      ∃ t, exec (.setc imm8) s = .next t ∧ OnlyCF s t ∧ t.hidden = s.hidden ∧
        (t.cf = true ↔ imm8.toNat = 1)) ∧
    (1 < imm8.toNat → exec (.setc imm8) s = .next (errorState .imm s))

/-- For every width: byte i of tobytes(v) is bits 8(L-1-i)+7 : 8(L-1-i) of v in big order and bits 8i+7 : 8i in little
order; frombytes of it is v for every v below 2^(8L); and tobytes of frombytes of a string is the string. From
20_memory.md section 4 (R59). -/
def Obligations.FieldByteFormOfIntegers : Prop :=
  (∀ (len v i : Nat) (h : i < len),
    ((toBytes .big len v)[i]'(by simpa [toBytes] using h)).toNat = v / 2 ^ (8 * (len - 1 - i)) % 256 ∧
    ((toBytes .little len v)[i]'(by simpa [toBytes] using h)).toNat = v / 2 ^ (8 * i) % 256) ∧
  (∀ (order : ByteOrder) (len v : Nat), v < 2 ^ (8 * len) → fromBytes order (toBytes order len v) = v) ∧
  (∀ (order : ByteOrder) (bs : List Byte), toBytes order bs.length (fromBytes order bs) = bs)

/-- With v the integer of the first FB(D) bytes of the buffer, FDEC sets CF and writes v * R mod m where v < m(D) (its
value is v), and clears CF and writes 0 otherwise; FRED writes (v mod m) * R mod m, CF unchanged; neither raises an
error and nothing else changes. The word with the command's opcode, domain bit and operands in the fields of its
format, every other bit 0, decodes to it. That the hidden intermediates are unchanged is the model's own choice
(DESIGN CHOICE, log entry 7); no rule is cited for it. From 40_field.md section 5 (R130, R132). -/
def Obligations.FieldDecodeCommands : Prop :=
  ∀ (s : State) (d : Domain) (rd : FReg), s.cfg.Legal →
    let m := s.modulus d
    let v := fromBytes s.cfg.byteOrder (s.bufBytes 0 (s.cfg.fb d))
    (decode (packR 0x14 (bitOf d) rd 0 0 0 0) = .ok (.fdec d rd) ∧
      decode (packR 0x16 (bitOf d) rd 0 0 0 0) = .ok (.fred d rd)) ∧
    (∃ t, exec (.fdec d rd) s = .next t ∧ OnlyFR rd s t ∧ t.hidden = s.hidden ∧
      (v < m → t.cf = true ∧ t.readFR rd = v * s.cfg.radix % m ∧ t.value d rd = v) ∧
      (m ≤ v → t.cf = false ∧ t.readFR rd = 0)) ∧
    (∃ t, exec (.fred d rd) s = .next t ∧ OnlyWord rd s t ∧
      t.readFR rd = v % m * s.cfg.radix % m ∧ t.value d rd = v % m)

/-- With the source in range, FENC stores the FB(D) bytes of the value at the start of the buffer and writes FB(D) to
BUFLEN; every byte beyond them reads as before and nothing else changes. With the source out of range it ends in
RANGE. That the hidden intermediates are unchanged is the model's own choice (DESIGN CHOICE, log entry 7); no rule is
cited for it. From 40_field.md section 5 (R131). -/
def Obligations.FieldEncodeCommand : Prop :=
  ∀ (s : State) (d : Domain) (ra : FReg), s.Inv →
    (s.InRange d ra →
      ∃ t, exec (.fenc d ra) s = .next t ∧
        OnlyEncoding (toBytes s.cfg.byteOrder (s.cfg.fb d) (s.value d ra)) s t ∧
        t.buflen.toNat = s.cfg.fb d ∧ t.hidden = s.hidden) ∧
    (¬s.InRange d ra → exec (.fenc d ra) s = .next (errorState .range s))

/-- From every state with the invariant and a source in range: FENC of it, then FDEC in the same domain, gives a state
whose destination is the source word and whose CF is 1. From 40_field.md section 5 (R131). -/
def Obligations.FieldEncodingRoundTrip : Prop :=
  ∀ (s : State) (d : Domain) (rd ra : FReg), s.Inv → s.InRange d ra →
    ∃ t u, exec (.fenc d ra) s = .next t ∧ exec (.fdec d rd) t = .next u ∧
      u.readFR rd = s.readFR ra ∧ u.cf = true

/-- With the source in range and non-zero, FINV sets CF and writes the word, below m(D), whose value times the
source's value is 1 modulo m(D); with the source 0 it clears CF and writes 0; only the destination, CF and the hidden
intermediates change. With the source out of range it ends in RANGE. From 41_inverter.md section 2 (R155). -/
def Obligations.FieldInverseCommand : Prop :=
  ∀ (s : State) (d : Domain) (rd ra : FReg), s.cfg.Legal →
    let m := s.modulus d
    (s.InRange d ra →
      ∃ t, exec (.finv d rd ra) s = .next t ∧ OnlyFR rd s t ∧
        (s.readFR ra ≠ 0 → t.cf = true ∧ t.readFR rd < m ∧ t.value d rd * s.value d ra % m = 1) ∧
        (s.readFR ra = 0 → t.cf = false ∧ t.readFR rd = 0)) ∧
    (¬s.InRange d ra → exec (.finv d rd ra) s = .next (errorState .range s))

/-- For every odd modulus above 1, every source word and every number of divsteps from the engine's initial state: f
is odd, v and r stay below m, and m divides f*2^i - v*w and g*2^i - r*w. From 41_inverter.md section 1 (R152). -/
def Obligations.DivstepInvariant : Prop :=
  ∀ m w i : Nat, m % 2 = 1 → 1 < m →
    let e := divsteps m i (inverterStart m w)
    e.f % 2 = 1 ∧ e.v < m ∧ e.r < m ∧
      (m : Int) ∣ e.f * 2 ^ i - e.v * w ∧ (m : Int) ∣ e.g * 2 ^ i - e.r * w

/-- For every legal build, modulus and word below it: if after N_DIV divsteps g is 0 and f is 1 or -1 (which R153 says
of every non-zero word), the engine's finalised output is the word FINV writes; for the word 0 the output is 0. From
41_inverter.md section 1 (R153, R154). -/
def Obligations.InverseEngineGivesTheInverse : Prop :=
  ∀ (c : Params) (d : Domain) (w : Nat), c.Legal → w < c.modulus d →
    let m := c.modulus d
    let e := inverterRun m w
    (w ≠ 0 → e.g = 0 → (e.f = 1 ∨ e.f = -1) → c.inverterOut m e = c.mont m (invMod m (c.val m w))) ∧
    (w = 0 → c.inverterOut m e = 0)

/-- In either domain, with a the value of the source and x its candidate root: x is EXP's where m mod 4 = 3, ATKIN's
where m mod 8 = 5 (its formula, also for a = 1: log entry 27), and where m mod 8 = 1 one of the two that Tonelli-
Shanks may return (log entry 5). With the source in range FSQRT answers a next state with CF set exactly when x^2 mod
m = a, which is exactly when a is a quadratic residue modulo m; then the destination is x * R mod m and its value
squared is a; otherwise the destination is some word below m(D), left free (log entry 4). Only the destination, CF and
the hidden intermediates change. With the source out of range it ends in RANGE. From 42_sqrt.md section 3 (R175);
42_sqrt.md section 2 (R171 to R174); 42_sqrt.md section 1 (R170). -/
def Obligations.SquareRootCommand : Prop :=
  ∀ (s : State) (d : Domain) (rd ra : FReg), s.cfg.Legal →
    let m := s.modulus d
    let a := s.value d ra
    let x := s.cfg.root d a
    (m % 4 = 3 → x = sqrtExp m a) ∧ (m % 8 = 5 → x = sqrtAtkin m a) ∧
    (m % 8 = 1 → ∃ other, x = sqrtTs other m (s.cfg.rootOfUnity d) a) ∧
    (s.InRange d ra →
      ∃ t, exec (.fsqrt d rd ra) s = .next t ∧ OnlyFR rd s t ∧ t.readFR rd < m ∧
        (t.cf = true ↔ x ^ 2 % m = a) ∧ (t.cf = true ↔ IsResidue m a) ∧
        (t.cf = true → t.readFR rd = x * s.cfg.radix % m ∧ t.value d rd ^ 2 % m = a)) ∧
    (¬s.InRange d ra → exec (.fsqrt d rd ra) s = .next (errorState .range s))

/-- For every prime modulus: where m mod 4 = 3 the EXP method, and where m mod 8 = 5 the ATKIN method, gives for every
quadratic residue below m a number below m whose square is it. From 42_sqrt.md section 2 (R171, R172, R174). -/
def Obligations.ExpAndAtkinFindRoots : Prop :=
  ∀ m a : Nat, Nat.Prime m → a < m → IsResidue m a →
    (m % 4 = 3 → sqrtExp m a < m ∧ sqrtExp m a ^ 2 % m = a) ∧
    (m % 8 = 5 → sqrtAtkin m a < m ∧ sqrtAtkin m a ^ 2 % m = a)

/-- For every prime modulus with m mod 8 = 1 and every primitive 2^S-th root of unity: for every quadratic residue
below m, and whichever of the two roots the instance takes (log entry 5), the result is below m and its square is the
residue; for 0 it is 0. From 42_sqrt.md section 2 (R173). -/
def Obligations.TonelliShanksFindsRoots : Prop :=
  ∀ (m u a : Nat) (other : Bool), Nat.Prime m → m % 8 = 1 → u < m → u ^ 2 ^ sOf m % m = 1 →
    u ^ 2 ^ (sOf m - 1) % m ≠ 1 → a < m → IsResidue m a →
    sqrtTs other m u a < m ∧ sqrtTs other m u a ^ 2 % m = a ∧ sqrtTs other m u 0 = 0

/-- For every legal build and points of E: the identity is neutral; points with equal x and opposite y add to O;
otherwise the sum has the x and y that the tangent or chord slope gives modulo p; the negative is (x, (p - y) mod p);
sums and negatives stay in E; addition is commutative and associative, and a point plus its negative is O. Formalises
R190. -/
def Obligations.PointAdditionIsTheGroupLaw : Prop :=
  ∀ c : Params, c.Legal →
    (∀ q, c.add .identity q = q ∧ c.add q .identity = q) ∧ c.neg .identity = .identity ∧
    (∀ x1 y1 x2 y2, c.onCurve (.affine x1 y1) = true → c.onCurve (.affine x2 y2) = true →
      c.neg (.affine x1 y1) = .affine x1 ((c.p - y1) % c.p) ∧
      (x1 = x2 → (y1 + y2) % c.p = 0 → c.add (.affine x1 y1) (.affine x2 y2) = .identity) ∧
      (¬(x1 = x2 ∧ (y1 + y2) % c.p = 0) →
        ∃ l x3 y3 : Nat, c.add (.affine x1 y1) (.affine x2 y2) = .affine x3 y3 ∧ x3 < c.p ∧ y3 < c.p ∧
          (x1 = x2 → l * (2 * y1) % c.p = (3 * x1 ^ 2 + c.a) % c.p) ∧
          (x1 ≠ x2 → (c.p : Int) ∣ l * ((x2 : Int) - x1) - ((y2 : Int) - y1)) ∧
          (c.p : Int) ∣ (x3 : Int) - ((l : Int) ^ 2 - x1 - x2) ∧
          (c.p : Int) ∣ (y3 : Int) - (l * ((x1 : Int) - x3) - y1))) ∧
    (∀ q r s, c.onCurve q = true → c.onCurve r = true → c.onCurve s = true →
      c.onCurve (c.add q r) = true ∧ c.onCurve (c.neg q) = true ∧ c.add q r = c.add r q ∧
      c.add (c.add q r) s = c.add q (c.add r s) ∧ c.add q (c.neg q) = .identity)

/-- PADD writes PR[ra] +E PR[rb], PADDA PR[ra] +E AR[rb], PDBL PR[ra] +E PR[ra], each with the operands as they were
before the command; CF and everything else but the hidden intermediates are unchanged. The acceptance errors are those
of the decoder. From 43_point.md section 2 (R197, R198, R199). -/
def Obligations.PointAdditionCommands : Prop :=
  ∀ (s : State) (rd ra rb : PReg) (rb' : AReg),
    (∃ t, exec (.padd rd ra rb) s = .next t ∧ OnlyPR rd s t ∧
      t.readPR rd = s.cfg.add (s.readPR ra) (s.readPR rb)) ∧
    (∃ t, exec (.padda rd ra rb') s = .next t ∧ OnlyPR rd s t ∧
      t.readPR rd = s.cfg.add (s.readPR ra) (s.readAR rb')) ∧
    (∃ t, exec (.pdbl rd ra) s = .next t ∧ OnlyPR rd s t ∧
      t.readPR rd = s.cfg.add (s.readPR ra) (s.readPR ra))

/-- PIDENT writes O, PGEN the generator, PNEG the negative, PCNEG the negative where CF is 1 and the point itself
where it is 0, PSEL PR[rb] where CF is 1 and PR[ra] where it is 0, FROMAFF the affine register's element; CF and
everything else but the hidden intermediates are unchanged. From 43_point.md section 2 (R195, R196, R200, R201, R202,
R206). -/
def Obligations.ProjectiveMoveCommands : Prop :=
  ∀ (s : State) (rd ra rb : PReg) (ra' : AReg),
    (∃ t, exec (.pident rd) s = .next t ∧ OnlyPR rd s t ∧ t.readPR rd = .identity) ∧
    (∃ t, exec (.pgen rd) s = .next t ∧ OnlyPR rd s t ∧ t.readPR rd = .affine s.cfg.gx s.cfg.gy) ∧
    (∃ t, exec (.pneg rd ra) s = .next t ∧ OnlyPR rd s t ∧ t.readPR rd = s.cfg.neg (s.readPR ra)) ∧
    (∃ t, exec (.pcneg rd ra) s = .next t ∧ OnlyPR rd s t ∧
      (s.cf = true → t.readPR rd = s.cfg.neg (s.readPR ra)) ∧ (s.cf = false → t.readPR rd = s.readPR ra)) ∧
    (∃ t, exec (.psel rd ra rb) s = .next t ∧ OnlyPR rd s t ∧
      (s.cf = true → t.readPR rd = s.readPR rb) ∧ (s.cf = false → t.readPR rd = s.readPR ra)) ∧
    (∃ t, exec (.fromaff rd ra') s = .next t ∧ OnlyPR rd s t ∧ t.readPR rd = s.readAR ra')

/-- PISID sets CF exactly when PR[ra] is O, AISID exactly when AR[ra] is O, PEQ exactly when the two registers hold
one element of E; everything else is unchanged. That the hidden intermediates are unchanged is the model's own choice
(DESIGN CHOICE, log entry 7); no rule is cited for it. From 43_point.md section 2 (R204, R205); 43_point.md section 3
(R210). -/
def Obligations.PointPredicateCommands : Prop :=
  ∀ (s : State) (ra rb : PReg) (ra' : AReg),
    (∃ t, exec (.pisid ra) s = .next t ∧ OnlyCF s t ∧ t.hidden = s.hidden ∧
      (t.cf = true ↔ s.readPR ra = .identity)) ∧
    (∃ t, exec (.peq ra rb) s = .next t ∧ OnlyCF s t ∧ t.hidden = s.hidden ∧
      (t.cf = true ↔ s.readPR ra = s.readPR rb)) ∧
    (∃ t, exec (.aisid ra') s = .next t ∧ OnlyCF s t ∧ t.hidden = s.hidden ∧
      (t.cf = true ↔ s.readAR ra' = .identity))

/-- TOAFF writes the element of E of the projective register (the identity included), AIDENT O, AGEN the generator,
ANEG the negative; CF and everything else are unchanged (TOAFF's inversion changes hidden intermediates). That the
hidden intermediates are unchanged by AIDENT, AGEN and ANEG, and TOAFF the exception, is the model's own choice
(DESIGN CHOICE, log entry 7); no rule is cited for it. From 43_point.md section 2 (R203); 43_point.md section 3 (R207,
R208, R209). -/
def Obligations.AffineMoveCommands : Prop :=
  ∀ (s : State) (rd ra : AReg) (ra' : PReg),
    (∃ t, exec (.toaff rd ra') s = .next t ∧ OnlyAR rd s t ∧ t.cf = s.cf ∧ t.readAR rd = s.readPR ra') ∧
    (∃ t, exec (.aident rd) s = .next t ∧ OnlyAR rd s t ∧ t.cf = s.cf ∧ t.hidden = s.hidden ∧
      t.readAR rd = .identity) ∧
    (∃ t, exec (.agen rd) s = .next t ∧ OnlyAR rd s t ∧ t.cf = s.cf ∧ t.hidden = s.hidden ∧
      t.readAR rd = .affine s.cfg.gx s.cfg.gy) ∧
    (∃ t, exec (.aneg rd ra) s = .next t ∧ OnlyAR rd s t ∧ t.cf = s.cf ∧ t.hidden = s.hidden ∧
      t.readAR rd = s.cfg.neg (s.readAR ra))

/-- AGETX writes x * R mod p and AGETY y * R mod p for an affine register holding (x, y), and the word 0 where it
holds O; CF and everything else are unchanged. That the hidden intermediates are unchanged is the model's own choice
(DESIGN CHOICE, log entry 7); no rule is cited for it. From 43_point.md section 3 (R212, R213). -/
def Obligations.AffineCoordinateCommands : Prop :=
  ∀ (s : State) (rd : FReg) (ra : AReg),
    (∃ t, exec (.agetx rd ra) s = .next t ∧ OnlyWord rd s t ∧
      (s.readAR ra = .identity → t.readFR rd = 0) ∧
      (∀ x y, s.readAR ra = .affine x y → t.readFR rd = x * s.cfg.radix % s.cfg.p)) ∧
    (∃ t, exec (.agety rd ra) s = .next t ∧ OnlyWord rd s t ∧
      (s.readAR ra = .identity → t.readFR rd = 0) ∧
      (∀ x y, s.readAR ra = .affine x y → t.readFR rd = y * s.cfg.radix % s.cfg.p))

/-- With both coordinate words in range for p and x, y their values, ASET sets CF exactly when (y^2 - x^3 - a*x - b)
mod p = 0; then the register holds (x, y), otherwise O; only that register and CF change. With a word out of range it
ends in RANGE. The word with the command's opcode, domain bit and operands in the fields of its format, every other
bit 0, decodes to it. That the hidden intermediates are unchanged is the model's own choice (DESIGN CHOICE, log entry
7); no rule is cited for it. From 43_point.md section 3 (R211). -/
def Obligations.AffineFromCoordinatesCommand : Prop :=
  ∀ (s : State) (rd : AReg) (ra rb : FReg), s.cfg.Legal →
    let x := s.value .field ra
    let y := s.value .field rb
    (decode (packR 0x32 0 rd ra rb 0 0) = .ok (.aset rd ra rb)) ∧
    (s.InRange .field ra → s.InRange .field rb →
      ∃ t, exec (.aset rd ra rb) s = .next t ∧ OnlyAR rd s t ∧ t.hidden = s.hidden ∧
        (t.cf = true ↔ ((y : Int) ^ 2 - (x : Int) ^ 3 - s.cfg.a * x - s.cfg.b) % s.cfg.p = 0) ∧
        (t.cf = true → t.readAR rd = .affine x y) ∧ (t.cf = false → t.readAR rd = .identity)) ∧
    (¬(s.InRange .field ra ∧ s.InRange .field rb) → exec (.aset rd ra rb) s = .next (errorState .range s))

/-- PENC stores the single byte 0x00 for O; for (x, y) with immediate 1 the tag 0x02 or 0x03 by the parity of y and
the bytes of x; with immediate 0 the tag 0x04 and the bytes of x and y; BUFLEN is the length; bytes beyond and
everything else are unchanged. An immediate above 1 ends in IMM. That the hidden intermediates are unchanged is the
model's own choice (DESIGN CHOICE, log entry 7); no rule is cited for it. The clause on an illegal immediate is about
a term that no word decodes to (DESIGN CHOICE, log entry 16); such a word itself is refused by the decoder. From
43_point.md section 4 (R215, R216); 30_encoding.md section 2 (R88). -/
def Obligations.PointEncodeCommand : Prop :=
  ∀ (s : State) (ra : AReg) (imm8 : BitVec 8), s.Inv →
    let bytes := fun v => toBytes s.cfg.byteOrder (s.cfg.fb .field) v
    (imm8.toNat ≤ 1 →
      ∃ t, exec (.penc ra imm8) s = .next t ∧ t.hidden = s.hidden ∧
        (s.readAR ra = .identity → OnlyEncoding [0x00] s t) ∧
        (∀ x y, s.readAR ra = .affine x y →
          (imm8.toNat = 1 → y % 2 = 0 → OnlyEncoding (0x02 :: bytes x) s t) ∧
          (imm8.toNat = 1 → y % 2 = 1 → OnlyEncoding (0x03 :: bytes x) s t) ∧
          (imm8.toNat = 0 → OnlyEncoding (0x04 :: (bytes x ++ bytes y)) s t))) ∧
    (1 < imm8.toNat → exec (.penc ra imm8) s = .next (errorState .imm s))

/-- For a legal policy PDEC answers a next state that changes one affine register, CF and hidden intermediates; the
register holds O where CF is 0. One byte 0x00 is accepted exactly under policy 1, as O. An uncompressed string is
accepted exactly when its coordinates are below p and on the curve, as that point. An accepted compressed string gives
a point of E with its x and the tag's parity. Every other length or tag is refused. An immediate above 1 ends in IMM.
The clause on an illegal immediate is about a term that no word decodes to (DESIGN CHOICE, log entry 16); such a word
itself is refused by the decoder. From 43_point.md section 4 (R214); 30_encoding.md section 2 (R89). -/
def Obligations.PointDecodeCommand : Prop :=
  ∀ (s : State) (rd : AReg) (imm8 : BitVec 8), s.cfg.Legal →
    let len := s.buflen.toNat
    let tag := s.bufByte 0
    let fb := s.cfg.fb .field
    let x := fromBytes s.cfg.byteOrder (s.bufBytes 1 fb)
    let y := fromBytes s.cfg.byteOrder (s.bufBytes (1 + fb) fb)
    (imm8.toNat ≤ 1 →
      ∃ t, exec (.pdec rd imm8) s = .next t ∧ OnlyAR rd s t ∧ (t.cf = false → t.readAR rd = .identity) ∧
        (len = 1 → tag = 0x00 → t.readAR rd = .identity ∧ (t.cf = true ↔ imm8.toNat = 1)) ∧
        (len = 1 + fb → tag = 0x02 ∨ tag = 0x03 → t.cf = true →
          ∃ y', t.readAR rd = .affine x y' ∧ s.cfg.onCurve (.affine x y') = true ∧ y' % 2 = tag.toNat % 2) ∧
        (len = 1 + 2 * fb → tag = 0x04 →
          (t.cf = true ↔ s.cfg.onCurve (.affine x y) = true) ∧ (t.cf = true → t.readAR rd = .affine x y)) ∧
        (¬(len = 1 ∧ tag = 0x00) → ¬(len = 1 + fb ∧ (tag = 0x02 ∨ tag = 0x03)) → ¬(len = 1 + 2 * fb ∧ tag = 0x04) →
          t.cf = false)) ∧
    (1 < imm8.toNat → exec (.pdec rd imm8) s = .next (errorState .imm s))

/-- For a legal build, a compressed string of the right length with tag 0x02 or 0x03: PDEC sets CF exactly when x is
below p and some y below p with the tag's parity puts (x, y) on the curve, whatever the square-root method and
whichever root it returns. From 43_point.md section 4 (R214); 42_sqrt.md section 2 (R174). -/
def Obligations.CompressedDecodeIsComplete : Prop :=
  ∀ (s : State) (rd : AReg) (imm8 : BitVec 8), s.cfg.Legal → imm8.toNat ≤ 1 →
    s.buflen.toNat = 1 + s.cfg.fb .field → (s.bufByte 0 = 0x02 ∨ s.bufByte 0 = 0x03) →
    let x := fromBytes s.cfg.byteOrder (s.bufBytes 1 (s.cfg.fb .field))
    ∃ t, exec (.pdec rd imm8) s = .next t ∧
      (t.cf = true ↔ ∃ y, s.cfg.onCurve (.affine x y) = true ∧ y % 2 = (s.bufByte 0).toNat % 2)

/-- From every state with the invariant and for every affine register and form: PENC, then PDEC under policy 1, gives
a state whose destination holds the same element of E and whose CF is 1. From 43_point.md section 4 (R214, R215,
R216). -/
def Obligations.PointEncodingRoundTrip : Prop :=
  ∀ (s : State) (ra rd : AReg) (form : BitVec 8), s.Inv → form.toNat ≤ 1 →
    ∃ t u, exec (.penc ra form) s = .next t ∧ exec (.pdec rd 1) t = .next u ∧
      u.readAR rd = s.readAR ra ∧ u.cf = true

/-- For every legal build and scalar below n: there are DIGITS digits, every digit is in [-8, 8], all but the top one
are at most 7, the top one is not negative, and the digits times their powers of 16 sum to the scalar. From
44_scalar_mul.md section 1 (R242). -/
def Obligations.RecodedDigitsSumToTheScalar : Prop :=
  ∀ (c : Params) (k : Nat), c.Legal → k < c.n →
    (recode c k).length = c.digits ∧ (∀ e ∈ recode c k, -8 ≤ e ∧ e ≤ 8) ∧
    (∀ i (h : i < (recode c k).length), i + 1 < c.digits → (recode c k)[i] ≤ 7) ∧
    (∀ h : c.digits - 1 < (recode c k).length, 0 ≤ (recode c k)[c.digits - 1]) ∧
    (recode c k).foldr (fun e acc => e + 16 * acc) 0 = (k : Int)

/-- From every state with the invariant and scalar words in range for n: PMUL, PMULG and LINCOMB, computed by the
windowed algorithm, write [k]P, [k]G and [k1]P1 +E [k2]P2, the sums of the definition; CF and everything else but the
hidden intermediates are unchanged. With a scalar word out of range the command ends in RANGE. The word with the
command's opcode, domain bit and operands in the fields of its format, every other bit 0, decodes to it. Formalises
R241, R243, R244. -/
def Obligations.ScalarMultiplicationCommands : Prop :=
  ∀ (s : State) (rd ra rc : PReg) (rb re : FReg), s.Inv →
    (decode (packR 0x38 0 rd ra rb 0 0) = .ok (.pmul rd ra rb) ∧
      decode (packR 0x39 0 rd rb 0 0 0) = .ok (.pmulg rd rb) ∧
      decode (packR 0x3A 0 rd ra rb rc re) = .ok (.lincomb rd ra rb rc re)) ∧
    (s.InRange .scalar rb →
      (∃ t, exec (.pmul rd ra rb) s = .next t ∧ OnlyPR rd s t ∧
        t.readPR rd = s.cfg.nsmul (s.value .scalar rb) (s.readPR ra)) ∧
      (∃ t, exec (.pmulg rd rb) s = .next t ∧ OnlyPR rd s t ∧
        t.readPR rd = s.cfg.nsmul (s.value .scalar rb) s.cfg.generator)) ∧
    (s.InRange .scalar rb → s.InRange .scalar re →
      ∃ t, exec (.lincomb rd ra rb rc re) s = .next t ∧ OnlyPR rd s t ∧
        t.readPR rd = s.cfg.add (s.cfg.nsmul (s.value .scalar rb) (s.readPR ra))
          (s.cfg.nsmul (s.value .scalar re) (s.readPR rc))) ∧
    (¬s.InRange .scalar rb →
      exec (.pmul rd ra rb) s = .next (errorState .range s) ∧ exec (.pmulg rd rb) s = .next (errorState .range s)) ∧
    (¬(s.InRange .scalar rb ∧ s.InRange .scalar re) →
      exec (.lincomb rd ra rb rc re) s = .next (errorState .range s))

/-- LTBUILD answers a next state in which entry j of the table is [j+1] of the base, for j from 0 to 7; the other
table, every register, CF, the buffer and the rest are unchanged. That the hidden intermediates are unchanged is the
model's own choice (DESIGN CHOICE, log entry 7); no rule is cited for it. From 44_scalar_mul.md section 3 (R245). -/
def Obligations.LookupTableBuildCommand : Prop :=
  ∀ (s : State) (rd : TReg) (ra : PReg),
    ∃ t, exec (.ltbuild rd ra) s = .next t ∧ Succeeds s t ∧ SameFR s t ∧ SamePR s t ∧ SameAR s t ∧ SameBuf s t ∧
      t.cf = s.cf ∧ t.hidden = s.hidden ∧ (∀ k, k ≠ rd → t.readLT k = s.readLT k) ∧
      (∀ (j : Nat) (h : j < 8), (t.readLT rd)[j] = s.cfg.nsmul (j + 1) (s.readPR ra))

/-- For a digit in [-8, 8] LTSEL writes O for digit 0, entry d - 1 for a positive digit d, and the negative of entry
-d - 1 for a negative one; CF and everything else but the hidden intermediates are unchanged. Any other digit ends in
IMM and writes STATUS only. The clause on an illegal immediate is about a term that no word decodes to (DESIGN CHOICE,
log entry 16); such a word itself is refused by the decoder. From 44_scalar_mul.md section 3 (R246); 30_encoding.md
section 2 (R86). -/
def Obligations.LookupTableSelectCommand : Prop :=
  ∀ (s : State) (rd : PReg) (ra : TReg) (imm8 : BitVec 8),
    let d := imm8.toInt
    (-8 ≤ d ∧ d ≤ 8 →
      ∃ t, exec (.ltsel rd ra imm8) s = .next t ∧ OnlyPR rd s t ∧
        (d = 0 → t.readPR rd = .identity) ∧
        (∀ (j : Nat) (h : j < 8), d = (j : Int) + 1 → t.readPR rd = (s.readLT ra)[j]) ∧
        (∀ (j : Nat) (h : j < 8), d = -((j : Int) + 1) → t.readPR rd = s.cfg.neg (s.readLT ra)[j])) ∧
    (d < -8 ∨ 8 < d → exec (.ltsel rd ra imm8) s = .next (errorState .imm s))

/-- NOP answers the state with ERR = OK, DONE = 1 and INFLIGHT empty, and nothing else changed. ZEROIZE answers a
state with every field register 0, every point register and table entry O, every buffer byte 0, BUFLEN 0, CF 0 and the
hidden intermediates cleared; CTRL, the other STATUS bits and the build are unchanged. The only words of the two
opcodes that are not RSV are 0x00000000 and 0xFC000000. That NOP leaves the hidden intermediates is the model's own
choice (DESIGN CHOICE, log entry 7), and so is that ZEROIZE leaves the CMD readback (DESIGN CHOICE, log entry 28); no
rule is cited for either. From 44_scalar_mul.md section 4 (R250, R253). -/
def Obligations.SystemCommands : Prop :=
  ∀ s : State,
    (∀ w : CmdWord, opOf w = 0x00 → decode w = if w = 0x00000000 then .ok .nop else .error .rsv) ∧
    (∀ w : CmdWord, opOf w = 0x3F → decode w = if w = 0xFC000000 then .ok .zeroize else .error .rsv) ∧
    exec .nop s = .next { s with err := .ok, done := true, inflight := none } ∧
    ∃ t, exec .zeroize s = .next t ∧ Succeeds s t ∧ (∀ i, t.readFR i = 0) ∧ (∀ i, t.readPR i = .identity) ∧
      (∀ i, t.readAR i = .identity) ∧ (∀ k j (h : j < 8), (t.readLT k)[j] = .identity) ∧ (∀ i, t.bufByte i = 0) ∧
      t.buflen = 0 ∧ t.cf = false ∧ t.hidden = .cleared

/-- When the host's next access is a 32-bit write of v to CMD and STATUS.BUSY is 0, the step puts v in flight and in
the CMD readback, clears DONE and answers OK; no other state changes, so BUSY then reads 1. From 60_exceptions.md
section 1 (R270). -/
def Obligations.CommandAcceptance : Prop :=
  ∀ (s : State) (v : BitVec 32) (rest : List Input),
    s.inputs = .write 4 (s.cfg.baseAddr + 0x014) v :: rest → s.busy = false →
    step s = .next { s with inflight := some v, cmd := v, done := false, inputs := rest,
                            resp := some { error := false, data := none } }

/-- When STATUS.BUSY is 1 and the host's next access is a 32-bit write to CMD, BUFLEN or a mapped buffer word, the
step sets OVR and answers OK, and changes no other state. From 70_reset_and_hazards.md section 2 (R310). -/
def Obligations.BusyWritesAreDropped : Prop :=
  ∀ (s : State) (off : Nat) (v : BitVec 32) (rest : List Input), s.cfg.Legal →
    s.inputs = .write 4 (s.cfg.baseAddr + off) v :: rest → s.busy = true →
    (off = 0x014 ∨ off = 0x018 ∨ ∃ i, i < s.cfg.bufBytes / 4 ∧ off = 0x100 + 4 * i) →
    step s = .next { s with ovr := true, inputs := rest, resp := some { error := false, data := none } }

/-- When the host's next access is a 32-bit read of a mapped register, the step answers OK with: ID; CTRL with IE in
bit 0 and every other bit 0; STATUS with BUSY, DONE, CF, ERR, ERRS, OVR in bits 0, 1, 2, 7:4, 8, 9 and every other bit
0; CMD; and, when not busy, BUFLEN in bits 7:0 and buffer word i with byte 4i+j in bits 8j+7 : 8j. While busy a BUFLEN
read has bits 31:8 zero. From 10_state.md section 7 (R35); 20_memory.md section 4 (R60); 70_reset_and_hazards.md
section 2 (R311). -/
def Obligations.HostReadsReturnTheRegisters : Prop :=
  ∀ (s : State) (off : Nat) (rest : List Input), s.cfg.Legal →
    s.inputs = .read 4 (s.cfg.baseAddr + off) :: rest →
    (off = 0x000 ∨ off = 0x00C ∨ off = 0x010 ∨ off = 0x014 ∨ off = 0x018 ∨
      ∃ i, i < s.cfg.bufBytes / 4 ∧ off = 0x100 + 4 * i) →
    ∃ t v, step s = .next t ∧ t.resp = some { error := false, data := some v } ∧
      (off = 0x000 → v = s.cfg.idValue) ∧
      (off = 0x00C → v.toNat = s.ie.toNat) ∧
      (off = 0x010 → v.getLsbD 0 = s.busy ∧ v.getLsbD 1 = s.done ∧ v.getLsbD 2 = s.cf ∧ v.getLsbD 3 = false ∧
        (v.toNat / 2 ^ 4) % 2 ^ 4 = errorCode s.err ∧ v.getLsbD 8 = s.errs ∧ v.getLsbD 9 = s.ovr ∧
        v.toNat < 2 ^ 10) ∧
      (off = 0x014 → v = s.cmd) ∧
      (off = 0x018 → v.toNat < 2 ^ 8 ∧ (s.busy = false → v.toNat = s.buflen.toNat)) ∧
      (∀ i j, i < s.cfg.bufBytes / 4 → j < 4 → off = 0x100 + 4 * i → s.busy = false →
        v.toNat / 2 ^ (8 * j) % 2 ^ 8 = (s.bufByte (4 * i + j)).toNat)

/-- For a legal build with W below 256, PARAM0 read by the host has W in bits 7:0, WORD in 15:8, byte order in 16,
coordinates in 17, zero in 19:18, the root methods in 21:20 and 23:22 and BUF_BYTES/4 in 31:24; PARAM1 has the bit
lengths of p and n in 15:0 and 31:16. From 10_state.md section 7 (R35); 42_sqrt.md section 1 (R170). -/
def Obligations.ParameterRegistersShowTheBuild : Prop :=
  ∀ (s : State) (off : Nat) (rest : List Input), s.cfg.Legal → s.cfg.w < 256 →
    s.inputs = .read 4 (s.cfg.baseAddr + off) :: rest → (off = 0x004 ∨ off = 0x008) →
    ∃ t v, step s = .next t ∧ t.resp = some { error := false, data := some v } ∧
      (off = 0x004 → bits v.toNat 7 0 = s.cfg.w ∧ bits v.toNat 15 8 = s.cfg.word ∧
        (bits v.toNat 16 16 = 0 ↔ s.cfg.byteOrder = .big) ∧ (bits v.toNat 17 17 = 0 ↔ s.cfg.coord = .homogeneous) ∧
        bits v.toNat 19 18 = 0 ∧
        (s.cfg.p % 4 = 3 → bits v.toNat 21 20 = 0) ∧ (s.cfg.p % 8 = 5 → bits v.toNat 21 20 = 1) ∧
        (s.cfg.p % 8 = 1 → bits v.toNat 21 20 = 2) ∧
        (s.cfg.n % 4 = 3 → bits v.toNat 23 22 = 0) ∧ (s.cfg.n % 8 = 5 → bits v.toNat 23 22 = 1) ∧
        (s.cfg.n % 8 = 1 → bits v.toNat 23 22 = 2) ∧
        4 * bits v.toNat 31 24 = s.cfg.bufBytes) ∧
      (off = 0x008 → 2 ^ (bits v.toNat 15 0 - 1) ≤ s.cfg.p ∧ s.cfg.p < 2 ^ bits v.toNat 15 0 ∧
        2 ^ (bits v.toNat 31 16 - 1) ≤ s.cfg.n ∧ s.cfg.n < 2 ^ bits v.toNat 31 16)

/-- When the next input is the reset input, or a 32-bit write to CTRL with bit 1 set (busy or not, whatever its other
bits), the next state has every field register 0, every point register and table entry O, CF 0, every buffer byte 0,
BUFLEN 0, nothing in flight, CMD 0, IE, DONE, ERR, ERRS and OVR 0, hidden state cleared and at most T_INIT cycles of
initialisation, during which alone BUSY is 1; SRST reads 0; the build is unchanged. Formalises R300, R301. -/
def Obligations.ResetValues : Prop :=
  ∀ (s : State) (v : BitVec 32) (rest : List Input),
    (s.inputs = .reset :: rest ∨
      (s.inputs = .write 4 (s.cfg.baseAddr + 0x00C) v :: rest ∧ v.getLsbD 1 = true)) →
    ∃ t, step s = .next t ∧ t.cfg = s.cfg ∧ (∀ i, t.readFR i = 0) ∧ (∀ i, t.readPR i = .identity) ∧
      (∀ i, t.readAR i = .identity) ∧ (∀ k j (h : j < 8), (t.readLT k)[j] = .identity) ∧ t.cf = false ∧
      (∀ i, t.bufByte i = 0) ∧ t.buflen = 0 ∧ t.inflight = none ∧ t.cmd = 0 ∧ t.ie = false ∧ t.done = false ∧
      t.err = .ok ∧ t.errs = false ∧ t.ovr = false ∧ t.hidden = .cleared ∧ t.init ≤ s.cfg.tInit ∧ t.inputs = rest ∧
      (t.busy = true ↔ 0 < t.init) ∧ t.ctrlWord.getLsbD 1 = false

/-- A 32-bit write of v: to CTRL with bit 1 clear sets IE to bit 0; to STATUS clears DONE, ERRS and OVR where bits 1,
8 and 9 of v are 1 and leaves the rest; to BUFLEN while idle stores bits 7:0; to buffer word i while idle stores bits
8j+7 : 8j at byte 4i+j and leaves every other byte; to ID, PARAM0 or PARAM1 changes nothing. Each answers OK and
changes nothing else. From 20_memory.md section 2 (R54, R55); 10_state.md section 7 (R35); 20_memory.md section 4
(R60). -/
def Obligations.ControlAndBufferWrites : Prop :=
  ∀ (s : State) (off : Nat) (v : BitVec 32) (rest : List Input), s.Inv →
    s.inputs = .write 4 (s.cfg.baseAddr + off) v :: rest →
    let s' := { s with inputs := rest, resp := some { error := false, data := none } }
    (off = 0x00C → v.getLsbD 1 = false → step s = .next { s' with ie := v.getLsbD 0 }) ∧
    (off = 0x010 → step s = .next
      { s' with done := s.done && !v.getLsbD 1, errs := s.errs && !v.getLsbD 8, ovr := s.ovr && !v.getLsbD 9 }) ∧
    (off = 0x018 → s.busy = false → ∃ b : BitVec 8, b.toNat = v.toNat % 2 ^ 8 ∧ step s = .next { s' with buflen := b }) ∧
    (∀ i, i < s.cfg.bufBytes / 4 → off = 0x100 + 4 * i → s.busy = false →
      ∃ buf', step s = .next { s' with buf := buf' } ∧
        (∀ j, j < 4 → (Memory.read buf' (4 * i + j)).toNat = v.toNat / 2 ^ (8 * j) % 2 ^ 8) ∧
        (∀ k, k < 4 * i ∨ 4 * i + 4 ≤ k → Memory.read buf' k = s.bufByte k)) ∧
    (off = 0x000 ∨ off = 0x004 ∨ off = 0x008 → step s = .next s')

/-- An access in the window that is not of 4 bytes, or not at a multiple of 4, or at an offset from 0x01C to 0x0FC or
at or beyond 0x100 + BUF_BYTES, answers an error response, a read with data 0, and changes no state; reads and writes
alike, busy or not. Formalises R52, R53. -/
def Obligations.UnmappedAccessesAnswerErrors : Prop :=
  ∀ (s : State) (bytes off : Nat) (v : BitVec 32) (rest : List Input), s.cfg.Legal → off < 0x200 →
    (bytes ≠ 4 ∨ off % 4 ≠ 0 ∨ (0x01C ≤ off ∧ off < 0x100) ∨ 0x100 + s.cfg.bufBytes ≤ off) →
    (s.inputs = .read bytes (s.cfg.baseAddr + off) :: rest →
      step s = .next { s with inputs := rest, resp := some { error := true, data := some 0 } }) ∧
    (s.inputs = .write bytes (s.cfg.baseAddr + off) v :: rest →
      step s = .next { s with inputs := rest, resp := some { error := true, data := none } })

/-- Whatever the width and address, busy or not, a step that is a host read changes nothing but the response, the
order of inputs and the model's counter of free values. From 20_memory.md section 2 (R55). -/
def Obligations.HostReadsHaveNoSideEffect : Prop :=
  ∀ (s : State) (bytes addr : Nat) (rest : List Input), s.inputs = .read bytes addr :: rest →
    ∃ r k, step s = .next { s with inputs := rest, resp := r, draws := k }

/-- IRQ is DONE and IE. A completion with IE set raises it; a write of 1 to STATUS.DONE, a write of 0 to CTRL.IE, the
acceptance of a command, and reset, by the reset input or by a write to CTRL with bit 1 set whatever its bit 0, each
leave it clear. From 60_exceptions.md section 3 (R282); 70_reset_and_hazards.md section 1 (R301). -/
def Obligations.InterruptFollowsDoneAndEnable : Prop :=
  ∀ (s : State) (v : BitVec 32) (rest : List Input),
    (s.irq = true ↔ s.done = true ∧ s.ie = true) ∧
    (∀ w, s.inflight = some w → s.ie = true → ∃ t, coreStep s = .next t ∧ t.irq = true) ∧
    (s.inputs = .write 4 (s.cfg.baseAddr + 0x010) v :: rest → v.getLsbD 1 = true →
      ∃ t, step s = .next t ∧ t.irq = false) ∧
    (s.inputs = .write 4 (s.cfg.baseAddr + 0x00C) v :: rest → v.getLsbD 0 = false →
      ∃ t, step s = .next t ∧ t.irq = false) ∧
    (s.inputs = .write 4 (s.cfg.baseAddr + 0x014) v :: rest → s.busy = false →
      ∃ t, step s = .next t ∧ t.irq = false) ∧
    (s.inputs = .reset :: rest → ∃ t, step s = .next t ∧ t.irq = false) ∧
    (s.inputs = .write 4 (s.cfg.baseAddr + 0x00C) v :: rest → v.getLsbD 1 = true →
      ∃ t, step s = .next t ∧ t.irq = false)

/-- With nothing in flight, a step of the core changes at most the initialisation count, by one down to 0: no DONE, no
error, no register; once it is 0, BUSY reads 0 and the core's steps change nothing. That one step of the core lowers
the count by exactly one, as one cycle, is the model's own choice (DESIGN CHOICE, log entry 8). From
70_reset_and_hazards.md section 1 (R302); 60_exceptions.md section 4 (R290). -/
def Obligations.IdleCoreKeepsState : Prop :=
  ∀ s : State, s.inflight = none →
    coreStep s = .next { s with init := s.init - 1 } ∧ (s.busy = true ↔ 0 < s.init) ∧
      (s.init = 0 → coreStep s = .next s)

/-- For every legal build and words below the modulus, Montgomery reduction of the double-width product, with one
conditional subtraction of the modulus, is the word FMUL writes: an implementation may compute it so. From 40_field.md
section 2 (R115). -/
def Obligations.MontgomeryReductionGivesTheProduct : Prop :=
  ∀ (c : Params) (d : Domain) (x y : Nat), c.Legal → x < c.modulus d → y < c.modulus d →
    c.redc (c.modulus d) (x * y) = c.montMul (c.modulus d) x y
end

