-- ==== Sys2Proof/Laws/Modular.lean ====
section
/-!
SUPPORT. Arithmetic modulo `m`: the power, inverse and subtraction functions against their mathematical meaning, and
the Montgomery maps.
-/

namespace Sys2Proof

theorem lt_two_pow_nbits (e : Nat) : e < 2 ^ nbits e := Nat.lt_log2_self

theorem powModFuel_eq {m fuel b e : Nat} (h : e < 2 ^ fuel) : powModFuel m fuel b e = b ^ e % m := by
  induction fuel generalizing b e with
  | zero =>
    have : e = 0 := by omega
    simp [powModFuel, this]
  | succ fuel ih =>
    have hhalf : e / 2 < 2 ^ fuel := by rw [Nat.pow_succ] at h; omega
    have hsq : ∀ k, (b * b % m) ^ k % m = (b ^ (2 * k)) % m := by
      intro k
      rw [← Nat.pow_mod, ← pow_two, pow_mul]
    simp only [powModFuel]
    rw [ih hhalf, hsq]
    split
    · next hodd =>
      have he : e = 2 * (e / 2) + 1 := by omega
      conv_rhs => rw [he, Nat.pow_succ, Nat.mul_comm]
      rw [Nat.mul_mod, Nat.mod_mod, ← Nat.mul_mod]
    · next hodd =>
      have he : 2 * (e / 2) = e := by omega
      rw [he]

/-- `powMod` is the power modulo `m`. -/
theorem powMod_eq (m b e : Nat) : powMod m b e = b ^ e % m := powModFuel_eq (lt_two_pow_nbits e)

theorem powMod_lt {m : Nat} (hm : 0 < m) (b e : Nat) : powMod m b e < m := by
  rw [powMod_eq]; exact Nat.mod_lt _ hm

theorem invMod_lt {m : Nat} (hm : 0 < m) (x : Nat) : invMod m x < m := powMod_lt hm x _

theorem powMod_cast (m b e : Nat) : ((powMod m b e : Nat) : ZMod m) = (b : ZMod m) ^ e := by
  rw [powMod_eq, ZMod.natCast_mod, Nat.cast_pow]

/-- The computed inverse is the inverse of the field. -/
theorem invMod_cast {m : Nat} (hp : Nat.Prime m) (h2 : 2 < m) (x : Nat) :
    ((invMod m x : Nat) : ZMod m) = (x : ZMod m)⁻¹ := by
  have := Fact.mk hp
  rw [invMod, powMod_cast]
  by_cases hx : (x : ZMod m) = 0
  · rw [hx, inv_zero, zero_pow (by omega)]
  · apply eq_inv_of_mul_eq_one_left
    rw [← pow_succ, show m - 2 + 1 = m - 1 by omega]
    exact ZMod.pow_card_sub_one_eq_one hx

/-- `inv_m(x)` is the inverse of 00_scope.md R11. -/
theorem invMod_mul {m x : Nat} (hp : Nat.Prime m) (h2 : 2 < m) (hx : x % m ≠ 0) : x * invMod m x % m = 1 := by
  have := Fact.mk hp
  have hx' : (x : ZMod m) ≠ 0 := by
    rw [Ne, ZMod.natCast_eq_zero_iff]
    exact fun h => hx (Nat.mod_eq_zero_of_dvd h)
  have : ((x * invMod m x : Nat) : ZMod m) = (1 : Nat) := by
    rw [Nat.cast_mul, invMod_cast hp h2, mul_inv_cancel₀ hx', Nat.cast_one]
  rw [(ZMod.natCast_eq_natCast_iff' _ _ _).1 this]
  exact Nat.mod_eq_of_lt (by omega)

theorem subMod_lt {m : Nat} (hm : 0 < m) (x y : Nat) : subMod m x y < m := Nat.mod_lt _ hm

theorem subMod_cast {m : Nat} (hm : 0 < m) (x y : Nat) :
    ((subMod m x y : Nat) : ZMod m) = (x : ZMod m) - (y : ZMod m) := by
  have hle : y % m ≤ m := (Nat.mod_lt y hm).le
  rw [subMod, ZMod.natCast_mod, Nat.cast_add, Nat.cast_sub hle, ZMod.natCast_self, ZMod.natCast_mod]
  ring

/-- Two integers below `m` that are one residue are equal. -/
theorem eq_of_cast_eq {m x y : Nat} (hx : x < m) (hy : y < m) (h : (x : ZMod m) = (y : ZMod m)) : x = y := by
  have := (ZMod.natCast_eq_natCast_iff' _ _ _).1 h
  rwa [Nat.mod_eq_of_lt hx, Nat.mod_eq_of_lt hy] at this

namespace Params

theorem modulus_prime {c : Params} (h : c.Legal) (d : Domain) : Nat.Prime (c.modulus d) := by
  cases d
  · exact h.pPrime
  · exact h.nPrime

theorem two_lt_modulus {c : Params} (h : c.Legal) (d : Domain) : 2 < c.modulus d := by
  cases d with
  | field => exact Nat.lt_trans (by omega) h.pAbove3
  | scalar =>
    have h2 := h.nPrime.two_le
    have := h.nOdd
    show 2 < c.n
    omega

theorem modulus_pos {c : Params} (h : c.Legal) (d : Domain) : 0 < c.modulus d :=
  Nat.lt_trans (by omega) (two_lt_modulus h d)

theorem modulus_odd {c : Params} (h : c.Legal) (d : Domain) : c.modulus d % 2 = 1 :=
  (Nat.Prime.eq_two_or_odd (modulus_prime h d)).resolve_left (Nat.ne_of_gt (two_lt_modulus h d))

/-- `R` is prime to the moduli (00_scope.md R12). -/
theorem radix_coprime {c : Params} (h : c.Legal) (d : Domain) : Nat.Coprime c.radix (c.modulus d) := by
  apply Nat.Coprime.pow_left
  rw [Nat.coprime_two_left, Nat.odd_iff]
  exact modulus_odd h d

theorem radix_cast_ne_zero {c : Params} (h : c.Legal) (d : Domain) : ((c.radix : Nat) : ZMod (c.modulus d)) ≠ 0 := by
  rw [Ne, ZMod.natCast_eq_zero_iff]
  intro hdvd
  have := Nat.Coprime.eq_one_of_dvd (radix_coprime h d).symm hdvd
  have := two_lt_modulus h d
  omega

theorem mont_lt {c : Params} {m : Nat} (hm : 0 < m) (v : Nat) : c.mont m v < m := Nat.mod_lt _ hm

theorem val_lt {c : Params} {m : Nat} (hm : 0 < m) (w : Nat) : c.val m w < m := Nat.mod_lt _ hm

theorem mont_cast (c : Params) (m v : Nat) : ((c.mont m v : Nat) : ZMod m) = (v : ZMod m) * (c.radix : ZMod m) := by
  rw [mont, ZMod.natCast_mod, Nat.cast_mul]

theorem val_cast {c : Params} (h : c.Legal) (d : Domain) (w : Nat) :
    ((c.val (c.modulus d) w : Nat) : ZMod (c.modulus d)) = (w : ZMod (c.modulus d)) * (c.radix : ZMod _)⁻¹ := by
  rw [val, ZMod.natCast_mod, Nat.cast_mul, invMod_cast (modulus_prime h d) (two_lt_modulus h d)]

theorem montMul_cast {c : Params} (h : c.Legal) (d : Domain) (x y : Nat) :
    ((c.montMul (c.modulus d) x y : Nat) : ZMod (c.modulus d)) =
      (x : ZMod (c.modulus d)) * (y : ZMod _) * (c.radix : ZMod _)⁻¹ := by
  rw [montMul, ZMod.natCast_mod, Nat.cast_mul, Nat.cast_mul, invMod_cast (modulus_prime h d) (two_lt_modulus h d)]

/-- `val` undoes `mont` (00_scope.md R12). -/
theorem val_mont {c : Params} (h : c.Legal) (d : Domain) {v : Nat} (hv : v < c.modulus d) :
    c.val (c.modulus d) (c.mont (c.modulus d) v) = v := by
  have := Fact.mk (modulus_prime h d)
  apply eq_of_cast_eq (val_lt (modulus_pos h d) _) hv
  rw [val_cast h, mont_cast, mul_assoc, mul_inv_cancel₀ (radix_cast_ne_zero h d), mul_one]

/-- `mont` undoes `val` (00_scope.md R12). -/
theorem mont_val {c : Params} (h : c.Legal) (d : Domain) {w : Nat} (hw : w < c.modulus d) :
    c.mont (c.modulus d) (c.val (c.modulus d) w) = w := by
  have := Fact.mk (modulus_prime h d)
  apply eq_of_cast_eq (mont_lt (modulus_pos h d) _) hw
  rw [mont_cast, val_cast h, mul_assoc, inv_mul_cancel₀ (radix_cast_ne_zero h d), mul_one]

/-- A residue fits its byte form. -/
theorem modulus_le_pow_fb (c : Params) (d : Domain) : c.modulus d < 256 ^ c.fb d := by
  have h := lt_two_pow_nbits (c.modulus d)
  refine Nat.lt_of_lt_of_le h ?_
  rw [show (256 : Nat) = 2 ^ 8 from rfl, ← Nat.pow_mul]
  apply Nat.pow_le_pow_right (by omega)
  unfold fb ceilDiv
  omega

end Params

end Sys2Proof
end

