-- ==== Sys2Proof/Laws/Group.lean ====
section
/-!
SUPPORT. The curve group of the model against Mathlib's group of nonsingular points of a Weierstrass curve: on points of
the curve the model's addition is the group's, so the group's laws hold of it.
-/

namespace Sys2Proof.Params

open WeierstrassCurve

/-- The curve `y^2 = x^3 + a*x + b` over the field of `p` elements. -/
def weierstrass (c : Params) : WeierstrassCurve.Affine (ZMod c.p) := ⟨0, 0, 0, c.a, c.b⟩

theorem negY_weierstrass (c : Params) (x y : ZMod c.p) : c.weierstrass.negY x y = -y := by
  simp [weierstrass, Affine.negY]

theorem onCurve_affine_iff {c : Params} {x y : Nat} :
    c.onCurve (.affine x y) = true ↔ x < c.p ∧ y < c.p ∧ c.weierstrass.Equation (x : ZMod c.p) (y : ZMod c.p) := by
  have heq : c.weierstrass.Equation (x : ZMod c.p) (y : ZMod c.p) ↔ y ^ 2 % c.p = c.curveRhs x := by
    rw [Affine.equation_iff, curveRhs, ← ZMod.natCast_eq_natCast_iff']
    simp [weierstrass]
  simp only [onCurve, onCurveXY, Bool.and_eq_true, decide_eq_true_eq, heq, and_assoc]

theorem nonsingular_of_equation {c : Params} (h : c.Legal) {x y : ZMod c.p} (he : c.weierstrass.Equation x y) :
    c.weierstrass.Nonsingular x y := by
  have := Fact.mk h.pPrime
  refine (Affine.equation_iff_nonsingular_of_Δ_ne_zero ?_).1 he
  have hd : c.weierstrass.Δ = -16 * (((4 * c.a ^ 3 + 27 * c.b ^ 2 : Nat)) : ZMod c.p) := by
    simp only [weierstrass, WeierstrassCurve.Δ, WeierstrassCurve.b₂, WeierstrassCurve.b₄, WeierstrassCurve.b₆,
      WeierstrassCurve.b₈]
    push_cast
    ring
  rw [hd]
  have h2 : (2 : ZMod c.p) ≠ 0 := by
    have : ((2 : Nat) : ZMod c.p) ≠ 0 := by
      rw [Ne, ZMod.natCast_eq_zero_iff]
      exact fun hdvd => absurd (Nat.le_of_dvd (by omega) hdvd) (by have := h.pAbove3; omega)
    simpa using this
  have h16 : (-16 : ZMod c.p) ≠ 0 := by
    have : (-16 : ZMod c.p) = -(2 ^ 4) := by norm_num
    rw [this]
    exact neg_ne_zero.2 (pow_ne_zero 4 h2)
  refine mul_ne_zero h16 ?_
  rw [Ne, ZMod.natCast_eq_zero_iff]
  exact fun hdvd => h.nonsingular (Nat.mod_eq_zero_of_dvd hdvd)

open Classical in
/-- A point of the model as a point of Mathlib's curve; the identity where it is no point of the curve. -/
noncomputable def toCurve (c : Params) : Point → c.weierstrass.Point
  | .identity => .zero
  | .affine x y =>
    if h : c.weierstrass.Nonsingular (x : ZMod c.p) (y : ZMod c.p) then .some _ _ h else .zero

theorem toCurve_affine {c : Params} (h : c.Legal) {x y : Nat} (ho : c.onCurve (.affine x y) = true) :
    ∃ hn, c.toCurve (.affine x y) = .some (x : ZMod c.p) (y : ZMod c.p) hn := by
  have hn := nonsingular_of_equation h (onCurve_affine_iff.1 ho).2.2
  exact ⟨hn, dif_pos hn⟩

/-- Points of the curve are determined by their images. -/
theorem toCurve_injective {c : Params} (h : c.Legal) {q r : Point} (hq : c.onCurve q = true) (hr : c.onCurve r = true)
    (he : c.toCurve q = c.toCurve r) : q = r := by
  cases q with
  | identity =>
    cases r with
    | identity => rfl
    | affine x y =>
      obtain ⟨hn, e⟩ := toCurve_affine h hr
      rw [e] at he
      exact Affine.Point.noConfusion rfl (heq_of_eq rfl) (heq_of_eq rfl) (heq_of_eq he)
  | affine x y =>
    obtain ⟨hn, e⟩ := toCurve_affine h hq
    cases r with
    | identity =>
      rw [e] at he
      exact Affine.Point.noConfusion rfl (heq_of_eq rfl) (heq_of_eq rfl) (heq_of_eq he)
    | affine x' y' =>
      obtain ⟨hn', e'⟩ := toCurve_affine h hr
      rw [e, e'] at he
      obtain ⟨hx, hy⟩ := Affine.Point.some.inj he
      have h1 := onCurve_affine_iff.1 hq
      have h2 := onCurve_affine_iff.1 hr
      rw [eq_of_cast_eq h1.1 h2.1 hx, eq_of_cast_eq h1.2.1 h2.2.1 hy]

theorem cast_eq_iff {m x y : Nat} (hx : x < m) (hy : y < m) : (x : ZMod m) = (y : ZMod m) ↔ x = y :=
  ⟨eq_of_cast_eq hx hy, fun h => by rw [h]⟩

theorem neg_cast {c : Params} {y : Nat} (hy : y < c.p) : (((c.p - y) % c.p : Nat) : ZMod c.p) = -(y : ZMod c.p) := by
  rw [ZMod.natCast_mod, Nat.cast_sub hy.le, ZMod.natCast_self, zero_sub]

theorem onCurve_neg {c : Params} (h : c.Legal) {q : Point} (hq : c.onCurve q = true) : c.onCurve (c.neg q) = true := by
  cases q with
  | identity => rfl
  | affine x y =>
    obtain ⟨hx, hy, he⟩ := onCurve_affine_iff.1 hq
    refine onCurve_affine_iff.2 ⟨hx, Nat.mod_lt _ h.pPrime.pos, ?_⟩
    rw [neg_cast hy, ← negY_weierstrass]
    exact (Affine.equation_neg _ _).2 he

theorem toCurve_neg {c : Params} (h : c.Legal) {q : Point} (hq : c.onCurve q = true) :
    c.toCurve (c.neg q) = -c.toCurve q := by
  cases q with
  | identity => exact (Affine.Point.neg_zero (W' := c.weierstrass)).symm
  | affine x y =>
    obtain ⟨hn, e⟩ := toCurve_affine h hq
    obtain ⟨hn', e'⟩ := toCurve_affine h (onCurve_neg h hq)
    have hy := (onCurve_affine_iff.1 hq).2.1
    rw [show c.neg (.affine x y) = .affine x ((c.p - y) % c.p) from rfl, e', e, Affine.Point.neg_some]
    congr 1
    rw [negY_weierstrass, neg_cast hy]

theorem slope_cast {c : Params} (h : c.Legal) [Fact (Nat.Prime c.p)] {x1 y1 x2 y2 : Nat}
    (h1 : c.onCurve (.affine x1 y1) = true) (h2 : c.onCurve (.affine x2 y2) = true)
    (hne : ¬(x1 = x2 ∧ (y1 + y2) % c.p = 0)) :
    ((c.slope x1 y1 x2 y2 : Nat) : ZMod c.p) = c.weierstrass.slope (x1 : ZMod c.p) x2 y1 y2 := by
  obtain ⟨hx1, hy1, he1⟩ := onCurve_affine_iff.1 h1
  obtain ⟨hx2, hy2, he2⟩ := onCurve_affine_iff.1 h2
  have hp2 : 2 < c.p := by have := h.pAbove3; omega
  unfold slope
  by_cases hx : x1 = x2
  · subst hx
    have hy : (y1 : ZMod c.p) ≠ c.weierstrass.negY (x1 : ZMod c.p) (y2 : ZMod c.p) := by
      rw [negY_weierstrass]
      intro hy
      refine hne ⟨rfl, ?_⟩
      have : ((y1 + y2 : Nat) : ZMod c.p) = 0 := by rw [Nat.cast_add, hy]; ring
      exact Nat.mod_eq_zero_of_dvd ((ZMod.natCast_eq_zero_iff _ _).1 this)
    rw [if_pos rfl, Affine.slope_of_Y_ne rfl hy, negY_weierstrass, ZMod.natCast_mod, Nat.cast_mul,
      invMod_cast h.pPrime hp2, div_eq_mul_inv]
    simp only [weierstrass]
    push_cast
    ring
  · have hx' : (x1 : ZMod c.p) ≠ (x2 : ZMod c.p) := fun he => hx (eq_of_cast_eq hx1 hx2 he)
    rw [if_neg hx, Affine.slope_of_X_ne hx', ZMod.natCast_mod, Nat.cast_mul, invMod_cast h.pPrime hp2,
      subMod_cast h.pPrime.pos, subMod_cast h.pPrime.pos, ← neg_sub (y1 : ZMod c.p), ← neg_sub (x1 : ZMod c.p),
      inv_neg, div_eq_mul_inv]
    ring

/-- On points of the curve the model's addition is the group's. -/
theorem add_spec {c : Params} (h : c.Legal) [Fact (Nat.Prime c.p)] {q r : Point} (hq : c.onCurve q = true)
    (hr : c.onCurve r = true) :
    c.onCurve (c.add q r) = true ∧ c.toCurve (c.add q r) = c.toCurve q + c.toCurve r := by
  cases q with
  | identity => exact ⟨hr, (zero_add (c.toCurve r)).symm⟩
  | affine x1 y1 =>
    cases r with
    | identity => exact ⟨hq, (add_zero (c.toCurve (.affine x1 y1))).symm⟩
    | affine x2 y2 =>
      obtain ⟨hx1, hy1, he1⟩ := onCurve_affine_iff.1 hq
      obtain ⟨hx2, hy2, he2⟩ := onCurve_affine_iff.1 hr
      obtain ⟨hn1, e1⟩ := toCurve_affine h hq
      obtain ⟨hn2, e2⟩ := toCurve_affine h hr
      rw [e1, e2]
      by_cases hcase : x1 = x2 ∧ (y1 + y2) % c.p = 0
      · have hid : c.add (.affine x1 y1) (.affine x2 y2) = .identity := by simp only [add, if_pos hcase]
        rw [hid]
        refine ⟨rfl, ?_⟩
        have hy : (y1 : ZMod c.p) = c.weierstrass.negY (x2 : ZMod c.p) (y2 : ZMod c.p) := by
          rw [negY_weierstrass, eq_neg_iff_add_eq_zero]
          have := (ZMod.natCast_eq_zero_iff _ _).2 (Nat.dvd_of_mod_eq_zero hcase.2)
          simpa using this
        exact (Affine.Point.add_of_Y_eq (by rw [hcase.1]) hy).symm
      · have hxy : ¬((x1 : ZMod c.p) = x2 ∧ (y1 : ZMod c.p) = c.weierstrass.negY (x2 : ZMod c.p) y2) := by
          rintro ⟨hx, hy⟩
          refine hcase ⟨eq_of_cast_eq hx1 hx2 hx, ?_⟩
          rw [negY_weierstrass] at hy
          have : ((y1 + y2 : Nat) : ZMod c.p) = 0 := by rw [Nat.cast_add, hy]; ring
          exact Nat.mod_eq_zero_of_dvd ((ZMod.natCast_eq_zero_iff _ _).1 this)
        have hs := slope_cast h hq hr hcase
        rw [Affine.Point.add_some hxy]
        have hadd : c.add (.affine x1 y1) (.affine x2 y2) =
            .affine (subMod c.p (c.slope x1 y1 x2 y2 ^ 2) (x1 + x2))
              (subMod c.p (c.slope x1 y1 x2 y2 * subMod c.p x1 (subMod c.p (c.slope x1 y1 x2 y2 ^ 2) (x1 + x2))) y1) := by
          simp only [add, if_neg hcase]
        have hpos := h.pPrime.pos
        have hX : ((subMod c.p (c.slope x1 y1 x2 y2 ^ 2) (x1 + x2) : Nat) : ZMod c.p) =
            c.weierstrass.addX (x1 : ZMod c.p) x2 (c.weierstrass.slope (x1 : ZMod c.p) x2 y1 y2) := by
          rw [subMod_cast hpos, Nat.cast_pow, Nat.cast_add, hs, Affine.addX]
          simp only [weierstrass]
          ring
        have hY : ((subMod c.p (c.slope x1 y1 x2 y2 * subMod c.p x1 (subMod c.p (c.slope x1 y1 x2 y2 ^ 2) (x1 + x2)))
            y1 : Nat) : ZMod c.p) =
            c.weierstrass.addY (x1 : ZMod c.p) x2 y1 (c.weierstrass.slope (x1 : ZMod c.p) x2 y1 y2) := by
          rw [subMod_cast hpos, Nat.cast_mul, subMod_cast hpos, hX, hs, Affine.addY, negY_weierstrass,
            Affine.negAddY]
          ring
        rw [hadd]
        have ho : c.onCurve (.affine (subMod c.p (c.slope x1 y1 x2 y2 ^ 2) (x1 + x2))
            (subMod c.p (c.slope x1 y1 x2 y2 * subMod c.p x1 (subMod c.p (c.slope x1 y1 x2 y2 ^ 2) (x1 + x2))) y1))
            = true := by
          refine onCurve_affine_iff.2 ⟨subMod_lt hpos _ _, subMod_lt hpos _ _, ?_⟩
          rw [hX, hY]
          exact Affine.equation_add he1 he2 hxy
        obtain ⟨hn, e⟩ := toCurve_affine h ho
        refine ⟨ho, ?_⟩
        rw [e]
        congr 1

theorem onCurve_add {c : Params} (h : c.Legal) {q r : Point} (hq : c.onCurve q = true) (hr : c.onCurve r = true) :
    c.onCurve (c.add q r) = true := by
  have := Fact.mk h.pPrime
  exact (add_spec h hq hr).1

theorem toCurve_add {c : Params} (h : c.Legal) [Fact (Nat.Prime c.p)] {q r : Point} (hq : c.onCurve q = true)
    (hr : c.onCurve r = true) : c.toCurve (c.add q r) = c.toCurve q + c.toCurve r := (add_spec h hq hr).2

theorem onCurve_nsmul {c : Params} (h : c.Legal) {q : Point} (hq : c.onCurve q = true) (k : Nat) :
    c.onCurve (c.nsmul k q) = true := by
  induction k with
  | zero => rfl
  | succ k ih => exact onCurve_add h ih hq

theorem toCurve_nsmul {c : Params} (h : c.Legal) [Fact (Nat.Prime c.p)] {q : Point} (hq : c.onCurve q = true)
    (k : Nat) : c.toCurve (c.nsmul k q) = k • c.toCurve q := by
  induction k with
  | zero => exact (zero_nsmul (c.toCurve q)).symm
  | succ k ih => rw [succ_nsmul, ← ih]; exact toCurve_add h (onCurve_nsmul h hq k) hq

end Sys2Proof.Params
end

