-- ==== Sys2Proof/Laws/Memory.lean ====
section
/-!
SUPPORT. The laws of the byte buffer: reading after writing, the canonical form, that equal contents are equal lists,
and byte strings.
-/

namespace Sys2Proof.Machine.Memory

theorem wfFrom_mono {lo lo' : Nat} {m : Memory} (h : lo' ≤ lo) (hm : wfFrom lo m = true) : wfFrom lo' m = true := by
  cases m with
  | nil => rfl
  | cons e rest =>
    simp only [wfFrom, Bool.and_eq_true, decide_eq_true_eq, bne_iff_ne] at hm ⊢
    exact ⟨⟨by omega, hm.1.2⟩, hm.2⟩

theorem read_below {lo i : Nat} {m : Memory} (hm : wfFrom lo m = true) (h : i < lo) : read m i = unlisted := by
  induction m generalizing lo with
  | nil => rfl
  | cons e rest ih =>
    simp only [wfFrom, Bool.and_eq_true, decide_eq_true_eq] at hm
    have hk : i ≠ e.1 := by omega
    simp only [read, hk, if_false]
    exact ih hm.2 (by omega)

theorem write_keeps_wfFrom {lo i : Nat} {m : Memory} (b : Byte) (hm : wfFrom lo m = true) (h : lo ≤ i) :
    wfFrom lo (write m i b) = true := by
  induction m generalizing lo with
  | nil => by_cases hb : b = unlisted <;> simp [write, hb, wfFrom, h]
  | cons e rest ih =>
    have hm' := hm
    simp only [wfFrom, Bool.and_eq_true, decide_eq_true_eq, bne_iff_ne] at hm'
    obtain ⟨⟨hlo, hv⟩, hrest⟩ := hm'
    simp only [write]
    split
    · split
      · exact hm
      · next hik hb => simp [wfFrom, h, hb, hv, hrest, Nat.succ_le_of_lt hik]
    · split
      · split
        · exact wfFrom_mono (by omega) hrest
        · next hik hb => subst hik; simp [wfFrom, h, hb, hrest]
      · next h1 h2 => simp [wfFrom, hlo, hv, ih hrest (by omega)]

/-- A write keeps the canonical form. -/
theorem write_keeps_wf {m : Memory} (i : Nat) (b : Byte) (hm : wf m = true) : wf (write m i b) = true :=
  write_keeps_wfFrom b hm (Nat.zero_le i)

theorem writeBytes_keeps_wf {m : Memory} (i : Nat) (bs : List Byte) (hm : wf m = true) :
    wf (writeBytes m i bs) = true := by
  induction bs generalizing m i with
  | nil => exact hm
  | cons b bs ih => exact ih _ (write_keeps_wf i b hm)

/-- Reading another index than the one written. -/
theorem read_write_other {m : Memory} {i j : Nat} (b : Byte) (h : j ≠ i) : read (write m i b) j = read m j := by
  induction m with
  | nil => by_cases hb : b = unlisted <;> simp [write, hb, read, h]
  | cons e rest ih =>
    simp only [write]
    split
    · split <;> simp [read, h]
    · split
      · next hk => subst hk; split <;> simp [read, h]
      · simp only [read, ih]

/-- Reading the index written. -/
theorem read_write_same {lo i : Nat} {m : Memory} (b : Byte) (hm : wfFrom lo m = true) : read (write m i b) i = b := by
  induction m generalizing lo with
  | nil => by_cases hb : b = unlisted <;> simp [write, hb, read]
  | cons e rest ih =>
    simp only [wfFrom, Bool.and_eq_true, decide_eq_true_eq] at hm
    simp only [write]
    split
    · next hik =>
      split
      · next hb =>
        have hk : i ≠ e.1 := by omega
        simp only [read, hk, if_false, hb]
        exact read_below hm.2 (by omega)
      · simp [read]
    · split
      · next hk =>
        split
        · next hb => subst hk; rw [hb]; exact read_below hm.2 (by omega)
        · simp [read]
      · next h1 h2 => simp only [read, h2, if_false]; exact ih hm.2

/-- Equal contents in canonical form are equal lists. -/
theorem eq_of_read_eq {lo : Nat} {m m' : Memory} (hm : wfFrom lo m = true) (hm' : wfFrom lo m' = true)
    (h : ∀ i, read m i = read m' i) : m = m' := by
  induction m generalizing lo m' with
  | nil =>
    cases m' with
    | nil => rfl
    | cons e rest =>
      simp only [wfFrom, Bool.and_eq_true, bne_iff_ne] at hm'
      have := h e.1
      simp only [read, if_true] at this
      exact absurd this.symm hm'.1.2
  | cons e rest ih =>
    simp only [wfFrom, Bool.and_eq_true, decide_eq_true_eq, bne_iff_ne] at hm
    cases m' with
    | nil =>
      have := h e.1
      simp only [read, if_true] at this
      exact absurd this hm.1.2
    | cons e' rest' =>
      simp only [wfFrom, Bool.and_eq_true, decide_eq_true_eq, bne_iff_ne] at hm'
      have hk : e.1 = e'.1 := by
        rcases Nat.lt_trichotomy e.1 e'.1 with hlt | heq | hlt
        · have := h e.1
          simp only [read, if_true, if_neg (Nat.ne_of_lt hlt)] at this
          rw [read_below hm'.2 (by omega)] at this
          exact absurd this hm.1.2
        · exact heq
        · have := h e'.1
          simp only [read, if_true, if_neg (Nat.ne_of_lt hlt)] at this
          rw [read_below hm.2 (by omega)] at this
          exact absurd this.symm hm'.1.2
      have hv : e.2 = e'.2 := by have := h e.1; simpa [read, hk] using this
      have hrest : rest = rest' := by
        refine ih (hk ▸ hm.2) hm'.2 fun i => ?_
        by_cases hi : i = e.1
        · subst hi; rw [read_below hm.2 (by omega), read_below hm'.2 (by omega)]
        · have := h i
          simpa [read, hi, hk ▸ hi] using this
      rw [hrest]; exact congrArg (· :: rest') (Prod.ext hk hv)

/-- Indices outside the bytes written read as before. -/
theorem read_writeBytes_outside {m : Memory} {i j : Nat} (bs : List Byte) (h : j < i ∨ i + bs.length ≤ j) :
    read (writeBytes m i bs) j = read m j := by
  induction bs generalizing m i with
  | nil => rfl
  | cons b bs ih =>
    simp only [List.length_cons] at h
    rw [writeBytes, ih (by omega), read_write_other b (by omega)]

/-- The bytes written read back. -/
theorem read_writeBytes_inside {m : Memory} {i : Nat} (bs : List Byte) (hm : wf m = true) (k : Nat)
    (hk : k < bs.length) : read (writeBytes m i bs) (i + k) = bs[k] := by
  induction bs generalizing m i k with
  | nil => exact absurd hk (Nat.not_lt_zero k)
  | cons b bs ih =>
    cases k with
    | zero =>
      rw [writeBytes, read_writeBytes_outside bs (Or.inl (by omega))]
      exact read_write_same b hm
    | succ k =>
      simp only [List.length_cons] at hk
      have := ih (m := write m i b) (i := i + 1) (write_keeps_wf i b hm) k (by omega)
      rw [writeBytes, show i + (k + 1) = i + 1 + k by omega, this]
      rfl

/-- The buffer after a reset is in canonical form. -/
theorem wf_resetOf (c : Params) : wf (State.resetOf c).buf = true := rfl

@[simp] theorem readBytes_length (m : Memory) (i len : Nat) : (readBytes m i len).length = len := by
  induction len generalizing i with
  | zero => rfl
  | succ len ih => simp [readBytes, ih]

theorem readBytes_getElem (m : Memory) (i len k : Nat) (h : k < (readBytes m i len).length) :
    (readBytes m i len)[k] = read m (i + k) := by
  induction len generalizing i k with
  | zero => exact absurd h (Nat.not_lt_zero k)
  | succ len ih =>
    cases k with
    | zero => rfl
    | succ k =>
      simp only [readBytes, List.getElem_cons_succ]
      rw [ih (i + 1) k (by simpa [readBytes] using h)]
      congr 1
      omega

/-- A byte string read back from where it was written. -/
theorem readBytes_writeBytes {m : Memory} (i : Nat) (bs : List Byte) (hm : wf m = true) :
    readBytes (writeBytes m i bs) i bs.length = bs := by
  apply List.ext_getElem (readBytes_length _ _ _)
  intro k h1 h2
  rw [readBytes_getElem _ _ _ _ h1, read_writeBytes_inside bs hm k h2]

/-- Two memories that agree on the bytes read give the same string. -/
theorem readBytes_congr {m m' : Memory} {i len : Nat} (h : ∀ j, i ≤ j → j < i + len → read m j = read m' j) :
    readBytes m i len = readBytes m' i len := by
  apply List.ext_getElem (by simp)
  intro k h1 h2
  rw [readBytes_getElem, readBytes_getElem]
  rw [readBytes_length] at h1
  exact h _ (by omega) (by omega)

end Sys2Proof.Machine.Memory

namespace Sys2Proof.Machine

@[simp] theorem toBytes_length (order : ByteOrder) (len v : Nat) : (toBytes order len v).length = len := by
  simp [toBytes]

theorem fromBigBytes_append (xs : List Byte) (b : Byte) : fromBigBytes (xs ++ [b]) = fromBigBytes xs * 256 + b.toNat := by
  simp [fromBigBytes, List.foldl_append]

theorem fromBigBytes_toBytes (len v : Nat) : fromBigBytes (toBytes .big len v) = v % 256 ^ len := by
  induction len generalizing v with
  | zero => simp [toBytes, fromBigBytes, Nat.mod_one]
  | succ len ih =>
    have hsplit : toBytes .big (len + 1) v = toBytes .big len (v / 256) ++ [BitVec.ofNat 8 v] := by
      simp only [toBytes, List.range_succ, List.map_append, List.map_cons, List.map_nil]
      congr 1
      · apply List.map_congr_left
        intro i hi
        rw [List.mem_range] at hi
        have h8 : (256 : Nat) = 2 ^ 8 := rfl
        rw [h8, Nat.div_div_eq_div_mul, ← Nat.pow_add]
        congr 3
        omega
      · simp
    rw [hsplit, fromBigBytes_append, ih, BitVec.toNat_ofNat, Nat.pow_succ 256, Nat.mul_comm (256 ^ len) 256, Nat.mod_mul]
    omega

theorem toBytes_little (len v : Nat) : toBytes .little len v = (toBytes .big len v).reverse := by
  apply List.ext_getElem (by simp)
  intro k h1 h2
  simp only [toBytes_length] at h1
  simp only [toBytes, List.getElem_map, List.getElem_range, List.getElem_reverse, List.length_map, List.length_range]
  congr 3
  omega

/-- `frombytes` is the inverse of `tobytes` (20_memory.md R59). -/
theorem fromBytes_toBytes (order : ByteOrder) (len v : Nat) : fromBytes order (toBytes order len v) = v % 256 ^ len := by
  cases order with
  | big => exact fromBigBytes_toBytes len v
  | little => rw [toBytes_little]; simp only [fromBytes, List.reverse_reverse]; exact fromBigBytes_toBytes len v

theorem fromBigBytes_lt (bs : List Byte) : fromBigBytes bs < 256 ^ bs.length := by
  induction bs using List.reverseRecOn with
  | nil => simp [fromBigBytes]
  | append_singleton xs b ih =>
    rw [fromBigBytes_append, List.length_append, List.length_singleton, Nat.pow_succ]
    have := b.isLt
    omega

theorem fromBytes_lt (order : ByteOrder) (bs : List Byte) : fromBytes order bs < 256 ^ bs.length := by
  cases order with
  | big => exact fromBigBytes_lt bs
  | little => simpa [fromBytes] using fromBigBytes_lt bs.reverse

end Sys2Proof.Machine
end

