-- ==== Sys2Proof/Laws/State.lean ====
section
/-!
SUPPORT. One lemma per field, and per accessor that the field does not touch, for every named update of the state, true
by unfolding once, so that no later proof unfolds a record update.
-/

namespace Sys2Proof.Machine.State

@[simp] theorem writeFR_cfg (s : State) (i : FReg) (w : Nat) : (s.writeFR i w).cfg = s.cfg := rfl
@[simp] theorem writeFR_fr (s : State) (i : FReg) (w : Nat) : (s.writeFR i w).fr = s.fr.set i w := rfl
@[simp] theorem writeFR_pr (s : State) (i : FReg) (w : Nat) : (s.writeFR i w).pr = s.pr := rfl
@[simp] theorem writeFR_ar (s : State) (i : FReg) (w : Nat) : (s.writeFR i w).ar = s.ar := rfl
@[simp] theorem writeFR_lt (s : State) (i : FReg) (w : Nat) : (s.writeFR i w).lt = s.lt := rfl
@[simp] theorem writeFR_cf (s : State) (i : FReg) (w : Nat) : (s.writeFR i w).cf = s.cf := rfl
@[simp] theorem writeFR_buf (s : State) (i : FReg) (w : Nat) : (s.writeFR i w).buf = s.buf := rfl
@[simp] theorem writeFR_buflen (s : State) (i : FReg) (w : Nat) : (s.writeFR i w).buflen = s.buflen := rfl
@[simp] theorem writeFR_inflight (s : State) (i : FReg) (w : Nat) : (s.writeFR i w).inflight = s.inflight := rfl
@[simp] theorem writeFR_cmd (s : State) (i : FReg) (w : Nat) : (s.writeFR i w).cmd = s.cmd := rfl
@[simp] theorem writeFR_ie (s : State) (i : FReg) (w : Nat) : (s.writeFR i w).ie = s.ie := rfl
@[simp] theorem writeFR_done (s : State) (i : FReg) (w : Nat) : (s.writeFR i w).done = s.done := rfl
@[simp] theorem writeFR_err (s : State) (i : FReg) (w : Nat) : (s.writeFR i w).err = s.err := rfl
@[simp] theorem writeFR_errs (s : State) (i : FReg) (w : Nat) : (s.writeFR i w).errs = s.errs := rfl
@[simp] theorem writeFR_ovr (s : State) (i : FReg) (w : Nat) : (s.writeFR i w).ovr = s.ovr := rfl
@[simp] theorem writeFR_init (s : State) (i : FReg) (w : Nat) : (s.writeFR i w).init = s.init := rfl
@[simp] theorem writeFR_hidden (s : State) (i : FReg) (w : Nat) : (s.writeFR i w).hidden = s.hidden := rfl
@[simp] theorem writeFR_draws (s : State) (i : FReg) (w : Nat) : (s.writeFR i w).draws = s.draws := rfl
@[simp] theorem writeFR_inputs (s : State) (i : FReg) (w : Nat) : (s.writeFR i w).inputs = s.inputs := rfl
@[simp] theorem writeFR_resp (s : State) (i : FReg) (w : Nat) : (s.writeFR i w).resp = s.resp := rfl
@[simp] theorem writeFR_readPR (s : State) (i : FReg) (w : Nat) (j : PReg) : (s.writeFR i w).readPR j = s.readPR j := rfl
@[simp] theorem writeFR_readAR (s : State) (i : FReg) (w : Nat) (j : AReg) : (s.writeFR i w).readAR j = s.readAR j := rfl
@[simp] theorem writeFR_readLT (s : State) (i : FReg) (w : Nat) (j : TReg) : (s.writeFR i w).readLT j = s.readLT j := rfl
@[simp] theorem writeFR_bufByte (s : State) (i : FReg) (w : Nat) (j : Nat) : (s.writeFR i w).bufByte j = s.bufByte j := rfl
@[simp] theorem writeFR_bufBytes (s : State) (i : FReg) (w : Nat) (j len : Nat) : (s.writeFR i w).bufBytes j len = s.bufBytes j len := rfl
@[simp] theorem writeFR_modulus (s : State) (i : FReg) (w : Nat) (d : Domain) : (s.writeFR i w).modulus d = s.modulus d := rfl
@[simp] theorem writeFR_busy (s : State) (i : FReg) (w : Nat) : (s.writeFR i w).busy = s.busy := rfl
@[simp] theorem writeFR_bufValue (s : State) (i : FReg) (w : Nat) (d : Domain) (j : Nat) : (s.writeFR i w).bufValue d j = s.bufValue d j := rfl
@[simp] theorem writeFR_valueBytes (s : State) (i : FReg) (w : Nat) (d : Domain) (v : Nat) : (s.writeFR i w).valueBytes d v = s.valueBytes d v := rfl

@[simp] theorem writePR_cfg (s : State) (i : PReg) (q : Point) : (s.writePR i q).cfg = s.cfg := rfl
@[simp] theorem writePR_fr (s : State) (i : PReg) (q : Point) : (s.writePR i q).fr = s.fr := rfl
@[simp] theorem writePR_pr (s : State) (i : PReg) (q : Point) : (s.writePR i q).pr = s.pr.set i q := rfl
@[simp] theorem writePR_ar (s : State) (i : PReg) (q : Point) : (s.writePR i q).ar = s.ar := rfl
@[simp] theorem writePR_lt (s : State) (i : PReg) (q : Point) : (s.writePR i q).lt = s.lt := rfl
@[simp] theorem writePR_cf (s : State) (i : PReg) (q : Point) : (s.writePR i q).cf = s.cf := rfl
@[simp] theorem writePR_buf (s : State) (i : PReg) (q : Point) : (s.writePR i q).buf = s.buf := rfl
@[simp] theorem writePR_buflen (s : State) (i : PReg) (q : Point) : (s.writePR i q).buflen = s.buflen := rfl
@[simp] theorem writePR_inflight (s : State) (i : PReg) (q : Point) : (s.writePR i q).inflight = s.inflight := rfl
@[simp] theorem writePR_cmd (s : State) (i : PReg) (q : Point) : (s.writePR i q).cmd = s.cmd := rfl
@[simp] theorem writePR_ie (s : State) (i : PReg) (q : Point) : (s.writePR i q).ie = s.ie := rfl
@[simp] theorem writePR_done (s : State) (i : PReg) (q : Point) : (s.writePR i q).done = s.done := rfl
@[simp] theorem writePR_err (s : State) (i : PReg) (q : Point) : (s.writePR i q).err = s.err := rfl
@[simp] theorem writePR_errs (s : State) (i : PReg) (q : Point) : (s.writePR i q).errs = s.errs := rfl
@[simp] theorem writePR_ovr (s : State) (i : PReg) (q : Point) : (s.writePR i q).ovr = s.ovr := rfl
@[simp] theorem writePR_init (s : State) (i : PReg) (q : Point) : (s.writePR i q).init = s.init := rfl
@[simp] theorem writePR_hidden (s : State) (i : PReg) (q : Point) : (s.writePR i q).hidden = s.hidden := rfl
@[simp] theorem writePR_draws (s : State) (i : PReg) (q : Point) : (s.writePR i q).draws = s.draws := rfl
@[simp] theorem writePR_inputs (s : State) (i : PReg) (q : Point) : (s.writePR i q).inputs = s.inputs := rfl
@[simp] theorem writePR_resp (s : State) (i : PReg) (q : Point) : (s.writePR i q).resp = s.resp := rfl
@[simp] theorem writePR_readFR (s : State) (i : PReg) (q : Point) (j : FReg) : (s.writePR i q).readFR j = s.readFR j := rfl
@[simp] theorem writePR_readAR (s : State) (i : PReg) (q : Point) (j : AReg) : (s.writePR i q).readAR j = s.readAR j := rfl
@[simp] theorem writePR_readLT (s : State) (i : PReg) (q : Point) (j : TReg) : (s.writePR i q).readLT j = s.readLT j := rfl
@[simp] theorem writePR_bufByte (s : State) (i : PReg) (q : Point) (j : Nat) : (s.writePR i q).bufByte j = s.bufByte j := rfl
@[simp] theorem writePR_bufBytes (s : State) (i : PReg) (q : Point) (j len : Nat) : (s.writePR i q).bufBytes j len = s.bufBytes j len := rfl
@[simp] theorem writePR_modulus (s : State) (i : PReg) (q : Point) (d : Domain) : (s.writePR i q).modulus d = s.modulus d := rfl
@[simp] theorem writePR_value (s : State) (i : PReg) (q : Point) (d : Domain) (j : FReg) : (s.writePR i q).value d j = s.value d j := rfl
@[simp] theorem writePR_busy (s : State) (i : PReg) (q : Point) : (s.writePR i q).busy = s.busy := rfl
@[simp] theorem writePR_bufValue (s : State) (i : PReg) (q : Point) (d : Domain) (j : Nat) : (s.writePR i q).bufValue d j = s.bufValue d j := rfl
@[simp] theorem writePR_valueBytes (s : State) (i : PReg) (q : Point) (d : Domain) (v : Nat) : (s.writePR i q).valueBytes d v = s.valueBytes d v := rfl

@[simp] theorem writeAR_cfg (s : State) (i : AReg) (q : Point) : (s.writeAR i q).cfg = s.cfg := rfl
@[simp] theorem writeAR_fr (s : State) (i : AReg) (q : Point) : (s.writeAR i q).fr = s.fr := rfl
@[simp] theorem writeAR_pr (s : State) (i : AReg) (q : Point) : (s.writeAR i q).pr = s.pr := rfl
@[simp] theorem writeAR_ar (s : State) (i : AReg) (q : Point) : (s.writeAR i q).ar = s.ar.set i q := rfl
@[simp] theorem writeAR_lt (s : State) (i : AReg) (q : Point) : (s.writeAR i q).lt = s.lt := rfl
@[simp] theorem writeAR_cf (s : State) (i : AReg) (q : Point) : (s.writeAR i q).cf = s.cf := rfl
@[simp] theorem writeAR_buf (s : State) (i : AReg) (q : Point) : (s.writeAR i q).buf = s.buf := rfl
@[simp] theorem writeAR_buflen (s : State) (i : AReg) (q : Point) : (s.writeAR i q).buflen = s.buflen := rfl
@[simp] theorem writeAR_inflight (s : State) (i : AReg) (q : Point) : (s.writeAR i q).inflight = s.inflight := rfl
@[simp] theorem writeAR_cmd (s : State) (i : AReg) (q : Point) : (s.writeAR i q).cmd = s.cmd := rfl
@[simp] theorem writeAR_ie (s : State) (i : AReg) (q : Point) : (s.writeAR i q).ie = s.ie := rfl
@[simp] theorem writeAR_done (s : State) (i : AReg) (q : Point) : (s.writeAR i q).done = s.done := rfl
@[simp] theorem writeAR_err (s : State) (i : AReg) (q : Point) : (s.writeAR i q).err = s.err := rfl
@[simp] theorem writeAR_errs (s : State) (i : AReg) (q : Point) : (s.writeAR i q).errs = s.errs := rfl
@[simp] theorem writeAR_ovr (s : State) (i : AReg) (q : Point) : (s.writeAR i q).ovr = s.ovr := rfl
@[simp] theorem writeAR_init (s : State) (i : AReg) (q : Point) : (s.writeAR i q).init = s.init := rfl
@[simp] theorem writeAR_hidden (s : State) (i : AReg) (q : Point) : (s.writeAR i q).hidden = s.hidden := rfl
@[simp] theorem writeAR_draws (s : State) (i : AReg) (q : Point) : (s.writeAR i q).draws = s.draws := rfl
@[simp] theorem writeAR_inputs (s : State) (i : AReg) (q : Point) : (s.writeAR i q).inputs = s.inputs := rfl
@[simp] theorem writeAR_resp (s : State) (i : AReg) (q : Point) : (s.writeAR i q).resp = s.resp := rfl
@[simp] theorem writeAR_readFR (s : State) (i : AReg) (q : Point) (j : FReg) : (s.writeAR i q).readFR j = s.readFR j := rfl
@[simp] theorem writeAR_readPR (s : State) (i : AReg) (q : Point) (j : PReg) : (s.writeAR i q).readPR j = s.readPR j := rfl
@[simp] theorem writeAR_readLT (s : State) (i : AReg) (q : Point) (j : TReg) : (s.writeAR i q).readLT j = s.readLT j := rfl
@[simp] theorem writeAR_bufByte (s : State) (i : AReg) (q : Point) (j : Nat) : (s.writeAR i q).bufByte j = s.bufByte j := rfl
@[simp] theorem writeAR_bufBytes (s : State) (i : AReg) (q : Point) (j len : Nat) : (s.writeAR i q).bufBytes j len = s.bufBytes j len := rfl
@[simp] theorem writeAR_modulus (s : State) (i : AReg) (q : Point) (d : Domain) : (s.writeAR i q).modulus d = s.modulus d := rfl
@[simp] theorem writeAR_value (s : State) (i : AReg) (q : Point) (d : Domain) (j : FReg) : (s.writeAR i q).value d j = s.value d j := rfl
@[simp] theorem writeAR_busy (s : State) (i : AReg) (q : Point) : (s.writeAR i q).busy = s.busy := rfl
@[simp] theorem writeAR_bufValue (s : State) (i : AReg) (q : Point) (d : Domain) (j : Nat) : (s.writeAR i q).bufValue d j = s.bufValue d j := rfl
@[simp] theorem writeAR_valueBytes (s : State) (i : AReg) (q : Point) (d : Domain) (v : Nat) : (s.writeAR i q).valueBytes d v = s.valueBytes d v := rfl

@[simp] theorem writeLT_cfg (s : State) (i : TReg) (q : Vector Point 8) : (s.writeLT i q).cfg = s.cfg := rfl
@[simp] theorem writeLT_fr (s : State) (i : TReg) (q : Vector Point 8) : (s.writeLT i q).fr = s.fr := rfl
@[simp] theorem writeLT_pr (s : State) (i : TReg) (q : Vector Point 8) : (s.writeLT i q).pr = s.pr := rfl
@[simp] theorem writeLT_ar (s : State) (i : TReg) (q : Vector Point 8) : (s.writeLT i q).ar = s.ar := rfl
@[simp] theorem writeLT_lt (s : State) (i : TReg) (q : Vector Point 8) : (s.writeLT i q).lt = s.lt.set i q := rfl
@[simp] theorem writeLT_cf (s : State) (i : TReg) (q : Vector Point 8) : (s.writeLT i q).cf = s.cf := rfl
@[simp] theorem writeLT_buf (s : State) (i : TReg) (q : Vector Point 8) : (s.writeLT i q).buf = s.buf := rfl
@[simp] theorem writeLT_buflen (s : State) (i : TReg) (q : Vector Point 8) : (s.writeLT i q).buflen = s.buflen := rfl
@[simp] theorem writeLT_inflight (s : State) (i : TReg) (q : Vector Point 8) : (s.writeLT i q).inflight = s.inflight := rfl
@[simp] theorem writeLT_cmd (s : State) (i : TReg) (q : Vector Point 8) : (s.writeLT i q).cmd = s.cmd := rfl
@[simp] theorem writeLT_ie (s : State) (i : TReg) (q : Vector Point 8) : (s.writeLT i q).ie = s.ie := rfl
@[simp] theorem writeLT_done (s : State) (i : TReg) (q : Vector Point 8) : (s.writeLT i q).done = s.done := rfl
@[simp] theorem writeLT_err (s : State) (i : TReg) (q : Vector Point 8) : (s.writeLT i q).err = s.err := rfl
@[simp] theorem writeLT_errs (s : State) (i : TReg) (q : Vector Point 8) : (s.writeLT i q).errs = s.errs := rfl
@[simp] theorem writeLT_ovr (s : State) (i : TReg) (q : Vector Point 8) : (s.writeLT i q).ovr = s.ovr := rfl
@[simp] theorem writeLT_init (s : State) (i : TReg) (q : Vector Point 8) : (s.writeLT i q).init = s.init := rfl
@[simp] theorem writeLT_hidden (s : State) (i : TReg) (q : Vector Point 8) : (s.writeLT i q).hidden = s.hidden := rfl
@[simp] theorem writeLT_draws (s : State) (i : TReg) (q : Vector Point 8) : (s.writeLT i q).draws = s.draws := rfl
@[simp] theorem writeLT_inputs (s : State) (i : TReg) (q : Vector Point 8) : (s.writeLT i q).inputs = s.inputs := rfl
@[simp] theorem writeLT_resp (s : State) (i : TReg) (q : Vector Point 8) : (s.writeLT i q).resp = s.resp := rfl
@[simp] theorem writeLT_readFR (s : State) (i : TReg) (q : Vector Point 8) (j : FReg) : (s.writeLT i q).readFR j = s.readFR j := rfl
@[simp] theorem writeLT_readPR (s : State) (i : TReg) (q : Vector Point 8) (j : PReg) : (s.writeLT i q).readPR j = s.readPR j := rfl
@[simp] theorem writeLT_readAR (s : State) (i : TReg) (q : Vector Point 8) (j : AReg) : (s.writeLT i q).readAR j = s.readAR j := rfl
@[simp] theorem writeLT_bufByte (s : State) (i : TReg) (q : Vector Point 8) (j : Nat) : (s.writeLT i q).bufByte j = s.bufByte j := rfl
@[simp] theorem writeLT_bufBytes (s : State) (i : TReg) (q : Vector Point 8) (j len : Nat) : (s.writeLT i q).bufBytes j len = s.bufBytes j len := rfl
@[simp] theorem writeLT_modulus (s : State) (i : TReg) (q : Vector Point 8) (d : Domain) : (s.writeLT i q).modulus d = s.modulus d := rfl
@[simp] theorem writeLT_value (s : State) (i : TReg) (q : Vector Point 8) (d : Domain) (j : FReg) : (s.writeLT i q).value d j = s.value d j := rfl
@[simp] theorem writeLT_busy (s : State) (i : TReg) (q : Vector Point 8) : (s.writeLT i q).busy = s.busy := rfl
@[simp] theorem writeLT_bufValue (s : State) (i : TReg) (q : Vector Point 8) (d : Domain) (j : Nat) : (s.writeLT i q).bufValue d j = s.bufValue d j := rfl
@[simp] theorem writeLT_valueBytes (s : State) (i : TReg) (q : Vector Point 8) (d : Domain) (v : Nat) : (s.writeLT i q).valueBytes d v = s.valueBytes d v := rfl

@[simp] theorem setCF_cfg (s : State) (c : Bool) : (s.setCF c).cfg = s.cfg := rfl
@[simp] theorem setCF_fr (s : State) (c : Bool) : (s.setCF c).fr = s.fr := rfl
@[simp] theorem setCF_pr (s : State) (c : Bool) : (s.setCF c).pr = s.pr := rfl
@[simp] theorem setCF_ar (s : State) (c : Bool) : (s.setCF c).ar = s.ar := rfl
@[simp] theorem setCF_lt (s : State) (c : Bool) : (s.setCF c).lt = s.lt := rfl
@[simp] theorem setCF_cf (s : State) (c : Bool) : (s.setCF c).cf = c := rfl
@[simp] theorem setCF_buf (s : State) (c : Bool) : (s.setCF c).buf = s.buf := rfl
@[simp] theorem setCF_buflen (s : State) (c : Bool) : (s.setCF c).buflen = s.buflen := rfl
@[simp] theorem setCF_inflight (s : State) (c : Bool) : (s.setCF c).inflight = s.inflight := rfl
@[simp] theorem setCF_cmd (s : State) (c : Bool) : (s.setCF c).cmd = s.cmd := rfl
@[simp] theorem setCF_ie (s : State) (c : Bool) : (s.setCF c).ie = s.ie := rfl
@[simp] theorem setCF_done (s : State) (c : Bool) : (s.setCF c).done = s.done := rfl
@[simp] theorem setCF_err (s : State) (c : Bool) : (s.setCF c).err = s.err := rfl
@[simp] theorem setCF_errs (s : State) (c : Bool) : (s.setCF c).errs = s.errs := rfl
@[simp] theorem setCF_ovr (s : State) (c : Bool) : (s.setCF c).ovr = s.ovr := rfl
@[simp] theorem setCF_init (s : State) (c : Bool) : (s.setCF c).init = s.init := rfl
@[simp] theorem setCF_hidden (s : State) (c : Bool) : (s.setCF c).hidden = s.hidden := rfl
@[simp] theorem setCF_draws (s : State) (c : Bool) : (s.setCF c).draws = s.draws := rfl
@[simp] theorem setCF_inputs (s : State) (c : Bool) : (s.setCF c).inputs = s.inputs := rfl
@[simp] theorem setCF_resp (s : State) (c : Bool) : (s.setCF c).resp = s.resp := rfl
@[simp] theorem setCF_readFR (s : State) (c : Bool) (j : FReg) : (s.setCF c).readFR j = s.readFR j := rfl
@[simp] theorem setCF_readPR (s : State) (c : Bool) (j : PReg) : (s.setCF c).readPR j = s.readPR j := rfl
@[simp] theorem setCF_readAR (s : State) (c : Bool) (j : AReg) : (s.setCF c).readAR j = s.readAR j := rfl
@[simp] theorem setCF_readLT (s : State) (c : Bool) (j : TReg) : (s.setCF c).readLT j = s.readLT j := rfl
@[simp] theorem setCF_bufByte (s : State) (c : Bool) (j : Nat) : (s.setCF c).bufByte j = s.bufByte j := rfl
@[simp] theorem setCF_bufBytes (s : State) (c : Bool) (j len : Nat) : (s.setCF c).bufBytes j len = s.bufBytes j len := rfl
@[simp] theorem setCF_modulus (s : State) (c : Bool) (d : Domain) : (s.setCF c).modulus d = s.modulus d := rfl
@[simp] theorem setCF_value (s : State) (c : Bool) (d : Domain) (j : FReg) : (s.setCF c).value d j = s.value d j := rfl
@[simp] theorem setCF_busy (s : State) (c : Bool) : (s.setCF c).busy = s.busy := rfl
@[simp] theorem setCF_bufValue (s : State) (c : Bool) (d : Domain) (j : Nat) : (s.setCF c).bufValue d j = s.bufValue d j := rfl
@[simp] theorem setCF_valueBytes (s : State) (c : Bool) (d : Domain) (v : Nat) : (s.setCF c).valueBytes d v = s.valueBytes d v := rfl

@[simp] theorem storeBuf_cfg (s : State) (k : Nat) (bs : List Byte) : (s.storeBuf k bs).cfg = s.cfg := rfl
@[simp] theorem storeBuf_fr (s : State) (k : Nat) (bs : List Byte) : (s.storeBuf k bs).fr = s.fr := rfl
@[simp] theorem storeBuf_pr (s : State) (k : Nat) (bs : List Byte) : (s.storeBuf k bs).pr = s.pr := rfl
@[simp] theorem storeBuf_ar (s : State) (k : Nat) (bs : List Byte) : (s.storeBuf k bs).ar = s.ar := rfl
@[simp] theorem storeBuf_lt (s : State) (k : Nat) (bs : List Byte) : (s.storeBuf k bs).lt = s.lt := rfl
@[simp] theorem storeBuf_cf (s : State) (k : Nat) (bs : List Byte) : (s.storeBuf k bs).cf = s.cf := rfl
@[simp] theorem storeBuf_buf (s : State) (k : Nat) (bs : List Byte) : (s.storeBuf k bs).buf = Memory.writeBytes s.buf k bs := rfl
@[simp] theorem storeBuf_buflen (s : State) (k : Nat) (bs : List Byte) : (s.storeBuf k bs).buflen = s.buflen := rfl
@[simp] theorem storeBuf_inflight (s : State) (k : Nat) (bs : List Byte) : (s.storeBuf k bs).inflight = s.inflight := rfl
@[simp] theorem storeBuf_cmd (s : State) (k : Nat) (bs : List Byte) : (s.storeBuf k bs).cmd = s.cmd := rfl
@[simp] theorem storeBuf_ie (s : State) (k : Nat) (bs : List Byte) : (s.storeBuf k bs).ie = s.ie := rfl
@[simp] theorem storeBuf_done (s : State) (k : Nat) (bs : List Byte) : (s.storeBuf k bs).done = s.done := rfl
@[simp] theorem storeBuf_err (s : State) (k : Nat) (bs : List Byte) : (s.storeBuf k bs).err = s.err := rfl
@[simp] theorem storeBuf_errs (s : State) (k : Nat) (bs : List Byte) : (s.storeBuf k bs).errs = s.errs := rfl
@[simp] theorem storeBuf_ovr (s : State) (k : Nat) (bs : List Byte) : (s.storeBuf k bs).ovr = s.ovr := rfl
@[simp] theorem storeBuf_init (s : State) (k : Nat) (bs : List Byte) : (s.storeBuf k bs).init = s.init := rfl
@[simp] theorem storeBuf_hidden (s : State) (k : Nat) (bs : List Byte) : (s.storeBuf k bs).hidden = s.hidden := rfl
@[simp] theorem storeBuf_draws (s : State) (k : Nat) (bs : List Byte) : (s.storeBuf k bs).draws = s.draws := rfl
@[simp] theorem storeBuf_inputs (s : State) (k : Nat) (bs : List Byte) : (s.storeBuf k bs).inputs = s.inputs := rfl
@[simp] theorem storeBuf_resp (s : State) (k : Nat) (bs : List Byte) : (s.storeBuf k bs).resp = s.resp := rfl
@[simp] theorem storeBuf_readFR (s : State) (k : Nat) (bs : List Byte) (j : FReg) : (s.storeBuf k bs).readFR j = s.readFR j := rfl
@[simp] theorem storeBuf_readPR (s : State) (k : Nat) (bs : List Byte) (j : PReg) : (s.storeBuf k bs).readPR j = s.readPR j := rfl
@[simp] theorem storeBuf_readAR (s : State) (k : Nat) (bs : List Byte) (j : AReg) : (s.storeBuf k bs).readAR j = s.readAR j := rfl
@[simp] theorem storeBuf_readLT (s : State) (k : Nat) (bs : List Byte) (j : TReg) : (s.storeBuf k bs).readLT j = s.readLT j := rfl
@[simp] theorem storeBuf_modulus (s : State) (k : Nat) (bs : List Byte) (d : Domain) : (s.storeBuf k bs).modulus d = s.modulus d := rfl
@[simp] theorem storeBuf_value (s : State) (k : Nat) (bs : List Byte) (d : Domain) (j : FReg) : (s.storeBuf k bs).value d j = s.value d j := rfl
@[simp] theorem storeBuf_busy (s : State) (k : Nat) (bs : List Byte) : (s.storeBuf k bs).busy = s.busy := rfl
@[simp] theorem storeBuf_valueBytes (s : State) (k : Nat) (bs : List Byte) (d : Domain) (v : Nat) : (s.storeBuf k bs).valueBytes d v = s.valueBytes d v := rfl

@[simp] theorem storeEncoding_cfg (s : State) (bs : List Byte) : (s.storeEncoding bs).cfg = s.cfg := rfl
@[simp] theorem storeEncoding_fr (s : State) (bs : List Byte) : (s.storeEncoding bs).fr = s.fr := rfl
@[simp] theorem storeEncoding_pr (s : State) (bs : List Byte) : (s.storeEncoding bs).pr = s.pr := rfl
@[simp] theorem storeEncoding_ar (s : State) (bs : List Byte) : (s.storeEncoding bs).ar = s.ar := rfl
@[simp] theorem storeEncoding_lt (s : State) (bs : List Byte) : (s.storeEncoding bs).lt = s.lt := rfl
@[simp] theorem storeEncoding_cf (s : State) (bs : List Byte) : (s.storeEncoding bs).cf = s.cf := rfl
@[simp] theorem storeEncoding_buf (s : State) (bs : List Byte) : (s.storeEncoding bs).buf = Memory.writeBytes s.buf 0 bs := rfl
@[simp] theorem storeEncoding_buflen (s : State) (bs : List Byte) : (s.storeEncoding bs).buflen = BitVec.ofNat 8 bs.length := rfl
@[simp] theorem storeEncoding_inflight (s : State) (bs : List Byte) : (s.storeEncoding bs).inflight = s.inflight := rfl
@[simp] theorem storeEncoding_cmd (s : State) (bs : List Byte) : (s.storeEncoding bs).cmd = s.cmd := rfl
@[simp] theorem storeEncoding_ie (s : State) (bs : List Byte) : (s.storeEncoding bs).ie = s.ie := rfl
@[simp] theorem storeEncoding_done (s : State) (bs : List Byte) : (s.storeEncoding bs).done = s.done := rfl
@[simp] theorem storeEncoding_err (s : State) (bs : List Byte) : (s.storeEncoding bs).err = s.err := rfl
@[simp] theorem storeEncoding_errs (s : State) (bs : List Byte) : (s.storeEncoding bs).errs = s.errs := rfl
@[simp] theorem storeEncoding_ovr (s : State) (bs : List Byte) : (s.storeEncoding bs).ovr = s.ovr := rfl
@[simp] theorem storeEncoding_init (s : State) (bs : List Byte) : (s.storeEncoding bs).init = s.init := rfl
@[simp] theorem storeEncoding_hidden (s : State) (bs : List Byte) : (s.storeEncoding bs).hidden = s.hidden := rfl
@[simp] theorem storeEncoding_draws (s : State) (bs : List Byte) : (s.storeEncoding bs).draws = s.draws := rfl
@[simp] theorem storeEncoding_inputs (s : State) (bs : List Byte) : (s.storeEncoding bs).inputs = s.inputs := rfl
@[simp] theorem storeEncoding_resp (s : State) (bs : List Byte) : (s.storeEncoding bs).resp = s.resp := rfl
@[simp] theorem storeEncoding_readFR (s : State) (bs : List Byte) (j : FReg) : (s.storeEncoding bs).readFR j = s.readFR j := rfl
@[simp] theorem storeEncoding_readPR (s : State) (bs : List Byte) (j : PReg) : (s.storeEncoding bs).readPR j = s.readPR j := rfl
@[simp] theorem storeEncoding_readAR (s : State) (bs : List Byte) (j : AReg) : (s.storeEncoding bs).readAR j = s.readAR j := rfl
@[simp] theorem storeEncoding_readLT (s : State) (bs : List Byte) (j : TReg) : (s.storeEncoding bs).readLT j = s.readLT j := rfl
@[simp] theorem storeEncoding_modulus (s : State) (bs : List Byte) (d : Domain) : (s.storeEncoding bs).modulus d = s.modulus d := rfl
@[simp] theorem storeEncoding_value (s : State) (bs : List Byte) (d : Domain) (j : FReg) : (s.storeEncoding bs).value d j = s.value d j := rfl
@[simp] theorem storeEncoding_busy (s : State) (bs : List Byte) : (s.storeEncoding bs).busy = s.busy := rfl
@[simp] theorem storeEncoding_valueBytes (s : State) (bs : List Byte) (d : Domain) (v : Nat) : (s.storeEncoding bs).valueBytes d v = s.valueBytes d v := rfl

@[simp] theorem drawHidden_cfg (s : State) : (s.drawHidden).cfg = s.cfg := rfl
@[simp] theorem drawHidden_fr (s : State) : (s.drawHidden).fr = s.fr := rfl
@[simp] theorem drawHidden_pr (s : State) : (s.drawHidden).pr = s.pr := rfl
@[simp] theorem drawHidden_ar (s : State) : (s.drawHidden).ar = s.ar := rfl
@[simp] theorem drawHidden_lt (s : State) : (s.drawHidden).lt = s.lt := rfl
@[simp] theorem drawHidden_cf (s : State) : (s.drawHidden).cf = s.cf := rfl
@[simp] theorem drawHidden_buf (s : State) : (s.drawHidden).buf = s.buf := rfl
@[simp] theorem drawHidden_buflen (s : State) : (s.drawHidden).buflen = s.buflen := rfl
@[simp] theorem drawHidden_inflight (s : State) : (s.drawHidden).inflight = s.inflight := rfl
@[simp] theorem drawHidden_cmd (s : State) : (s.drawHidden).cmd = s.cmd := rfl
@[simp] theorem drawHidden_ie (s : State) : (s.drawHidden).ie = s.ie := rfl
@[simp] theorem drawHidden_done (s : State) : (s.drawHidden).done = s.done := rfl
@[simp] theorem drawHidden_err (s : State) : (s.drawHidden).err = s.err := rfl
@[simp] theorem drawHidden_errs (s : State) : (s.drawHidden).errs = s.errs := rfl
@[simp] theorem drawHidden_ovr (s : State) : (s.drawHidden).ovr = s.ovr := rfl
@[simp] theorem drawHidden_init (s : State) : (s.drawHidden).init = s.init := rfl
@[simp] theorem drawHidden_hidden (s : State) : (s.drawHidden).hidden = Config.freeHidden s.draws := rfl
@[simp] theorem drawHidden_draws (s : State) : (s.drawHidden).draws = s.draws + 1 := rfl
@[simp] theorem drawHidden_inputs (s : State) : (s.drawHidden).inputs = s.inputs := rfl
@[simp] theorem drawHidden_resp (s : State) : (s.drawHidden).resp = s.resp := rfl
@[simp] theorem drawHidden_readFR (s : State) (j : FReg) : (s.drawHidden).readFR j = s.readFR j := rfl
@[simp] theorem drawHidden_readPR (s : State) (j : PReg) : (s.drawHidden).readPR j = s.readPR j := rfl
@[simp] theorem drawHidden_readAR (s : State) (j : AReg) : (s.drawHidden).readAR j = s.readAR j := rfl
@[simp] theorem drawHidden_readLT (s : State) (j : TReg) : (s.drawHidden).readLT j = s.readLT j := rfl
@[simp] theorem drawHidden_bufByte (s : State) (j : Nat) : (s.drawHidden).bufByte j = s.bufByte j := rfl
@[simp] theorem drawHidden_bufBytes (s : State) (j len : Nat) : (s.drawHidden).bufBytes j len = s.bufBytes j len := rfl
@[simp] theorem drawHidden_modulus (s : State) (d : Domain) : (s.drawHidden).modulus d = s.modulus d := rfl
@[simp] theorem drawHidden_value (s : State) (d : Domain) (j : FReg) : (s.drawHidden).value d j = s.value d j := rfl
@[simp] theorem drawHidden_busy (s : State) : (s.drawHidden).busy = s.busy := rfl
@[simp] theorem drawHidden_bufValue (s : State) (d : Domain) (j : Nat) : (s.drawHidden).bufValue d j = s.bufValue d j := rfl
@[simp] theorem drawHidden_valueBytes (s : State) (d : Domain) (v : Nat) : (s.drawHidden).valueBytes d v = s.valueBytes d v := rfl

@[simp] theorem storePR_cfg (s : State) (i : PReg) (q : Point) : (s.storePR i q).cfg = s.cfg := rfl
@[simp] theorem storePR_fr (s : State) (i : PReg) (q : Point) : (s.storePR i q).fr = s.fr := rfl
@[simp] theorem storePR_pr (s : State) (i : PReg) (q : Point) : (s.storePR i q).pr = s.pr.set i q := rfl
@[simp] theorem storePR_ar (s : State) (i : PReg) (q : Point) : (s.storePR i q).ar = s.ar := rfl
@[simp] theorem storePR_lt (s : State) (i : PReg) (q : Point) : (s.storePR i q).lt = s.lt := rfl
@[simp] theorem storePR_cf (s : State) (i : PReg) (q : Point) : (s.storePR i q).cf = s.cf := rfl
@[simp] theorem storePR_buf (s : State) (i : PReg) (q : Point) : (s.storePR i q).buf = s.buf := rfl
@[simp] theorem storePR_buflen (s : State) (i : PReg) (q : Point) : (s.storePR i q).buflen = s.buflen := rfl
@[simp] theorem storePR_inflight (s : State) (i : PReg) (q : Point) : (s.storePR i q).inflight = s.inflight := rfl
@[simp] theorem storePR_cmd (s : State) (i : PReg) (q : Point) : (s.storePR i q).cmd = s.cmd := rfl
@[simp] theorem storePR_ie (s : State) (i : PReg) (q : Point) : (s.storePR i q).ie = s.ie := rfl
@[simp] theorem storePR_done (s : State) (i : PReg) (q : Point) : (s.storePR i q).done = s.done := rfl
@[simp] theorem storePR_err (s : State) (i : PReg) (q : Point) : (s.storePR i q).err = s.err := rfl
@[simp] theorem storePR_errs (s : State) (i : PReg) (q : Point) : (s.storePR i q).errs = s.errs := rfl
@[simp] theorem storePR_ovr (s : State) (i : PReg) (q : Point) : (s.storePR i q).ovr = s.ovr := rfl
@[simp] theorem storePR_init (s : State) (i : PReg) (q : Point) : (s.storePR i q).init = s.init := rfl
@[simp] theorem storePR_hidden (s : State) (i : PReg) (q : Point) : (s.storePR i q).hidden = Config.freeHidden s.draws := rfl
@[simp] theorem storePR_draws (s : State) (i : PReg) (q : Point) : (s.storePR i q).draws = s.draws + 1 := rfl
@[simp] theorem storePR_inputs (s : State) (i : PReg) (q : Point) : (s.storePR i q).inputs = s.inputs := rfl
@[simp] theorem storePR_resp (s : State) (i : PReg) (q : Point) : (s.storePR i q).resp = s.resp := rfl
@[simp] theorem storePR_readFR (s : State) (i : PReg) (q : Point) (j : FReg) : (s.storePR i q).readFR j = s.readFR j := rfl
@[simp] theorem storePR_readAR (s : State) (i : PReg) (q : Point) (j : AReg) : (s.storePR i q).readAR j = s.readAR j := rfl
@[simp] theorem storePR_readLT (s : State) (i : PReg) (q : Point) (j : TReg) : (s.storePR i q).readLT j = s.readLT j := rfl
@[simp] theorem storePR_bufByte (s : State) (i : PReg) (q : Point) (j : Nat) : (s.storePR i q).bufByte j = s.bufByte j := rfl
@[simp] theorem storePR_bufBytes (s : State) (i : PReg) (q : Point) (j len : Nat) : (s.storePR i q).bufBytes j len = s.bufBytes j len := rfl
@[simp] theorem storePR_modulus (s : State) (i : PReg) (q : Point) (d : Domain) : (s.storePR i q).modulus d = s.modulus d := rfl
@[simp] theorem storePR_value (s : State) (i : PReg) (q : Point) (d : Domain) (j : FReg) : (s.storePR i q).value d j = s.value d j := rfl
@[simp] theorem storePR_busy (s : State) (i : PReg) (q : Point) : (s.storePR i q).busy = s.busy := rfl
@[simp] theorem storePR_bufValue (s : State) (i : PReg) (q : Point) (d : Domain) (j : Nat) : (s.storePR i q).bufValue d j = s.bufValue d j := rfl
@[simp] theorem storePR_valueBytes (s : State) (i : PReg) (q : Point) (d : Domain) (v : Nat) : (s.storePR i q).valueBytes d v = s.valueBytes d v := rfl

@[simp] theorem completed_cfg (s : State) : (s.completed).cfg = s.cfg := rfl
@[simp] theorem completed_fr (s : State) : (s.completed).fr = s.fr := rfl
@[simp] theorem completed_pr (s : State) : (s.completed).pr = s.pr := rfl
@[simp] theorem completed_ar (s : State) : (s.completed).ar = s.ar := rfl
@[simp] theorem completed_lt (s : State) : (s.completed).lt = s.lt := rfl
@[simp] theorem completed_cf (s : State) : (s.completed).cf = s.cf := rfl
@[simp] theorem completed_buf (s : State) : (s.completed).buf = s.buf := rfl
@[simp] theorem completed_buflen (s : State) : (s.completed).buflen = s.buflen := rfl
@[simp] theorem completed_inflight (s : State) : (s.completed).inflight = none := rfl
@[simp] theorem completed_cmd (s : State) : (s.completed).cmd = s.cmd := rfl
@[simp] theorem completed_ie (s : State) : (s.completed).ie = s.ie := rfl
@[simp] theorem completed_done (s : State) : (s.completed).done = true := rfl
@[simp] theorem completed_err (s : State) : (s.completed).err = .ok := rfl
@[simp] theorem completed_errs (s : State) : (s.completed).errs = s.errs := rfl
@[simp] theorem completed_ovr (s : State) : (s.completed).ovr = s.ovr := rfl
@[simp] theorem completed_init (s : State) : (s.completed).init = s.init := rfl
@[simp] theorem completed_hidden (s : State) : (s.completed).hidden = s.hidden := rfl
@[simp] theorem completed_draws (s : State) : (s.completed).draws = s.draws := rfl
@[simp] theorem completed_inputs (s : State) : (s.completed).inputs = s.inputs := rfl
@[simp] theorem completed_resp (s : State) : (s.completed).resp = s.resp := rfl
@[simp] theorem completed_readFR (s : State) (j : FReg) : (s.completed).readFR j = s.readFR j := rfl
@[simp] theorem completed_readPR (s : State) (j : PReg) : (s.completed).readPR j = s.readPR j := rfl
@[simp] theorem completed_readAR (s : State) (j : AReg) : (s.completed).readAR j = s.readAR j := rfl
@[simp] theorem completed_readLT (s : State) (j : TReg) : (s.completed).readLT j = s.readLT j := rfl
@[simp] theorem completed_bufByte (s : State) (j : Nat) : (s.completed).bufByte j = s.bufByte j := rfl
@[simp] theorem completed_bufBytes (s : State) (j len : Nat) : (s.completed).bufBytes j len = s.bufBytes j len := rfl
@[simp] theorem completed_modulus (s : State) (d : Domain) : (s.completed).modulus d = s.modulus d := rfl
@[simp] theorem completed_value (s : State) (d : Domain) (j : FReg) : (s.completed).value d j = s.value d j := rfl
@[simp] theorem completed_bufValue (s : State) (d : Domain) (j : Nat) : (s.completed).bufValue d j = s.bufValue d j := rfl
@[simp] theorem completed_valueBytes (s : State) (d : Domain) (v : Nat) : (s.completed).valueBytes d v = s.valueBytes d v := rfl

@[simp] theorem failed_cfg (s : State) (e : CmdError) : (s.failed e).cfg = s.cfg := rfl
@[simp] theorem failed_fr (s : State) (e : CmdError) : (s.failed e).fr = s.fr := rfl
@[simp] theorem failed_pr (s : State) (e : CmdError) : (s.failed e).pr = s.pr := rfl
@[simp] theorem failed_ar (s : State) (e : CmdError) : (s.failed e).ar = s.ar := rfl
@[simp] theorem failed_lt (s : State) (e : CmdError) : (s.failed e).lt = s.lt := rfl
@[simp] theorem failed_cf (s : State) (e : CmdError) : (s.failed e).cf = s.cf := rfl
@[simp] theorem failed_buf (s : State) (e : CmdError) : (s.failed e).buf = s.buf := rfl
@[simp] theorem failed_buflen (s : State) (e : CmdError) : (s.failed e).buflen = s.buflen := rfl
@[simp] theorem failed_inflight (s : State) (e : CmdError) : (s.failed e).inflight = none := rfl
@[simp] theorem failed_cmd (s : State) (e : CmdError) : (s.failed e).cmd = s.cmd := rfl
@[simp] theorem failed_ie (s : State) (e : CmdError) : (s.failed e).ie = s.ie := rfl
@[simp] theorem failed_done (s : State) (e : CmdError) : (s.failed e).done = true := rfl
@[simp] theorem failed_err (s : State) (e : CmdError) : (s.failed e).err = .failed e := rfl
@[simp] theorem failed_errs (s : State) (e : CmdError) : (s.failed e).errs = true := rfl
@[simp] theorem failed_ovr (s : State) (e : CmdError) : (s.failed e).ovr = s.ovr := rfl
@[simp] theorem failed_init (s : State) (e : CmdError) : (s.failed e).init = s.init := rfl
@[simp] theorem failed_hidden (s : State) (e : CmdError) : (s.failed e).hidden = s.hidden := rfl
@[simp] theorem failed_draws (s : State) (e : CmdError) : (s.failed e).draws = s.draws := rfl
@[simp] theorem failed_inputs (s : State) (e : CmdError) : (s.failed e).inputs = s.inputs := rfl
@[simp] theorem failed_resp (s : State) (e : CmdError) : (s.failed e).resp = s.resp := rfl
@[simp] theorem failed_readFR (s : State) (e : CmdError) (j : FReg) : (s.failed e).readFR j = s.readFR j := rfl
@[simp] theorem failed_readPR (s : State) (e : CmdError) (j : PReg) : (s.failed e).readPR j = s.readPR j := rfl
@[simp] theorem failed_readAR (s : State) (e : CmdError) (j : AReg) : (s.failed e).readAR j = s.readAR j := rfl
@[simp] theorem failed_readLT (s : State) (e : CmdError) (j : TReg) : (s.failed e).readLT j = s.readLT j := rfl
@[simp] theorem failed_bufByte (s : State) (e : CmdError) (j : Nat) : (s.failed e).bufByte j = s.bufByte j := rfl
@[simp] theorem failed_bufBytes (s : State) (e : CmdError) (j len : Nat) : (s.failed e).bufBytes j len = s.bufBytes j len := rfl
@[simp] theorem failed_modulus (s : State) (e : CmdError) (d : Domain) : (s.failed e).modulus d = s.modulus d := rfl
@[simp] theorem failed_value (s : State) (e : CmdError) (d : Domain) (j : FReg) : (s.failed e).value d j = s.value d j := rfl
@[simp] theorem failed_bufValue (s : State) (e : CmdError) (d : Domain) (j : Nat) : (s.failed e).bufValue d j = s.bufValue d j := rfl
@[simp] theorem failed_valueBytes (s : State) (e : CmdError) (d : Domain) (v : Nat) : (s.failed e).valueBytes d v = s.valueBytes d v := rfl

@[simp] theorem accept_cfg (s : State) (w : CmdWord) : (s.accept w).cfg = s.cfg := rfl
@[simp] theorem accept_fr (s : State) (w : CmdWord) : (s.accept w).fr = s.fr := rfl
@[simp] theorem accept_pr (s : State) (w : CmdWord) : (s.accept w).pr = s.pr := rfl
@[simp] theorem accept_ar (s : State) (w : CmdWord) : (s.accept w).ar = s.ar := rfl
@[simp] theorem accept_lt (s : State) (w : CmdWord) : (s.accept w).lt = s.lt := rfl
@[simp] theorem accept_cf (s : State) (w : CmdWord) : (s.accept w).cf = s.cf := rfl
@[simp] theorem accept_buf (s : State) (w : CmdWord) : (s.accept w).buf = s.buf := rfl
@[simp] theorem accept_buflen (s : State) (w : CmdWord) : (s.accept w).buflen = s.buflen := rfl
@[simp] theorem accept_inflight (s : State) (w : CmdWord) : (s.accept w).inflight = some w := rfl
@[simp] theorem accept_cmd (s : State) (w : CmdWord) : (s.accept w).cmd = w := rfl
@[simp] theorem accept_ie (s : State) (w : CmdWord) : (s.accept w).ie = s.ie := rfl
@[simp] theorem accept_done (s : State) (w : CmdWord) : (s.accept w).done = false := rfl
@[simp] theorem accept_err (s : State) (w : CmdWord) : (s.accept w).err = s.err := rfl
@[simp] theorem accept_errs (s : State) (w : CmdWord) : (s.accept w).errs = s.errs := rfl
@[simp] theorem accept_ovr (s : State) (w : CmdWord) : (s.accept w).ovr = s.ovr := rfl
@[simp] theorem accept_init (s : State) (w : CmdWord) : (s.accept w).init = s.init := rfl
@[simp] theorem accept_hidden (s : State) (w : CmdWord) : (s.accept w).hidden = s.hidden := rfl
@[simp] theorem accept_draws (s : State) (w : CmdWord) : (s.accept w).draws = s.draws := rfl
@[simp] theorem accept_inputs (s : State) (w : CmdWord) : (s.accept w).inputs = s.inputs := rfl
@[simp] theorem accept_resp (s : State) (w : CmdWord) : (s.accept w).resp = s.resp := rfl
@[simp] theorem accept_readFR (s : State) (w : CmdWord) (j : FReg) : (s.accept w).readFR j = s.readFR j := rfl
@[simp] theorem accept_readPR (s : State) (w : CmdWord) (j : PReg) : (s.accept w).readPR j = s.readPR j := rfl
@[simp] theorem accept_readAR (s : State) (w : CmdWord) (j : AReg) : (s.accept w).readAR j = s.readAR j := rfl
@[simp] theorem accept_readLT (s : State) (w : CmdWord) (j : TReg) : (s.accept w).readLT j = s.readLT j := rfl
@[simp] theorem accept_bufByte (s : State) (w : CmdWord) (j : Nat) : (s.accept w).bufByte j = s.bufByte j := rfl
@[simp] theorem accept_bufBytes (s : State) (w : CmdWord) (j len : Nat) : (s.accept w).bufBytes j len = s.bufBytes j len := rfl
@[simp] theorem accept_modulus (s : State) (w : CmdWord) (d : Domain) : (s.accept w).modulus d = s.modulus d := rfl
@[simp] theorem accept_value (s : State) (w : CmdWord) (d : Domain) (j : FReg) : (s.accept w).value d j = s.value d j := rfl
@[simp] theorem accept_bufValue (s : State) (w : CmdWord) (d : Domain) (j : Nat) : (s.accept w).bufValue d j = s.bufValue d j := rfl
@[simp] theorem accept_valueBytes (s : State) (w : CmdWord) (d : Domain) (v : Nat) : (s.accept w).valueBytes d v = s.valueBytes d v := rfl

@[simp] theorem nextDraw_cfg (s : State) : (s.nextDraw).cfg = s.cfg := rfl
@[simp] theorem nextDraw_fr (s : State) : (s.nextDraw).fr = s.fr := rfl
@[simp] theorem nextDraw_pr (s : State) : (s.nextDraw).pr = s.pr := rfl
@[simp] theorem nextDraw_ar (s : State) : (s.nextDraw).ar = s.ar := rfl
@[simp] theorem nextDraw_lt (s : State) : (s.nextDraw).lt = s.lt := rfl
@[simp] theorem nextDraw_cf (s : State) : (s.nextDraw).cf = s.cf := rfl
@[simp] theorem nextDraw_buf (s : State) : (s.nextDraw).buf = s.buf := rfl
@[simp] theorem nextDraw_buflen (s : State) : (s.nextDraw).buflen = s.buflen := rfl
@[simp] theorem nextDraw_inflight (s : State) : (s.nextDraw).inflight = s.inflight := rfl
@[simp] theorem nextDraw_cmd (s : State) : (s.nextDraw).cmd = s.cmd := rfl
@[simp] theorem nextDraw_ie (s : State) : (s.nextDraw).ie = s.ie := rfl
@[simp] theorem nextDraw_done (s : State) : (s.nextDraw).done = s.done := rfl
@[simp] theorem nextDraw_err (s : State) : (s.nextDraw).err = s.err := rfl
@[simp] theorem nextDraw_errs (s : State) : (s.nextDraw).errs = s.errs := rfl
@[simp] theorem nextDraw_ovr (s : State) : (s.nextDraw).ovr = s.ovr := rfl
@[simp] theorem nextDraw_init (s : State) : (s.nextDraw).init = s.init := rfl
@[simp] theorem nextDraw_hidden (s : State) : (s.nextDraw).hidden = s.hidden := rfl
@[simp] theorem nextDraw_draws (s : State) : (s.nextDraw).draws = s.draws + 1 := rfl
@[simp] theorem nextDraw_inputs (s : State) : (s.nextDraw).inputs = s.inputs := rfl
@[simp] theorem nextDraw_resp (s : State) : (s.nextDraw).resp = s.resp := rfl
@[simp] theorem nextDraw_readFR (s : State) (j : FReg) : (s.nextDraw).readFR j = s.readFR j := rfl
@[simp] theorem nextDraw_readPR (s : State) (j : PReg) : (s.nextDraw).readPR j = s.readPR j := rfl
@[simp] theorem nextDraw_readAR (s : State) (j : AReg) : (s.nextDraw).readAR j = s.readAR j := rfl
@[simp] theorem nextDraw_readLT (s : State) (j : TReg) : (s.nextDraw).readLT j = s.readLT j := rfl
@[simp] theorem nextDraw_bufByte (s : State) (j : Nat) : (s.nextDraw).bufByte j = s.bufByte j := rfl
@[simp] theorem nextDraw_bufBytes (s : State) (j len : Nat) : (s.nextDraw).bufBytes j len = s.bufBytes j len := rfl
@[simp] theorem nextDraw_modulus (s : State) (d : Domain) : (s.nextDraw).modulus d = s.modulus d := rfl
@[simp] theorem nextDraw_value (s : State) (d : Domain) (j : FReg) : (s.nextDraw).value d j = s.value d j := rfl
@[simp] theorem nextDraw_busy (s : State) : (s.nextDraw).busy = s.busy := rfl
@[simp] theorem nextDraw_bufValue (s : State) (d : Domain) (j : Nat) : (s.nextDraw).bufValue d j = s.bufValue d j := rfl
@[simp] theorem nextDraw_valueBytes (s : State) (d : Domain) (v : Nat) : (s.nextDraw).valueBytes d v = s.valueBytes d v := rfl

@[simp] theorem respond_cfg (s : State) (r : Response) : (s.respond r).cfg = s.cfg := rfl
@[simp] theorem respond_fr (s : State) (r : Response) : (s.respond r).fr = s.fr := rfl
@[simp] theorem respond_pr (s : State) (r : Response) : (s.respond r).pr = s.pr := rfl
@[simp] theorem respond_ar (s : State) (r : Response) : (s.respond r).ar = s.ar := rfl
@[simp] theorem respond_lt (s : State) (r : Response) : (s.respond r).lt = s.lt := rfl
@[simp] theorem respond_cf (s : State) (r : Response) : (s.respond r).cf = s.cf := rfl
@[simp] theorem respond_buf (s : State) (r : Response) : (s.respond r).buf = s.buf := rfl
@[simp] theorem respond_buflen (s : State) (r : Response) : (s.respond r).buflen = s.buflen := rfl
@[simp] theorem respond_inflight (s : State) (r : Response) : (s.respond r).inflight = s.inflight := rfl
@[simp] theorem respond_cmd (s : State) (r : Response) : (s.respond r).cmd = s.cmd := rfl
@[simp] theorem respond_ie (s : State) (r : Response) : (s.respond r).ie = s.ie := rfl
@[simp] theorem respond_done (s : State) (r : Response) : (s.respond r).done = s.done := rfl
@[simp] theorem respond_err (s : State) (r : Response) : (s.respond r).err = s.err := rfl
@[simp] theorem respond_errs (s : State) (r : Response) : (s.respond r).errs = s.errs := rfl
@[simp] theorem respond_ovr (s : State) (r : Response) : (s.respond r).ovr = s.ovr := rfl
@[simp] theorem respond_init (s : State) (r : Response) : (s.respond r).init = s.init := rfl
@[simp] theorem respond_hidden (s : State) (r : Response) : (s.respond r).hidden = s.hidden := rfl
@[simp] theorem respond_draws (s : State) (r : Response) : (s.respond r).draws = s.draws := rfl
@[simp] theorem respond_inputs (s : State) (r : Response) : (s.respond r).inputs = s.inputs := rfl
@[simp] theorem respond_resp (s : State) (r : Response) : (s.respond r).resp = some r := rfl
@[simp] theorem respond_readFR (s : State) (r : Response) (j : FReg) : (s.respond r).readFR j = s.readFR j := rfl
@[simp] theorem respond_readPR (s : State) (r : Response) (j : PReg) : (s.respond r).readPR j = s.readPR j := rfl
@[simp] theorem respond_readAR (s : State) (r : Response) (j : AReg) : (s.respond r).readAR j = s.readAR j := rfl
@[simp] theorem respond_readLT (s : State) (r : Response) (j : TReg) : (s.respond r).readLT j = s.readLT j := rfl
@[simp] theorem respond_bufByte (s : State) (r : Response) (j : Nat) : (s.respond r).bufByte j = s.bufByte j := rfl
@[simp] theorem respond_bufBytes (s : State) (r : Response) (j len : Nat) : (s.respond r).bufBytes j len = s.bufBytes j len := rfl
@[simp] theorem respond_modulus (s : State) (r : Response) (d : Domain) : (s.respond r).modulus d = s.modulus d := rfl
@[simp] theorem respond_value (s : State) (r : Response) (d : Domain) (j : FReg) : (s.respond r).value d j = s.value d j := rfl
@[simp] theorem respond_busy (s : State) (r : Response) : (s.respond r).busy = s.busy := rfl
@[simp] theorem respond_bufValue (s : State) (r : Response) (d : Domain) (j : Nat) : (s.respond r).bufValue d j = s.bufValue d j := rfl
@[simp] theorem respond_valueBytes (s : State) (r : Response) (d : Domain) (v : Nat) : (s.respond r).valueBytes d v = s.valueBytes d v := rfl

@[simp] theorem dropWrite_cfg (s : State) : (s.dropWrite).cfg = s.cfg := rfl
@[simp] theorem dropWrite_fr (s : State) : (s.dropWrite).fr = s.fr := rfl
@[simp] theorem dropWrite_pr (s : State) : (s.dropWrite).pr = s.pr := rfl
@[simp] theorem dropWrite_ar (s : State) : (s.dropWrite).ar = s.ar := rfl
@[simp] theorem dropWrite_lt (s : State) : (s.dropWrite).lt = s.lt := rfl
@[simp] theorem dropWrite_cf (s : State) : (s.dropWrite).cf = s.cf := rfl
@[simp] theorem dropWrite_buf (s : State) : (s.dropWrite).buf = s.buf := rfl
@[simp] theorem dropWrite_buflen (s : State) : (s.dropWrite).buflen = s.buflen := rfl
@[simp] theorem dropWrite_inflight (s : State) : (s.dropWrite).inflight = s.inflight := rfl
@[simp] theorem dropWrite_cmd (s : State) : (s.dropWrite).cmd = s.cmd := rfl
@[simp] theorem dropWrite_ie (s : State) : (s.dropWrite).ie = s.ie := rfl
@[simp] theorem dropWrite_done (s : State) : (s.dropWrite).done = s.done := rfl
@[simp] theorem dropWrite_err (s : State) : (s.dropWrite).err = s.err := rfl
@[simp] theorem dropWrite_errs (s : State) : (s.dropWrite).errs = s.errs := rfl
@[simp] theorem dropWrite_ovr (s : State) : (s.dropWrite).ovr = true := rfl
@[simp] theorem dropWrite_init (s : State) : (s.dropWrite).init = s.init := rfl
@[simp] theorem dropWrite_hidden (s : State) : (s.dropWrite).hidden = s.hidden := rfl
@[simp] theorem dropWrite_draws (s : State) : (s.dropWrite).draws = s.draws := rfl
@[simp] theorem dropWrite_inputs (s : State) : (s.dropWrite).inputs = s.inputs := rfl
@[simp] theorem dropWrite_resp (s : State) : (s.dropWrite).resp = s.resp := rfl
@[simp] theorem dropWrite_readFR (s : State) (j : FReg) : (s.dropWrite).readFR j = s.readFR j := rfl
@[simp] theorem dropWrite_readPR (s : State) (j : PReg) : (s.dropWrite).readPR j = s.readPR j := rfl
@[simp] theorem dropWrite_readAR (s : State) (j : AReg) : (s.dropWrite).readAR j = s.readAR j := rfl
@[simp] theorem dropWrite_readLT (s : State) (j : TReg) : (s.dropWrite).readLT j = s.readLT j := rfl
@[simp] theorem dropWrite_bufByte (s : State) (j : Nat) : (s.dropWrite).bufByte j = s.bufByte j := rfl
@[simp] theorem dropWrite_bufBytes (s : State) (j len : Nat) : (s.dropWrite).bufBytes j len = s.bufBytes j len := rfl
@[simp] theorem dropWrite_modulus (s : State) (d : Domain) : (s.dropWrite).modulus d = s.modulus d := rfl
@[simp] theorem dropWrite_value (s : State) (d : Domain) (j : FReg) : (s.dropWrite).value d j = s.value d j := rfl
@[simp] theorem dropWrite_busy (s : State) : (s.dropWrite).busy = s.busy := rfl
@[simp] theorem dropWrite_bufValue (s : State) (d : Domain) (j : Nat) : (s.dropWrite).bufValue d j = s.bufValue d j := rfl
@[simp] theorem dropWrite_valueBytes (s : State) (d : Domain) (v : Nat) : (s.dropWrite).valueBytes d v = s.valueBytes d v := rfl

@[simp] theorem zeroized_cfg (s : State) : (s.zeroized).cfg = s.cfg := rfl
@[simp] theorem zeroized_fr (s : State) : (s.zeroized).fr = Vector.replicate 16 0 := rfl
@[simp] theorem zeroized_pr (s : State) : (s.zeroized).pr = Vector.replicate 8 .identity := rfl
@[simp] theorem zeroized_ar (s : State) : (s.zeroized).ar = Vector.replicate 4 .identity := rfl
@[simp] theorem zeroized_lt (s : State) : (s.zeroized).lt = Vector.replicate 2 (Vector.replicate 8 .identity) := rfl
@[simp] theorem zeroized_cf (s : State) : (s.zeroized).cf = false := rfl
@[simp] theorem zeroized_buf (s : State) : (s.zeroized).buf = [] := rfl
@[simp] theorem zeroized_buflen (s : State) : (s.zeroized).buflen = 0 := rfl
@[simp] theorem zeroized_inflight (s : State) : (s.zeroized).inflight = s.inflight := rfl
@[simp] theorem zeroized_cmd (s : State) : (s.zeroized).cmd = s.cmd := rfl
@[simp] theorem zeroized_ie (s : State) : (s.zeroized).ie = s.ie := rfl
@[simp] theorem zeroized_done (s : State) : (s.zeroized).done = s.done := rfl
@[simp] theorem zeroized_err (s : State) : (s.zeroized).err = s.err := rfl
@[simp] theorem zeroized_errs (s : State) : (s.zeroized).errs = s.errs := rfl
@[simp] theorem zeroized_ovr (s : State) : (s.zeroized).ovr = s.ovr := rfl
@[simp] theorem zeroized_init (s : State) : (s.zeroized).init = s.init := rfl
@[simp] theorem zeroized_hidden (s : State) : (s.zeroized).hidden = .cleared := rfl
@[simp] theorem zeroized_draws (s : State) : (s.zeroized).draws = s.draws := rfl
@[simp] theorem zeroized_inputs (s : State) : (s.zeroized).inputs = s.inputs := rfl
@[simp] theorem zeroized_resp (s : State) : (s.zeroized).resp = s.resp := rfl
@[simp] theorem zeroized_modulus (s : State) (d : Domain) : (s.zeroized).modulus d = s.modulus d := rfl
@[simp] theorem zeroized_busy (s : State) : (s.zeroized).busy = s.busy := rfl
@[simp] theorem zeroized_valueBytes (s : State) (d : Domain) (v : Nat) : (s.zeroized).valueBytes d v = s.valueBytes d v := rfl

@[simp] theorem performReset_cfg (s : State) : (s.performReset).cfg = s.cfg := rfl
@[simp] theorem performReset_fr (s : State) : (s.performReset).fr = Vector.replicate 16 0 := rfl
@[simp] theorem performReset_pr (s : State) : (s.performReset).pr = Vector.replicate 8 .identity := rfl
@[simp] theorem performReset_ar (s : State) : (s.performReset).ar = Vector.replicate 4 .identity := rfl
@[simp] theorem performReset_lt (s : State) : (s.performReset).lt = Vector.replicate 2 (Vector.replicate 8 .identity) := rfl
@[simp] theorem performReset_cf (s : State) : (s.performReset).cf = false := rfl
@[simp] theorem performReset_buf (s : State) : (s.performReset).buf = [] := rfl
@[simp] theorem performReset_buflen (s : State) : (s.performReset).buflen = 0 := rfl
@[simp] theorem performReset_inflight (s : State) : (s.performReset).inflight = none := rfl
@[simp] theorem performReset_cmd (s : State) : (s.performReset).cmd = 0 := rfl
@[simp] theorem performReset_ie (s : State) : (s.performReset).ie = false := rfl
@[simp] theorem performReset_done (s : State) : (s.performReset).done = false := rfl
@[simp] theorem performReset_err (s : State) : (s.performReset).err = .ok := rfl
@[simp] theorem performReset_errs (s : State) : (s.performReset).errs = false := rfl
@[simp] theorem performReset_ovr (s : State) : (s.performReset).ovr = false := rfl
@[simp] theorem performReset_init (s : State) : (s.performReset).init = s.cfg.initAfterReset s.draws := rfl
@[simp] theorem performReset_hidden (s : State) : (s.performReset).hidden = .cleared := rfl
@[simp] theorem performReset_draws (s : State) : (s.performReset).draws = s.draws + 1 := rfl
@[simp] theorem performReset_inputs (s : State) : (s.performReset).inputs = s.inputs := rfl
@[simp] theorem performReset_resp (s : State) : (s.performReset).resp = s.resp := rfl
@[simp] theorem performReset_modulus (s : State) (d : Domain) : (s.performReset).modulus d = s.modulus d := rfl
@[simp] theorem performReset_valueBytes (s : State) (d : Domain) (v : Nat) : (s.performReset).valueBytes d v = s.valueBytes d v := rfl

end Sys2Proof.Machine.State
end

