-- ==== Sys2Proof/Laws/Ops.lean ====
section
/-!
SUPPORT. What each shared operation can do, said once: register files read after a write, the checks before a
completion, the frames of the named updates, and the cases of a step.
-/

namespace Sys2Proof.Machine

namespace State

@[simp] theorem readFR_writeFR (s : State) (i j : FReg) (w : Nat) :
    (s.writeFR i w).readFR j = if j = i then w else s.readFR j := by
  simp [readFR, writeFR, Vector.getElem_set, Fin.ext_iff, eq_comm]

@[simp] theorem readPR_writePR (s : State) (i j : PReg) (q : Point) :
    (s.writePR i q).readPR j = if j = i then q else s.readPR j := by
  simp [readPR, writePR, Vector.getElem_set, Fin.ext_iff, eq_comm]

@[simp] theorem readPR_storePR (s : State) (i j : PReg) (q : Point) :
    (s.storePR i q).readPR j = if j = i then q else s.readPR j := readPR_writePR s i j q

@[simp] theorem readAR_writeAR (s : State) (i j : AReg) (q : Point) :
    (s.writeAR i q).readAR j = if j = i then q else s.readAR j := by
  simp [readAR, writeAR, Vector.getElem_set, Fin.ext_iff, eq_comm]

@[simp] theorem readLT_writeLT (s : State) (i j : TReg) (t : Vector Point 8) :
    (s.writeLT i t).readLT j = if j = i then t else s.readLT j := by
  simp [readLT, writeLT, Vector.getElem_set, Fin.ext_iff, eq_comm]

@[simp] theorem readFR_zeroized (s : State) (i : FReg) : s.zeroized.readFR i = 0 := by
  simp [readFR, zeroized]

@[simp] theorem readPR_zeroized (s : State) (i : PReg) : s.zeroized.readPR i = .identity := by
  simp [readPR, zeroized]

@[simp] theorem readAR_zeroized (s : State) (i : AReg) : s.zeroized.readAR i = .identity := by
  simp [readAR, zeroized]

@[simp] theorem readLT_zeroized (s : State) (t : TReg) : s.zeroized.readLT t = Vector.replicate 8 .identity := by
  simp [readLT, zeroized]

@[simp] theorem bufByte_zeroized (s : State) (i : Nat) : s.zeroized.bufByte i = 0 := rfl

@[simp] theorem readFR_resetOf (c : Params) (i : FReg) : (resetOf c).readFR i = 0 := by
  simp [readFR, resetOf]

@[simp] theorem readPR_resetOf (c : Params) (i : PReg) : (resetOf c).readPR i = .identity := by
  simp [readPR, resetOf]

@[simp] theorem readAR_resetOf (c : Params) (i : AReg) : (resetOf c).readAR i = .identity := by
  simp [readAR, resetOf]

@[simp] theorem readLT_resetOf (c : Params) (t : TReg) :
    (resetOf c).readLT t = Vector.replicate 8 .identity := by
  simp [readLT, resetOf]

@[simp] theorem bufByte_resetOf (c : Params) (i : Nat) : (resetOf c).bufByte i = 0 := rfl

@[simp] theorem resetOf_draws (c : Params) : (resetOf c).draws = 1 := rfl

/-- A reset of the fresh reset state takes a free value of its own for its length (log entry 8). -/
theorem performReset_resetOf_init (c : Params) : (resetOf c).performReset.init = c.initAfterReset 1 := rfl

@[simp] theorem readFR_performReset (s : State) (i : FReg) : s.performReset.readFR i = 0 :=
  readFR_resetOf s.cfg i

@[simp] theorem readPR_performReset (s : State) (i : PReg) : s.performReset.readPR i = .identity :=
  readPR_resetOf s.cfg i

@[simp] theorem readAR_performReset (s : State) (i : AReg) : s.performReset.readAR i = .identity :=
  readAR_resetOf s.cfg i

@[simp] theorem readLT_performReset (s : State) (t : TReg) :
    s.performReset.readLT t = Vector.replicate 8 .identity := readLT_resetOf s.cfg t

@[simp] theorem bufByte_performReset (s : State) (i : Nat) : s.performReset.bufByte i = 0 := rfl

/-- Storing a byte string leaves every byte outside it as it was. -/
theorem bufByte_storeBuf_outside (s : State) (k : Nat) (bs : List Byte) (i : Nat)
    (h : i < k ∨ k + bs.length ≤ i) : (s.storeBuf k bs).bufByte i = s.bufByte i :=
  Memory.read_writeBytes_outside bs h

/-- A stored byte string reads back. -/
theorem bufByte_storeBuf_inside (s : State) (k : Nat) (bs : List Byte) (hw : Memory.wf s.buf = true) (i : Nat)
    (h : i < bs.length) : (s.storeBuf k bs).bufByte (k + i) = bs[i] :=
  Memory.read_writeBytes_inside bs hw i h

theorem bufByte_storeEncoding_beyond (s : State) (bs : List Byte) (i : Nat) (h : bs.length ≤ i) :
    (s.storeEncoding bs).bufByte i = s.bufByte i :=
  Memory.read_writeBytes_outside bs (Or.inr (by omega))

theorem bufByte_storeEncoding_inside (s : State) (bs : List Byte) (hw : Memory.wf s.buf = true) (i : Nat)
    (h : i < bs.length) : (s.storeEncoding bs).bufByte i = bs[i] := by
  have := Memory.read_writeBytes_inside (i := 0) bs hw i h
  simpa [storeEncoding, storeBuf, bufByte] using this

theorem failed_eq_errorState (s : State) (e : CmdError) : s.failed e = errorState e s := rfl

end State

/-- With every source in range the checked command completes. -/
theorem rangeChecked_inRange {m : Nat} {sources : List Nat} {s t : State} (h : ∀ w ∈ sources, w < m) :
    rangeChecked m sources s t = .next t.completed := by
  have hall : sources.all (inRange m) = true := by simpa [inRange] using h
  simp [rangeChecked, hall]

/-- With a source out of range it ends in RANGE. -/
theorem rangeChecked_outOfRange {m w : Nat} {sources : List Nat} {s t : State} (hw : w ∈ sources) (h : ¬ w < m) :
    rangeChecked m sources s t = .next (s.failed .range) := by
  have hall : ¬ sources.all (inRange m) = true := by
    simp only [List.all_eq_true, inRange, decide_eq_true_eq, not_forall]
    exact ⟨w, hw, h⟩
  simp [rangeChecked, hall, cmdError]

/-- Everything a range-checked command can answer. -/
theorem rangeChecked_cases (m : Nat) (sources : List Nat) (s t : State) :
    ((∀ w ∈ sources, w < m) ∧ rangeChecked m sources s t = .next t.completed) ∨
      ((∃ w ∈ sources, ¬ w < m) ∧ rangeChecked m sources s t = .next (s.failed .range)) := by
  by_cases h : ∀ w ∈ sources, w < m
  · exact .inl ⟨h, rangeChecked_inRange h⟩
  · simp only [not_forall] at h
    obtain ⟨w, hw, hlt⟩ := h
    exact .inr ⟨⟨w, hw, hlt⟩, rangeChecked_outOfRange hw hlt⟩

@[simp] theorem immChecked_legal (s t : State) : immChecked true s t = .next t.completed := rfl

@[simp] theorem immChecked_illegal (s t : State) : immChecked false s t = .next (s.failed .imm) := rfl

/-- Completion writes ERR, DONE and INFLIGHT alone. -/
theorem completed_succeeds (s : State) : Succeeds s s.completed :=
  ⟨rfl, rfl, rfl, rfl, ⟨rfl, rfl, rfl, rfl, rfl, rfl, rfl⟩⟩

/-- Everything a command can answer: a state whose command completed without error, or the error state of its code. -/
theorem exec_cases (i : Instr) (s : State) :
    (∃ t : State, exec i s = .next t.completed ∧ SameControl s t ∧ t.errs = s.errs) ∨
      (∃ e, exec i s = .next (s.failed e)) := by
  have range : ∀ (m : Nat) (ws : List Nat) (t : State), SameControl s t → t.errs = s.errs →
      (∃ u : State, rangeChecked m ws s t = .next u.completed ∧ SameControl s u ∧ u.errs = s.errs) ∨
        (∃ e, rangeChecked m ws s t = .next (s.failed e)) := fun m ws t hc he =>
    (rangeChecked_cases m ws s t).imp (fun h => ⟨t, h.2, hc, he⟩) (fun h => ⟨_, h.2⟩)
  have imm : ∀ (b : Bool) (t : State), SameControl s t → t.errs = s.errs →
      (∃ u : State, immChecked b s t = .next u.completed ∧ SameControl s u ∧ u.errs = s.errs) ∨
        (∃ e, immChecked b s t = .next (s.failed e)) := fun b t hc he => by
    cases b
    · exact .inr ⟨_, rfl⟩
    · exact .inl ⟨t, rfl, hc, he⟩
  cases i <;>
    first
      | exact .inl ⟨_, rfl, ⟨rfl, rfl, rfl, rfl, rfl, rfl, rfl⟩, rfl⟩
      | exact range _ _ _ ⟨rfl, rfl, rfl, rfl, rfl, rfl, rfl⟩ rfl
      | exact imm _ _ ⟨rfl, rfl, rfl, rfl, rfl, rfl, rfl⟩ rfl

/-- A host read changes at most the response and the counter of free values. -/
theorem hostRead_cases (bytes addr : Nat) (s : State) :
    hostRead bytes addr s = s ∨ (∃ r, hostRead bytes addr s = s.respond r) ∨
      (∃ r, hostRead bytes addr s = s.nextDraw.respond r) := by
  unfold hostRead
  split
  · split
    · exact .inr (.inl ⟨_, rfl⟩)
    · exact .inr (.inr ⟨_, rfl⟩)
  · exact .inl rfl

/-- What a host write can do: nothing, an error response, or the write of one register and its response. -/
theorem hostWrite_cases (bytes addr : Nat) (v : BitVec 32) (s : State) :
    hostWrite bytes addr v s = s ∨ (∃ r, hostWrite bytes addr v s = s.respond r) ∨
      (∃ reg r, accessReg s.cfg bytes addr = some reg ∧ hostWrite bytes addr v s = (s.writeReg reg v).respond r) := by
  unfold hostWrite
  split
  · split
    · exact .inr (.inl ⟨_, rfl⟩)
    · next reg h => exact .inr (.inr ⟨reg, _, h, rfl⟩)
  · exact .inl rfl

/-- What a step can do: the cases of the first input, or of the core alone. -/
theorem step_cases (s : State) :
    (s.inputs = [] ∧ step s = coreStep s) ∨
      (∃ i rest, s.inputs = i :: rest ∧ step s = inputStep i { s with inputs := rest }) := by
  unfold step
  cases h : s.inputs with
  | nil => exact .inl ⟨rfl, rfl⟩
  | cons i rest => exact .inr ⟨i, rest, rfl, rfl⟩

/-- What the core can do when it moves. -/
theorem coreStep_cases (s : State) :
    (∃ w i, s.inflight = some w ∧ decode w = .ok i ∧ coreStep s = exec i s) ∨
      (∃ w e, s.inflight = some w ∧ decode w = .error e ∧ coreStep s = .next (s.failed e)) ∨
      (s.inflight = none ∧ coreStep s = .next { s with init := s.init - 1 }) := by
  unfold coreStep
  cases h : s.inflight with
  | none => exact .inr (.inr ⟨rfl, rfl⟩)
  | some w =>
    simp only [completeWord]
    cases hd : decode w with
    | ok i => exact .inl ⟨w, i, rfl, hd, rfl⟩
    | error e => exact .inr (.inl ⟨w, e, rfl, hd, rfl⟩)

end Sys2Proof.Machine
end

