-- ==== Sys2Proof/Laws/PerInstr.lean ====
section
/-!
SUPPORT. Facts about each command as a word of the encoding: the encoder writes the opcode of a row of the opcode map
and leaves that row's reserved bits and unused fields 0.
-/

namespace Sys2Proof

theorem bitOf_lt (d : Domain) : bitOf d < 2 := by cases d <;> decide

/-- The fields of a format R word. -/
theorem fieldsOf_packR {op d rd ra rb rc re : Nat} (hop : op < 64) (hd : d < 2) (hrd : rd < 16) (hra : ra < 16)
    (hrb : rb < 16) (hrc : rc < 16) (hre : re < 16) :
    fieldsOf (packR op d rd ra rb rc re) =
      { op := op, d := d, rsv := 0, rd := rd, ra := ra, rb := rb, rc := rc, re := re, imm8 := rb * 16 + rc,
        rsv2 := re } := by
  simp only [fieldsOf, packR, bits, BitVec.toNat_ofNat, Fields.mk.injEq]
  refine ⟨?_, ?_, ?_, ?_, ?_, ?_, ?_, ?_, ?_, ?_⟩ <;> norm_num <;> omega

/-- The fields of a format I word. -/
theorem fieldsOf_packI {op d rd ra imm8 : Nat} (hop : op < 64) (hd : d < 2) (hrd : rd < 16) (hra : ra < 16)
    (himm : imm8 < 256) :
    fieldsOf (packI op d rd ra imm8) =
      { op := op, d := d, rsv := 0, rd := rd, ra := ra, rb := imm8 / 16, rc := imm8 % 16, re := 0, imm8 := imm8,
        rsv2 := 0 } := by
  simp only [fieldsOf, packI, bits, BitVec.toNat_ofNat, Fields.mk.injEq]
  refine ⟨?_, ?_, ?_, ?_, ?_, ?_, ?_, ?_, ?_, ?_⟩ <;> norm_num <;> omega

namespace Laws.EncodedRow

/-- The word of the command has a row in the opcode map, and that row's reserved bits and unused fields are 0 in it. -/
def Statement (i : Instr) : Prop :=
  ∃ r, rowOf (fieldsOf (encode i)).op = some r ∧ r.rsvViolated (fieldsOf (encode i)) = false

theorem lt16 {v n : Nat} (h : v < n) (hn : n ≤ 16) : v < 16 := Nat.lt_of_lt_of_le h hn

theorem of_packR {i : Instr} {op d rd ra rb rc re : Nat} (hop : op < 64) (hd : d < 2) (hrd : rd < 16)
    (hra : ra < 16) (hrb : rb < 16) (hrc : rc < 16) (hre : re < 16) (hi : encode i = packR op d rd ra rb rc re)
    (hr : (rowOf op).map (fun r => r.rsvViolated
      { op := op, d := d, rsv := 0, rd := rd, ra := ra, rb := rb, rc := rc, re := re, imm8 := rb * 16 + rc,
        rsv2 := re }) = some false) : Statement i := by
  obtain ⟨r, h1, h2⟩ := Option.map_eq_some_iff.1 hr
  refine ⟨r, ?_, ?_⟩ <;> rw [hi, fieldsOf_packR hop hd hrd hra hrb hrc hre]
  · exact h1
  · exact h2

theorem of_packI {i : Instr} {op d rd ra imm8 : Nat} (hop : op < 64) (hd : d < 2) (hrd : rd < 16)
    (hra : ra < 16) (himm : imm8 < 256) (hi : encode i = packI op d rd ra imm8)
    (hr : (rowOf op).map (fun r => r.rsvViolated
      { op := op, d := d, rsv := 0, rd := rd, ra := ra, rb := imm8 / 16, rc := imm8 % 16, re := 0, imm8 := imm8,
        rsv2 := 0 }) = some false) : Statement i := by
  obtain ⟨r, h1, h2⟩ := Option.map_eq_some_iff.1 hr
  refine ⟨r, ?_, ?_⟩ <;> rw [hi, fieldsOf_packI hop hd hrd hra himm]
  · exact h1
  · exact h2

theorem nop : Statement (.nop) :=
  of_packR (by decide) (by decide) (by decide) (by decide) (by decide) (by decide) (by decide) rfl rfl

theorem fadd : ∀ d rd ra rb, Statement (.fadd d rd ra rb) :=
  fun d rd ra rb => of_packR (by decide) (bitOf_lt d) (lt16 rd.isLt (by decide)) (lt16 ra.isLt (by decide)) (lt16 rb.isLt (by decide)) (by decide) (by decide) rfl rfl

theorem fsub : ∀ d rd ra rb, Statement (.fsub d rd ra rb) :=
  fun d rd ra rb => of_packR (by decide) (bitOf_lt d) (lt16 rd.isLt (by decide)) (lt16 ra.isLt (by decide)) (lt16 rb.isLt (by decide)) (by decide) (by decide) rfl rfl

theorem fneg : ∀ d rd ra, Statement (.fneg d rd ra) :=
  fun d rd ra => of_packR (by decide) (bitOf_lt d) (lt16 rd.isLt (by decide)) (lt16 ra.isLt (by decide)) (by decide) (by decide) (by decide) rfl rfl

theorem fmul : ∀ d rd ra rb, Statement (.fmul d rd ra rb) :=
  fun d rd ra rb => of_packR (by decide) (bitOf_lt d) (lt16 rd.isLt (by decide)) (lt16 ra.isLt (by decide)) (lt16 rb.isLt (by decide)) (by decide) (by decide) rfl rfl

theorem fsqr : ∀ d rd ra, Statement (.fsqr d rd ra) :=
  fun d rd ra => of_packR (by decide) (bitOf_lt d) (lt16 rd.isLt (by decide)) (lt16 ra.isLt (by decide)) (by decide) (by decide) (by decide) rfl rfl

theorem fdbl : ∀ d rd ra, Statement (.fdbl d rd ra) :=
  fun d rd ra => of_packR (by decide) (bitOf_lt d) (lt16 rd.isLt (by decide)) (lt16 ra.isLt (by decide)) (by decide) (by decide) (by decide) rfl rfl

theorem ftom : ∀ d rd ra, Statement (.ftom d rd ra) :=
  fun d rd ra => of_packR (by decide) (bitOf_lt d) (lt16 rd.isLt (by decide)) (lt16 ra.isLt (by decide)) (by decide) (by decide) (by decide) rfl rfl

theorem ffromm : ∀ d rd ra, Statement (.ffromm d rd ra) :=
  fun d rd ra => of_packR (by decide) (bitOf_lt d) (lt16 rd.isLt (by decide)) (lt16 ra.isLt (by decide)) (by decide) (by decide) (by decide) rfl rfl

theorem fldk : ∀ d rd imm8, Statement (.fldk d rd imm8) :=
  fun d rd imm8 => of_packI (by decide) (bitOf_lt d) (lt16 rd.isLt (by decide)) (by decide) imm8.isLt rfl rfl

theorem fsel : ∀ d rd ra rb, Statement (.fsel d rd ra rb) :=
  fun d rd ra rb => of_packR (by decide) (bitOf_lt d) (lt16 rd.isLt (by decide)) (lt16 ra.isLt (by decide)) (lt16 rb.isLt (by decide)) (by decide) (by decide) rfl rfl

theorem fcneg : ∀ d rd ra, Statement (.fcneg d rd ra) :=
  fun d rd ra => of_packR (by decide) (bitOf_lt d) (lt16 rd.isLt (by decide)) (lt16 ra.isLt (by decide)) (by decide) (by decide) (by decide) rfl rfl

theorem fisz : ∀ d ra, Statement (.fisz d ra) :=
  fun d ra => of_packR (by decide) (bitOf_lt d) (by decide) (lt16 ra.isLt (by decide)) (by decide) (by decide) (by decide) rfl rfl

theorem fisodd : ∀ d ra, Statement (.fisodd d ra) :=
  fun d ra => of_packR (by decide) (bitOf_lt d) (by decide) (lt16 ra.isLt (by decide)) (by decide) (by decide) (by decide) rfl rfl

theorem feq : ∀ d ra rb, Statement (.feq d ra rb) :=
  fun d ra rb => of_packR (by decide) (bitOf_lt d) (by decide) (lt16 ra.isLt (by decide)) (lt16 rb.isLt (by decide)) (by decide) (by decide) rfl rfl

theorem setc : ∀ imm8, Statement (.setc imm8) :=
  fun imm8 => of_packI (by decide) (by decide) (by decide) (by decide) imm8.isLt rfl rfl

theorem finv : ∀ d rd ra, Statement (.finv d rd ra) :=
  fun d rd ra => of_packR (by decide) (bitOf_lt d) (lt16 rd.isLt (by decide)) (lt16 ra.isLt (by decide)) (by decide) (by decide) (by decide) rfl rfl

theorem fsqrt : ∀ d rd ra, Statement (.fsqrt d rd ra) :=
  fun d rd ra => of_packR (by decide) (bitOf_lt d) (lt16 rd.isLt (by decide)) (lt16 ra.isLt (by decide)) (by decide) (by decide) (by decide) rfl rfl

theorem fdec : ∀ d rd, Statement (.fdec d rd) :=
  fun d rd => of_packR (by decide) (bitOf_lt d) (lt16 rd.isLt (by decide)) (by decide) (by decide) (by decide) (by decide) rfl rfl

theorem fenc : ∀ d ra, Statement (.fenc d ra) :=
  fun d ra => of_packR (by decide) (bitOf_lt d) (by decide) (lt16 ra.isLt (by decide)) (by decide) (by decide) (by decide) rfl rfl

theorem fred : ∀ d rd, Statement (.fred d rd) :=
  fun d rd => of_packR (by decide) (bitOf_lt d) (lt16 rd.isLt (by decide)) (by decide) (by decide) (by decide) (by decide) rfl rfl

theorem pident : ∀ rd, Statement (.pident rd) :=
  fun rd => of_packR (by decide) (by decide) (lt16 rd.isLt (by decide)) (by decide) (by decide) (by decide) (by decide) rfl rfl

theorem pgen : ∀ rd, Statement (.pgen rd) :=
  fun rd => of_packR (by decide) (by decide) (lt16 rd.isLt (by decide)) (by decide) (by decide) (by decide) (by decide) rfl rfl

theorem padd : ∀ rd ra rb, Statement (.padd rd ra rb) :=
  fun rd ra rb => of_packR (by decide) (by decide) (lt16 rd.isLt (by decide)) (lt16 ra.isLt (by decide)) (lt16 rb.isLt (by decide)) (by decide) (by decide) rfl rfl

theorem padda : ∀ rd ra rb, Statement (.padda rd ra rb) :=
  fun rd ra rb => of_packR (by decide) (by decide) (lt16 rd.isLt (by decide)) (lt16 ra.isLt (by decide)) (lt16 rb.isLt (by decide)) (by decide) (by decide) rfl rfl

theorem pdbl : ∀ rd ra, Statement (.pdbl rd ra) :=
  fun rd ra => of_packR (by decide) (by decide) (lt16 rd.isLt (by decide)) (lt16 ra.isLt (by decide)) (by decide) (by decide) (by decide) rfl rfl

theorem pneg : ∀ rd ra, Statement (.pneg rd ra) :=
  fun rd ra => of_packR (by decide) (by decide) (lt16 rd.isLt (by decide)) (lt16 ra.isLt (by decide)) (by decide) (by decide) (by decide) rfl rfl

theorem pcneg : ∀ rd ra, Statement (.pcneg rd ra) :=
  fun rd ra => of_packR (by decide) (by decide) (lt16 rd.isLt (by decide)) (lt16 ra.isLt (by decide)) (by decide) (by decide) (by decide) rfl rfl

theorem psel : ∀ rd ra rb, Statement (.psel rd ra rb) :=
  fun rd ra rb => of_packR (by decide) (by decide) (lt16 rd.isLt (by decide)) (lt16 ra.isLt (by decide)) (lt16 rb.isLt (by decide)) (by decide) (by decide) rfl rfl

theorem pisid : ∀ ra, Statement (.pisid ra) :=
  fun ra => of_packR (by decide) (by decide) (by decide) (lt16 ra.isLt (by decide)) (by decide) (by decide) (by decide) rfl rfl

theorem peq : ∀ ra rb, Statement (.peq ra rb) :=
  fun ra rb => of_packR (by decide) (by decide) (by decide) (lt16 ra.isLt (by decide)) (lt16 rb.isLt (by decide)) (by decide) (by decide) rfl rfl

theorem toaff : ∀ rd ra, Statement (.toaff rd ra) :=
  fun rd ra => of_packR (by decide) (by decide) (lt16 rd.isLt (by decide)) (lt16 ra.isLt (by decide)) (by decide) (by decide) (by decide) rfl rfl

theorem fromaff : ∀ rd ra, Statement (.fromaff rd ra) :=
  fun rd ra => of_packR (by decide) (by decide) (lt16 rd.isLt (by decide)) (lt16 ra.isLt (by decide)) (by decide) (by decide) (by decide) rfl rfl

theorem aident : ∀ rd, Statement (.aident rd) :=
  fun rd => of_packR (by decide) (by decide) (lt16 rd.isLt (by decide)) (by decide) (by decide) (by decide) (by decide) rfl rfl

theorem agen : ∀ rd, Statement (.agen rd) :=
  fun rd => of_packR (by decide) (by decide) (lt16 rd.isLt (by decide)) (by decide) (by decide) (by decide) (by decide) rfl rfl

theorem aneg : ∀ rd ra, Statement (.aneg rd ra) :=
  fun rd ra => of_packR (by decide) (by decide) (lt16 rd.isLt (by decide)) (lt16 ra.isLt (by decide)) (by decide) (by decide) (by decide) rfl rfl

theorem aisid : ∀ ra, Statement (.aisid ra) :=
  fun ra => of_packR (by decide) (by decide) (by decide) (lt16 ra.isLt (by decide)) (by decide) (by decide) (by decide) rfl rfl

theorem agetx : ∀ rd ra, Statement (.agetx rd ra) :=
  fun rd ra => of_packR (by decide) (by decide) (lt16 rd.isLt (by decide)) (lt16 ra.isLt (by decide)) (by decide) (by decide) (by decide) rfl rfl

theorem agety : ∀ rd ra, Statement (.agety rd ra) :=
  fun rd ra => of_packR (by decide) (by decide) (lt16 rd.isLt (by decide)) (lt16 ra.isLt (by decide)) (by decide) (by decide) (by decide) rfl rfl

theorem aset : ∀ rd ra rb, Statement (.aset rd ra rb) :=
  fun rd ra rb => of_packR (by decide) (by decide) (lt16 rd.isLt (by decide)) (lt16 ra.isLt (by decide)) (lt16 rb.isLt (by decide)) (by decide) (by decide) rfl rfl

theorem penc : ∀ ra imm8, Statement (.penc ra imm8) :=
  fun ra imm8 => of_packI (by decide) (by decide) (by decide) (lt16 ra.isLt (by decide)) imm8.isLt rfl rfl

theorem pdec : ∀ rd imm8, Statement (.pdec rd imm8) :=
  fun rd imm8 => of_packI (by decide) (by decide) (lt16 rd.isLt (by decide)) (by decide) imm8.isLt rfl rfl

theorem pmul : ∀ rd ra rb, Statement (.pmul rd ra rb) :=
  fun rd ra rb => of_packR (by decide) (by decide) (lt16 rd.isLt (by decide)) (lt16 ra.isLt (by decide)) (lt16 rb.isLt (by decide)) (by decide) (by decide) rfl rfl

theorem pmulg : ∀ rd ra, Statement (.pmulg rd ra) :=
  fun rd ra => of_packR (by decide) (by decide) (lt16 rd.isLt (by decide)) (lt16 ra.isLt (by decide)) (by decide) (by decide) (by decide) rfl rfl

theorem lincomb : ∀ rd ra rb rc re, Statement (.lincomb rd ra rb rc re) :=
  fun rd ra rb rc re => of_packR (by decide) (by decide) (lt16 rd.isLt (by decide)) (lt16 ra.isLt (by decide)) (lt16 rb.isLt (by decide)) (lt16 rc.isLt (by decide)) (lt16 re.isLt (by decide)) rfl rfl

theorem ltbuild : ∀ rd ra, Statement (.ltbuild rd ra) :=
  fun rd ra => of_packR (by decide) (by decide) (lt16 rd.isLt (by decide)) (lt16 ra.isLt (by decide)) (by decide) (by decide) (by decide) rfl rfl

theorem ltsel : ∀ rd ra imm8, Statement (.ltsel rd ra imm8) :=
  fun rd ra imm8 => of_packI (by decide) (by decide) (lt16 rd.isLt (by decide)) (lt16 ra.isLt (by decide)) imm8.isLt rfl rfl

theorem zeroize : Statement (.zeroize) :=
  of_packR (by decide) (by decide) (by decide) (by decide) (by decide) (by decide) (by decide) rfl rfl

end Laws.EncodedRow

end Sys2Proof
end

