-- ==== Sys2Proof/Tests/Slice0.lean ====
section
/-!
SUPPORT. Tests. Every expected value is from spec/95_test_vectors.md (the table is named in each part's heading) or
worked out by hand from the rules; and, for each statement of Certificates/Slice0/Obligations.lean with hypotheses, a
witness that meets them.
-/

namespace Sys2Proof.Tests

open Sys2Proof Sys2Proof.Machine

/-! ### Helpers -/

/-- One step answers a next state, and the state passes the check. -/
def answers (r : Result) (check : State → Bool) : Bool :=
  match r with
  | .next t => check t
  | .fault _ => false
  | .refused _ => false

/-- The step that completes the command word `w` from `s`. -/
def run (w : CmdWord) (s : State) : Result := step (s.acceptNow w)

/-- TOY13 after reset with two field registers and CF. -/
def fState (f1 f2 : Nat) (cf : Bool) : State := ((State.reset.writeFR 1 f1).writeFR 2 f2).setCF cf

/-- TOY13 after reset with two projective registers and CF. -/
def pState (p0 p1 : Point) (cf : Bool) : State := ((State.reset.writePR 0 p0).writePR 1 p1).setCF cf

/-- TOY13 after reset with an affine register and P0. -/
def aState (a0 p0 : Point) : State := (State.reset.writeAR 0 a0).writePR 0 p0

/-- TOY13 after reset with bytes at the start of BUF, and BUFLEN. -/
def bState (bytes : List Byte) (len : BitVec 8) : State := { State.reset.storeBuf 0 bytes with buflen := len }

/-- The state with these inputs to come. -/
def withInputs (s : State) (inputs : List Input) : State := { s with inputs := inputs }

/-- A completion with this code and, in CF and the registers, nothing new. -/
def failsWith (e : CmdError) (s : State) (r : Result) : Bool :=
  answers r fun t => t.err == .failed e && t.errs && t.done && t.inflight == none && t.fr == s.fr && t.pr == s.pr &&
    t.ar == s.ar && t.lt == s.lt && t.cf == s.cf && t.buf == s.buf && t.buflen == s.buflen

/-- TOY41 of 95_test_vectors.md section 1. -/
def toy41 : Params :=
  { w := 1, word := 32, p := 41, n := 47, a := 1, b := 5, gx := 0, gy := 13, byteOrder := .big, coord := .homogeneous,
    rootP := 38, rootN := 0, otherRoots := [], bufBytes := 8, idValue := 0, baseAddr := 0, tInit := 0 }

/-- P-256 of 95_test_vectors.md section 1. -/
def p256 : Params :=
  { w := 4, word := 64, p := 2 ^ 256 - 2 ^ 224 + 2 ^ 192 + 2 ^ 96 - 1,
    n := 0xFFFFFFFF00000000FFFFFFFFFFFFFFFFBCE6FAADA7179E84F3B9CAC2FC632551,
    a := 2 ^ 256 - 2 ^ 224 + 2 ^ 192 + 2 ^ 96 - 4,
    b := 0x5AC635D8AA3A93E7B3EBBD55769886BC651D06B0CC53B0F63BCE3C3E27D2604B,
    gx := 0x6B17D1F2E12C4247F8BCE6E563A440F277037D812DEB33A0F4A13945D898C296,
    gy := 0x4FE342E2FE1A7F9B8EE7EB4A7C0F9E162BCE33576B315ECECBB6406837BF51F5, byteOrder := .big, coord := .homogeneous,
    rootP := 0, rootN := 0xFFC97F062A770992BA807ACE842A3DFC1546CAD004378DAF0592D7FBB41E6602, otherRoots := [],
    bufBytes := 68,
    idValue := 0, baseAddr := 0, tInit := 0 }

/-! ### WellFormed refuses each kind of ill-formed term -/

theorem test_wellFormed_setc : (Instr.setc 2).wellFormed = false ∧ (Instr.setc 1).wellFormed = true := by decide

theorem test_wellFormed_penc : (Instr.penc 0 2).wellFormed = false ∧ (Instr.penc 0 0).wellFormed = true := by decide

theorem test_wellFormed_pdec : (Instr.pdec 0 0x10).wellFormed = false ∧ (Instr.pdec 0 1).wellFormed = true := by decide

theorem test_wellFormed_ltsel :
    (Instr.ltsel 0 0 9).wellFormed = false ∧ (Instr.ltsel 0 0 0xF7).wellFormed = false ∧
    (Instr.ltsel 0 0 8).wellFormed = true ∧ (Instr.ltsel 0 0 0xF8).wellFormed = true := by decide

/-! ### Decoding: every constructor from a word of 95_test_vectors.md section 3, or written out bit by bit from the rows
of 30_encoding.md R90 (op << 26, D << 25, rd << 16, ra << 12, rb << 8, rc << 4, re, or imm8 << 4) -/

theorem test_decode_nop : decode 0x00000000 = .ok .nop := by decide

theorem test_decode_fadd :
    decode 0x04031200 = .ok (.fadd .field 3 1 2) ∧ decode 0x06021100 = .ok (.fadd .scalar 2 1 1) := by decide

theorem test_decode_fsub : decode 0x08031200 = .ok (.fsub .field 3 1 2) := by decide

theorem test_decode_fneg :
    decode 0x0C021000 = .ok (.fneg .field 2 1) ∧ decode 0x0E021000 = .ok (.fneg .scalar 2 1) := by decide

theorem test_decode_fmul :
    decode 0x10031200 = .ok (.fmul .field 3 1 2) ∧ decode 0x12051400 = .ok (.fmul .scalar 5 1 4) := by decide

theorem test_decode_fsqr : decode 0x14021000 = .ok (.fsqr .field 2 1) := by decide

theorem test_decode_fdbl : decode 0x18021000 = .ok (.fdbl .field 2 1) := by decide

theorem test_decode_ftom : decode 0x1C021000 = .ok (.ftom .field 2 1) := by decide

theorem test_decode_ffromm : decode 0x20021000 = .ok (.ffromm .field 2 1) := by decide

theorem test_decode_fldk :
    decode 0x24010C80 = .ok (.fldk .field 1 200) ∧ decode 0x260100F0 = .ok (.fldk .scalar 1 15) := by decide

theorem test_decode_fsel : decode 0x28031200 = .ok (.fsel .field 3 1 2) := by decide

theorem test_decode_fcneg : decode 0x2C021000 = .ok (.fcneg .field 2 1) := by decide

theorem test_decode_fisz : decode 0x30001000 = .ok (.fisz .field 1) := by decide

theorem test_decode_fisodd : decode 0x34001000 = .ok (.fisodd .field 1) := by decide

theorem test_decode_feq :
    decode 0x38001200 = .ok (.feq .field 1 2) ∧ decode 0x3A008200 = .ok (.feq .scalar 8 2) := by decide

theorem test_decode_setc : decode 0x3C000010 = .ok (.setc 1) := by decide

theorem test_decode_finv :
    decode 0x42043000 = .ok (.finv .scalar 4 3) ∧ decode 0b01000000000000100001000000000000 = .ok (.finv .field 2 1) := by decide

theorem test_decode_fsqrt : decode 0x44021000 = .ok (.fsqrt .field 2 1) := by decide

theorem test_decode_fdec :
    decode 0x50010000 = .ok (.fdec .field 1) ∧ decode 0x52010000 = .ok (.fdec .scalar 1) := by decide

theorem test_decode_fenc :
    decode 0x54001000 = .ok (.fenc .field 1) ∧ decode 0x56001000 = .ok (.fenc .scalar 1) := by decide

theorem test_decode_fred :
    decode 0x58010000 = .ok (.fred .field 1) ∧ decode 0x5A010000 = .ok (.fred .scalar 1) := by decide

theorem test_decode_pident : decode 0x80030000 = .ok (.pident 3) := by decide

theorem test_decode_pgen : decode 0x84030000 = .ok (.pgen 3) := by decide

theorem test_decode_padd : decode 0x88020100 = .ok (.padd 2 0 1) := by decide

theorem test_decode_padda :
    decode 0x8C010000 = .ok (.padda 1 0 0) ∧ decode 0b10001100000001110110001100000000 = .ok (.padda 7 6 3) := by decide

theorem test_decode_pdbl : decode 0x90011000 = .ok (.pdbl 1 1) := by decide

theorem test_decode_pneg : decode 0x94010000 = .ok (.pneg 1 0) := by decide

theorem test_decode_pcneg : decode 0x98010000 = .ok (.pcneg 1 0) := by decide

theorem test_decode_psel : decode 0x9C020100 = .ok (.psel 2 0 1) := by decide

theorem test_decode_pisid :
    decode 0xA0000000 = .ok (.pisid 0) ∧ decode 0b10100000000000000111000000000000 = .ok (.pisid 7) := by decide

theorem test_decode_peq : decode 0xA4001300 = .ok (.peq 1 3) := by decide

theorem test_decode_toaff : decode 0xA8012000 = .ok (.toaff 1 2) := by decide

theorem test_decode_fromaff :
    decode 0xAC010000 = .ok (.fromaff 1 0) ∧ decode 0b10101100000001010011000000000000 = .ok (.fromaff 5 3) := by decide

theorem test_decode_aident : decode 0xB0010000 = .ok (.aident 1) := by decide

theorem test_decode_agen : decode 0xB4010000 = .ok (.agen 1) := by decide

theorem test_decode_aneg : decode 0xB8010000 = .ok (.aneg 1 0) := by decide

theorem test_decode_aisid : decode 0xBC001000 = .ok (.aisid 1) := by decide

theorem test_decode_agetx : decode 0xC0071000 = .ok (.agetx 7 1) := by decide

theorem test_decode_agety : decode 0xC4020000 = .ok (.agety 2 0) := by decide

theorem test_decode_aset : decode 0xC8001200 = .ok (.aset 0 1 2) := by decide

theorem test_decode_penc : decode 0xCC000010 = .ok (.penc 0 1) := by decide

theorem test_decode_pdec : decode 0xD0010010 = .ok (.pdec 1 1) := by decide

theorem test_decode_pmul : decode 0xE0010100 = .ok (.pmul 1 0 1) := by decide

theorem test_decode_pmulg : decode 0xE4031000 = .ok (.pmulg 3 1) := by decide

theorem test_decode_lincomb : decode 0xE8020516 = .ok (.lincomb 2 0 5 1 6) := by decide

theorem test_decode_ltbuild :
    decode 0xEC000000 = .ok (.ltbuild 0 0) ∧ decode 0b11101100000000010101000000000000 = .ok (.ltbuild 1 5) := by decide

theorem test_decode_ltsel :
    decode 0xF0010FD0 = .ok (.ltsel 1 0 0xFD) ∧ decode 0xF0020010 = .ok (.ltsel 2 0 1) := by decide

theorem test_decode_zeroize : decode 0xFC000000 = .ok .zeroize := by decide

/-- 95_test_vectors.md section 3.8. -/
theorem test_decode_error_unassigned :
    decode 0x48000000 = .error .illegal ∧ decode 0xF4000000 = .error .illegal ∧ decode 0x48100000 = .error .illegal := by decide

/-- 95_test_vectors.md section 3.8. -/
theorem test_decode_error_reserved :
    decode 0x00000001 = .error .rsv ∧ decode 0x04131200 = .error .rsv ∧ decode 0x8A020100 = .error .rsv ∧ decode 0x30011000 = .error .rsv ∧ decode 0x3C000011 = .error .rsv ∧ decode 0x88280100 = .error .rsv := by decide

/-- 95_test_vectors.md section 3.8. -/
theorem test_decode_error_index :
    decode 0x88080100 = .error .reg ∧ decode 0xA8040000 = .error .reg ∧ decode 0xEC020000 = .error .reg ∧ decode 0xF0090090 = .error .reg := by decide

/-- 95_test_vectors.md section 3.8. -/
theorem test_decode_error_immediate :
    decode 0x3C000020 = .error .imm ∧ decode 0xF0010090 = .error .imm ∧ decode 0xF0010F70 = .error .imm ∧ decode 0xD0000020 = .error .imm := by decide

theorem test_decode_boundaries :
    decode 0x24010FF0 = .ok (.fldk .field 1 0xFF) ∧ decode 0xF0010080 = .ok (.ltsel 1 0 8) ∧
    decode 0xF0010F80 = .ok (.ltsel 1 0 0xF8) ∧ decode 0x88070700 = .ok (.padd 7 0 7) := by decide

theorem test_decodeTableWord :
    decodeTableWord 32 0xE8020112 = some (.lincomb 2 0 1 1 2) ∧ decodeTableWord 32 0x48000000 = none := by decide

/-! ### The field engine (95_test_vectors.md section 3.1, TOY13) -/

theorem test_fadd :
    answers (run 0x04031200 (fState 1 6 true)) (fun t => t.readFR 3 == 7 && t.cf && t.done && t.err == .ok && t.readFR 1 == 1) = true := by decide

theorem test_fadd_source_is_destination :
    answers (run 0x04011100 (fState 12 1 false)) (fun t => t.readFR 1 == 11) = true := by decide

theorem test_fsub : answers (run 0x08031200 (fState 1 6 false)) (fun t => t.readFR 3 == 8) = true := by decide

theorem test_fsub_equal : answers (run 0x08031200 (fState 5 5 false)) (fun t => t.readFR 3 == 0) = true := by decide

theorem test_fneg : answers (run 0x0C021000 (fState 1 0 false)) (fun t => t.readFR 2 == 12) = true := by decide

theorem test_fneg_zero : answers (run 0x0C021000 (fState 0 5 false)) (fun t => t.readFR 2 == 0) = true := by decide

theorem test_fmul : answers (run 0x10031200 (fState 1 6 false)) (fun t => t.readFR 3 == 5) = true := by decide

theorem test_fmul_one : answers (run 0x10031200 (fState 9 11 false)) (fun t => t.readFR 3 == 11) = true := by decide

theorem test_fsqr : answers (run 0x14021000 (fState 6 0 false)) (fun t => t.readFR 2 == 4) = true := by decide

theorem test_fdbl : answers (run 0x18021000 (fState 11 0 false)) (fun t => t.readFR 2 == 9) = true := by decide

theorem test_ftom : answers (run 0x1C021000 (fState 4 0 false)) (fun t => t.readFR 2 == 10) = true := by decide

theorem test_ffromm : answers (run 0x20021000 (fState 4 0 false)) (fun t => t.readFR 2 == 12) = true := by decide

theorem test_fldk : answers (run 0x24010C80 (fState 0 0 false)) (fun t => t.readFR 1 == 6) = true := by decide

theorem test_fldk_scalar : answers (run 0x26010C80 (fState 0 0 false)) (fun t => t.readFR 1 == 3) = true := by decide

theorem test_fsel_set :
    answers (run 0x28031200 (fState 1 6 true)) (fun t => t.readFR 3 == 6 && t.cf) = true := by decide

theorem test_fsel_clear : answers (run 0x28031200 (fState 1 6 false)) (fun t => t.readFR 3 == 1) = true := by decide

theorem test_fcneg_set : answers (run 0x2C021000 (fState 1 0 true)) (fun t => t.readFR 2 == 12) = true := by decide

theorem test_fcneg_clear : answers (run 0x2C021000 (fState 1 0 false)) (fun t => t.readFR 2 == 1) = true := by decide

theorem test_fisz_zero : answers (run 0x30001000 (fState 0 0 false)) (fun t => t.cf) = true := by decide

theorem test_fisz_nonzero : answers (run 0x30001000 (fState 9 0 true)) (fun t => !t.cf) = true := by decide

theorem test_fisodd_odd_value : answers (run 0x34001000 (fState 9 0 false)) (fun t => t.cf) = true := by decide

theorem test_fisodd_even_value : answers (run 0x34001000 (fState 2 0 true)) (fun t => !t.cf) = true := by decide

theorem test_feq_equal : answers (run 0x38001200 (fState 7 7 false)) (fun t => t.cf) = true := by decide

theorem test_feq_different : answers (run 0x38001200 (fState 7 8 true)) (fun t => !t.cf) = true := by decide

theorem test_setc_one : answers (run 0x3C000010 (fState 0 0 false)) (fun t => t.cf) = true := by decide

theorem test_setc_zero : answers (run 0x3C000000 (fState 0 0 true)) (fun t => !t.cf) = true := by decide

theorem test_range_error_fadd :
    failsWith .range (fState 13 0 true) (run 0x04021100 (fState 13 0 true)) = true := by decide

theorem test_range_error_fsel_unselected :
    failsWith .range (fState 1 15 false) (run 0x28031200 (fState 1 15 false)) = true := by decide

theorem test_scalar_word_in_scalar_domain :
    answers (run 0x06021100 (fState 13 0 false)) (fun t => t.readFR 2 == 7) = true := by decide

theorem test_imm_error_setc : failsWith .imm (fState 1 2 true) (run 0x3C000020 (fState 1 2 true)) = true := by decide

/-! ### Byte forms (95_test_vectors.md section 3.2) -/

theorem test_fdec : answers (run 0x50010000 (bState [0x0C] 0)) (fun t => t.readFR 1 == 4 && t.cf) = true := by decide

theorem test_fdec_too_large :
    answers (run 0x50010000 (bState [0x0D] 0)) (fun t => t.readFR 1 == 0 && !t.cf && t.err == .ok) = true := by decide

theorem test_fenc :
    answers (run 0x54001000 ((bState [0xAA, 0xBB] 0).writeFR 1 6)) (fun t => t.bufByte 0 == 0x05 && t.bufByte 1 == 0xBB && t.buflen == 1) = true := by decide

theorem test_fenc_scalar :
    answers (run 0x56001000 ((bState [] 0).writeFR 1 4)) (fun t => t.bufByte 0 == 0x07 && t.buflen == 1) = true := by decide

theorem test_fred : answers (run 0x58010000 (bState [0xFF] 0)) (fun t => t.readFR 1 == 7) = true := by decide

theorem test_fred_scalar : answers (run 0x5A010000 (bState [0x20] 0)) (fun t => t.readFR 1 == 2) = true := by decide

/-- 20_memory.md R59. -/
theorem test_byte_orders :
    toBytes .big 3 0x010203 = [1, 2, 3] ∧ toBytes .little 3 0x010203 = [3, 2, 1] ∧
    fromBytes .big [1, 2] = 0x102 ∧ fromBytes .little [1, 2] = 0x201 := by decide

/-! ### The inverse engine and FINV (95_test_vectors.md section 3.3) -/

theorem test_engine_13 :
    inverterRun 13 2 = { delta := 8, f := -1, g := 0, v := 9, r := 0 } ∧
    inverterRun 13 0 = { delta := 16, f := 13, g := 0, v := 0, r := 1 } := by decide

theorem test_engine_41 :
    inverterRun 41 33 = { delta := 8, f := 1, g := 0, v := 10, r := 0 } ∧ nDiv 41 = 21 ∧ nDiv 19 = 18 := by decide

theorem test_engine_output :
    (Params.toy13.correction 13 = 2 ∧ Params.toy13.correction 19 = 17 ∧ toy41.correction 41 = 8) ∧
    Params.toy13.inverterOut 13 (inverterRun 13 2) = 8 := by decide

theorem test_finv : answers (run 0x40021000 (fState 2 0 false)) (fun t => t.readFR 2 == 8 && t.cf) = true := by decide

theorem test_finv_zero :
    answers (run 0x42021000 ((fState 0 0 true).writeFR 2 5)) (fun t => t.readFR 2 == 0 && !t.cf && t.err == .ok) = true := by decide

/-! ### The square root (95_test_vectors.md section 3.4) -/

theorem test_fsqrt_residue :
    answers (run 0x44021000 (fState 12 0 false)) (fun t => t.readFR 2 == 11 && t.cf) = true := by decide

theorem test_fsqrt_nonresidue :
    answers (run 0x44021000 (fState 5 0 true)) (fun t => !t.cf && t.err == .ok) = true := by decide

theorem test_sqrt_atkin : [0, 1, 3, 4, 9, 10, 12].map (sqrtAtkin 13) = [0, 1, 9, 11, 3, 7, 8] := by decide

/-- 42_sqrt.md R172 by hand: m = 37, t = 16, i = 31, x = 480 mod 37 (log entry 27). -/
theorem test_sqrt_atkin_one : sqrtAtkin 13 1 = 1 ∧ sqrtAtkin 37 1 = 36 ∧ sqrtAtkin 61 1 = 60 := by decide

theorem test_sqrt_exp :
    [0, 1, 4, 5, 6, 7, 9, 11, 16, 17].map (sqrtExp 19) = [0, 1, 17, 9, 5, 11, 16, 7, 4, 6] := by decide

theorem test_sqrt_tonelli :
    [0, 1, 2, 4, 5, 8, 9, 10, 16, 18, 20].map (sqrtTonelli 41 38) = [0, 1, 17, 2, 28, 34, 38, 16, 37, 10, 26] := by decide

/-- 42_sqrt.md R173: two instances with one modulus and one root of unity that return different roots of 2; 24 = 41 - 17. -/
theorem test_sqrt_instances :
    toy41.root .field 2 = 17 ∧ ({ toy41 with otherRoots := [(41, 2)] } : Params).root .field 2 = 24 ∧
    ({ toy41 with otherRoots := [(41, 2)] } : Params).root .field 5 = 28 := by decide

theorem test_sqrt_method :
    sqrtMethod 13 = .atkin ∧ sqrtMethod 19 = .exp ∧ sqrtMethod 41 = .ts ∧ sOf 41 = 3 ∧ qOf 41 = 5 := by decide

/-! ### The point commands (95_test_vectors.md section 3.5) -/

theorem test_padd :
    answers (run 0x88020100 (pState (.affine 1 4) (.affine 2 7) true)) (fun t => t.readPR 2 == .affine 6 7 && t.cf && t.done) = true := by decide

theorem test_padd_opposite :
    answers (run 0x88020100 (pState (.affine 1 4) (.affine 1 9) false)) (fun t => t.readPR 2 == .identity) = true := by decide

theorem test_padda :
    answers (run 0x8C010000 (aState (.affine 2 7) (.affine 1 4))) (fun t => t.readPR 1 == .affine 6 7) = true := by decide

theorem test_padda_identity :
    answers (run 0x8C010000 (aState .identity (.affine 1 4))) (fun t => t.readPR 1 == .affine 1 4) = true := by decide

theorem test_pdbl :
    answers (run 0x90010000 (pState (.affine 2 7) .identity false)) (fun t => t.readPR 1 == .affine 10 1) = true := by decide

theorem test_pdbl_identity :
    answers (run 0x90010000 (pState .identity (.affine 1 4) false)) (fun t => t.readPR 1 == .identity) = true := by decide

theorem test_pneg :
    answers (run 0x94010000 (pState (.affine 1 4) .identity false)) (fun t => t.readPR 1 == .affine 1 9) = true := by decide

theorem test_pcneg_set :
    answers (run 0x98010000 (pState (.affine 1 4) .identity true)) (fun t => t.readPR 1 == .affine 1 9 && t.cf) = true := by decide

theorem test_pcneg_clear :
    answers (run 0x98010000 (pState (.affine 1 4) .identity false)) (fun t => t.readPR 1 == .affine 1 4) = true := by decide

theorem test_psel_clear :
    answers (run 0x9C020100 (pState (.affine 1 4) .identity false)) (fun t => t.readPR 2 == .affine 1 4) = true := by decide

theorem test_psel_set :
    answers (run 0x9C020100 (pState (.affine 1 4) (.affine 2 7) true)) (fun t => t.readPR 2 == .affine 2 7) = true := by decide

theorem test_pident :
    answers (run 0x80030000 ((pState .identity .identity true).writePR 3 (.affine 1 4))) (fun t => t.readPR 3 == .identity && t.cf) = true := by decide

theorem test_pgen :
    answers (run 0x84030000 (pState .identity .identity false)) (fun t => t.readPR 3 == .affine 1 4) = true := by decide

theorem test_pisid_identity :
    answers (run 0xA0000000 (pState .identity (.affine 1 4) false)) (fun t => t.cf) = true := by decide

theorem test_pisid_affine :
    answers (run 0xA0000000 (pState (.affine 1 4) .identity true)) (fun t => !t.cf) = true := by decide

theorem test_peq_same :
    answers (run 0xA4000100 (pState (.affine 2 7) (.affine 2 7) false)) (fun t => t.cf) = true := by decide

theorem test_peq_different :
    answers (run 0xA4000100 (pState (.affine 2 7) (.affine 2 6) true)) (fun t => !t.cf) = true := by decide

theorem test_toaff :
    answers (run 0xA8001000 (pState .identity (.affine 2 7) true)) (fun t => t.readAR 0 == .affine 2 7 && t.cf) = true := by decide

theorem test_toaff_identity :
    answers (run 0xA8000000 (aState (.affine 1 4) .identity)) (fun t => t.readAR 0 == .identity) = true := by decide

theorem test_fromaff :
    answers (run 0xAC000000 (aState (.affine 5 6) .identity)) (fun t => t.readPR 0 == .affine 5 6) = true := by decide

theorem test_aident :
    answers (run 0xB0000000 (aState (.affine 5 6) .identity)) (fun t => t.readAR 0 == .identity) = true := by decide

theorem test_agen : answers (run 0xB4010000 State.reset) (fun t => t.readAR 1 == .affine 1 4) = true := by decide

theorem test_aneg :
    answers (run 0xB8010000 (aState (.affine 1 4) .identity)) (fun t => t.readAR 1 == .affine 1 9) = true := by decide

theorem test_aisid_identity :
    answers (run 0xBC000000 (aState .identity (.affine 1 4))) (fun t => t.cf) = true := by decide

theorem test_aisid_affine :
    answers (run 0xBC000000 ((aState (.affine 1 4) .identity).setCF true)) (fun t => !t.cf) = true := by decide

theorem test_agetx :
    answers (run 0xC0010000 (aState (.affine 1 4) .identity)) (fun t => t.readFR 1 == 9) = true := by decide

theorem test_agetx_identity :
    answers (run 0xC0010000 ((aState .identity .identity).writeFR 1 5)) (fun t => t.readFR 1 == 0) = true := by decide

theorem test_agety :
    answers (run 0xC4020000 (aState (.affine 1 4) .identity)) (fun t => t.readFR 2 == 10) = true := by decide

theorem test_aset :
    answers (run 0xC8001200 (fState 9 10 false)) (fun t => t.readAR 0 == .affine 1 4 && t.cf) = true := by decide

theorem test_aset_off_curve :
    answers (run 0xC8001200 ((fState 9 6 true).writeAR 0 (.affine 1 4))) (fun t => t.readAR 0 == .identity && !t.cf && t.err == .ok) = true := by decide

theorem test_range_error_aset :
    failsWith .range (fState 9 14 true) (run 0xC8001200 (fState 9 14 true)) = true := by decide

/-! ### SEC1 forms (95_test_vectors.md section 3.6) -/

theorem test_penc_uncompressed :
    answers (run 0xCC000000 (aState (.affine 2 7) .identity)) (fun t => t.bufBytes 0 3 == [0x04, 0x02, 0x07] && t.buflen == 3) = true := by decide

theorem test_penc_compressed :
    answers (run 0xCC000010 (aState (.affine 2 7) .identity)) (fun t => t.bufBytes 0 3 == [0x03, 0x02, 0x00] && t.buflen == 2) = true := by decide

theorem test_pdec_compressed :
    answers (run 0xD0000000 (bState [0x03, 0x01] 2)) (fun t => t.readAR 0 == .affine 1 9 && t.cf) = true := by decide

theorem test_pdec_uncompressed_off_curve :
    answers (run 0xD0000000 (bState [0x04, 0x01, 0x05] 3)) (fun t => t.readAR 0 == .identity && !t.cf && t.err == .ok) = true := by decide

theorem test_pdec_refusals :
    ([([0x02, 0x00], 2, false), ([0x02, 0x0D], 2, false), ([0x00, 0x00], 2, true), ([0x00], 1, false),
      ([0x05, 0x01], 2, false), ([0x04, 0x01, 0x04], 2, false), ([0x02, 0x01], 0, false), ([0x02, 0x01], 9, false),
      ([0x06, 0x01, 0x04], 3, false)].all fun (c : List Byte × BitVec 8 × Bool) =>
        (sec1Decode (bState c.1 c.2.1) c.2.2) == none) = true := by decide

theorem test_pdec_accepts :
    sec1Decode (bState [0x00] 1) true = some .identity ∧
      sec1Decode (bState [0x04, 0x01, 0x04] 3) false = some (.affine 1 4) ∧
      sec1Decode (bState [0x02, 0x01] 2) false = some (.affine 1 4) := by decide

/-- The TOY41 rows: the tag picks the root, whichever of the two the instance returns. -/
theorem test_pdec_either_root :
    [([] : List (Nat × Nat)), [(41, 5)]].all (fun l =>
      decompress { toy41 with otherRoots := l } false 0 == some (.affine 0 28) &&
      decompress { toy41 with otherRoots := l } true 0 == some (.affine 0 13)) = true := by decide

/-! ### The scalar multiplier and the lookup table (95_test_vectors.md section 3.7) -/

theorem test_pmul :
    answers (run 0xE0010100 ((pState (.affine 2 7) .identity true).writeFR 1 4)) (fun t => t.readPR 1 == .affine 5 7 && t.cf) = true := by decide

theorem test_pmul_zero :
    answers (run 0xE0010100 ((pState (.affine 2 7) (.affine 1 4) true).writeFR 1 0)) (fun t => t.readPR 1 == .identity) = true := by decide

theorem test_pmulg :
    answers (run 0xE4011000 (fState 13 0 false)) (fun t => t.readPR 1 == .affine 1 9) = true := by decide

theorem test_lincomb :
    answers (run 0xE8020112 (((pState (.affine 1 4) (.affine 2 7) false).writeFR 1 18).writeFR 2 11)) (fun t => t.readPR 2 == .affine 4 12) = true := by decide

theorem test_lincomb_identity :
    answers (run 0xE8020112 (((pState (.affine 1 4) (.affine 2 7) false).writeFR 1 16).writeFR 2 11)) (fun t => t.readPR 2 == .identity) = true := by decide

theorem test_ltbuild :
    answers (run 0xEC000000 (pState (.affine 1 4) .identity false)) (fun t => t.readLT 0 == #v[.affine 1 4, .affine 2 7, .affine 6 7, .affine 10 1, .affine 5 6, .affine 4 1, .affine 9 4, .affine 3 9]
      && t.readLT 1 == Vector.replicate 8 .identity) = true := by decide

theorem test_ltsel_negative :
    answers (run 0xF0010FD0 (State.reset.writeLT 0 (Params.toy13.multiples (.affine 1 4)))) (fun t => t.readPR 1 == .affine 6 6) = true := by decide

theorem test_ltsel_minus_eight :
    answers (run 0xF0010F80 (State.reset.writeLT 0 (Params.toy13.multiples (.affine 1 4)))) (fun t => t.readPR 1 == .affine 3 4) = true := by decide

theorem test_recode :
    recode Params.toy13 8 = [-8, 1] ∧ recode Params.toy13 18 = [2, 1] ∧ recode Params.toy13 7 = [7, 0] := by decide

theorem test_digits_p256 : p256.digits = 65 ∧ Params.toy13.digits = 2 := by decide +kernel

/-- S10. -/
theorem test_p256_double :
    p256.add p256.generator p256.generator = .affine
      0x7CF27B188D034F7E8A52380304B51AC3C08969E277F21B35A60B48FC47669978
      0x7775510DB8ED040293D9AC69F7430DBBA7DADE63CE982299E04B79D227873D1 := by decide +kernel

/-- The transcription of 43_point.md R192 against R190, on every pair of elements. -/
theorem test_complete_formulas :
    ((List.range 19).all fun i => (List.range 19).all fun j =>
      let q := Params.toy13.nsmul i Params.toy13.generator
      let r := Params.toy13.nsmul j Params.toy13.generator
      (Params.toy13.completeAdd (.ofPoint q) (.ofPoint r)).toPoint Params.toy13 == Params.toy13.add q r) = true := by decide +kernel

/-! ### System commands -/

theorem test_nop :
    answers (run 0x00000000 (fState 1 6 true)) (fun t => t == { fState 1 6 true with done := true }) = true := by decide

theorem test_zeroize :
    answers (run 0xFC000000 ((((bState [1, 2] 2).writeFR 15 5).writePR 7 (.affine 1 4)).setCF true)) (fun t => t == { State.reset with done := true, cmd := 0xFC000000 }) = true := by decide

/-! ### The host interface, reset and hazards (95_test_vectors.md section 3.9) -/

/-- H1. -/
theorem test_read_id :
    answers (step (withInputs State.reset [.read 4 0x000])) (fun t => t.resp == some ⟨false, some 0⟩) = true := by decide

/-- H1. -/
theorem test_read_param0 :
    answers (step (withInputs State.reset [.read 4 0x004])) (fun t => t.resp == some ⟨false, some 0x02102001⟩) = true := by decide

/-- H1. -/
theorem test_read_param1 :
    answers (step (withInputs State.reset [.read 4 0x008])) (fun t => t.resp == some ⟨false, some 0x00050004⟩) = true := by decide

/-- 95_test_vectors.md section 1. -/
theorem test_param_words :
    param0Word toy41 = 0x02202001 ∧ param1Word toy41 = 0x00060006 ∧ param0Word p256 = 0x11804004 ∧
    param1Word p256 = 0x01000100 := by decide +kernel

/-- H2, H3. -/
theorem test_read_after_reset :
    ([0x00C, 0x010, 0x014, 0x018, 0x100, 0x104].all fun a =>
      answers (step (withInputs State.reset [.read 4 a])) (fun t => t.resp == some ⟨false, some 0⟩)) = true := by decide

/-- H4, H5, H6. -/
theorem test_unmapped_reads :
    ([(4, 0x108), (4, 0x002), (2, 0x010), (4, 0x020), (1, 0x100)].all fun (a : Nat × Nat) =>
      answers (step (withInputs State.reset [.read a.1 a.2])) (fun t => t.resp == some ⟨true, some 0⟩)) = true := by decide

/-- H7. -/
theorem test_write_id :
    answers (step (withInputs State.reset [.write 4 0x000 0x12345678])) (fun t => t == { State.reset with resp := some ⟨false, none⟩ }) = true := by decide

/-- H8. -/
theorem test_write_buf :
    answers (step (withInputs State.reset [.write 4 0x100 0x00000203])) (fun t => t.bufBytes 0 4 == [0x03, 0x02, 0x00, 0x00] && t.buf == [(0, 3), (1, 2)]) = true := by decide

/-- H9. -/
theorem test_write_cmd :
    answers (step (withInputs (fState 1 6 false) [.write 4 0x014 0x04031200])) (fun t => t.busy && t.inflight == some 0x04031200 && t.cmd == 0x04031200 && !t.done && t.readFR 3 == 0) = true := by decide

/-- H9. -/
theorem test_completion_status :
    answers (run 0x04031200 (fState 1 6 false)) (fun t => t.statusWord == 0x00000002 && !t.busy) = true := by decide

/-- H10. -/
theorem test_busy_write_dropped :
    answers (step (withInputs ((fState 1 6 false).accept 0) [.write 4 0x100 0x00000203])) (fun t => t.ovr && t.buf == [] && t.inflight == some 0) = true := by decide

/-- H11. -/
theorem test_busy_status_read :
    answers (step (withInputs ((fState 1 6 false).accept 0) [.read 4 0x010])) (fun t => t.resp == some ⟨false, some 1⟩) = true := by decide

/-- H12. -/
theorem test_status_write_clears :
    answers (step (withInputs { State.reset with done := true, errs := true, ovr := true, err := .failed .imm } [.write 4 0x010 0x00000302])) (fun t => !t.done && !t.errs && !t.ovr && t.err == .failed .imm) = true := by decide

/-- H13. -/
theorem test_irq_cleared :
    answers (step (withInputs { State.reset with done := true, ie := true } [.write 4 0x010 0x00000002])) (fun t => !t.irq && t.ie) = true := by decide

/-- H14. -/
theorem test_soft_reset :
    answers (step (withInputs (((fState 1 6 true).writePR 0 (.affine 1 4)).accept 0x88000100) [.write 4 0x00C 0x00000003])) (fun t => t == { State.reset with draws := 2, resp := some ⟨false, none⟩ }) = true := by decide

/-- H15. -/
theorem test_error_status :
    answers (run 0x88080100 (fState 1 6 true)) (fun t => t.statusWord == 0x00000136) = true := by decide

/-- 70_reset_and_hazards.md R300. -/
theorem test_host_reset :
    answers (step (withInputs ((fState 1 6 true).accept 0) [.reset])) (fun t => t == { State.reset with draws := 2 }) = true := by decide

/-! ### Witnesses: each statement's hypotheses are met -/

/-- A TOY13 state in which every register file and the buffer hold something, with inputs to come. -/
def demo (inputs : List Input) : State :=
  { State.reset with
    fr := #v[0, 1, 6, 13, 18, 12, 9, 4, 0, 0, 0, 0, 0, 0, 0, 0]
    pr := #v[.affine 1 4, .affine 2 7, .affine 1 9, .identity, .identity, .identity, .identity, .identity]
    ar := #v[.affine 1 4, .affine 2 7, .identity, .identity]
    lt := #v[Params.toy13.multiples (.affine 2 7), Vector.replicate 8 .identity]
    buf := [(0, 2), (1, 1)], buflen := 2, cmd := 0x04031200, ie := true, errs := true, inputs := inputs }

theorem toy13_legal : Params.toy13.Legal where
  word := by decide
  pPrime := by norm_num [Params.toy13]
  nPrime := by norm_num [Params.toy13]
  pAbove3 := by decide
  nOdd := by decide
  pBelowRadix := by decide
  nBelowRadix := by decide
  aBelow := by decide
  bBelow := by decide
  nonsingular := by decide
  generatorOnCurve := by decide
  generatorOrder := by decide
  bufWords := by decide
  bufPoint := by decide
  bufScalar := by decide
  bufMax := by decide
  baseAligned := by decide
  rootP := by decide
  rootN := by decide

theorem demo_inv (inputs : List Input) : (demo inputs).Inv where
  legal := toy13_legal
  frRange := by
    have h : ∀ i, (demo []).readFR i < 13 ∨ (demo []).readFR i < 19 := by decide
    exact h
  prOnCurve := by
    have h : ∀ i, Params.toy13.onCurve ((demo []).readPR i) = true := by decide
    exact h
  arOnCurve := by
    have h : ∀ i, Params.toy13.onCurve ((demo []).readAR i) = true := by decide
    exact h
  ltMultiples := by
    have h : ∀ t : TReg, ∃ b ∈ [Point.affine 2 7, .identity],
        Params.toy13.onCurve b = true ∧ (demo []).readLT t = Params.toy13.multiples b := by decide
    exact fun t => let ⟨b, _, hb⟩ := h t; ⟨b, hb⟩
  bufCanonical := by
    have h : Memory.wf (demo []).buf = true := by decide
    exact h
  bufWithin := by
    intro i hi
    have h : 8 ≤ i := hi
    simp [demo, State.bufByte, Memory.read, Memory.unlisted, show i ≠ 0 by omega, show i ≠ 1 by omega]
  inflightAccepted := by
    intro w h
    exact absurd h (by simp [demo, State.reset, State.resetOf])
  initBound := by
    have h : (demo []).init ≤ 0 := by decide
    exact h

/-- A curve of the tests' own with `n < p` (counted by hand: 7 elements), where a word of the field domain can be out of
range for `n`. -/
def toy11 : Params :=
  { w := 1, word := 32, p := 11, n := 7, a := 2, b := 7, gx := 6, gy := 2, byteOrder := .little, coord := .jacobian,
    rootP := 0, rootN := 0, otherRoots := [], bufBytes := 8, idValue := 0, baseAddr := 0, tInit := 0 }

theorem toy11_legal : toy11.Legal where
  word := by decide
  pPrime := by norm_num [toy11]
  nPrime := by norm_num [toy11]
  pAbove3 := by decide
  nOdd := by decide
  pBelowRadix := by decide
  nBelowRadix := by decide
  aBelow := by decide
  bBelow := by decide
  nonsingular := by decide
  generatorOnCurve := by decide
  generatorOrder := by decide
  bufWords := by decide
  bufPoint := by decide
  bufScalar := by decide
  bufMax := by decide
  baseAligned := by decide
  rootP := by decide
  rootN := by decide

theorem toy41_legal : toy41.Legal where
  word := by decide
  pPrime := by norm_num [toy41]
  nPrime := by norm_num [toy41]
  pAbove3 := by decide
  nOdd := by decide
  pBelowRadix := by decide
  nBelowRadix := by decide
  aBelow := by decide
  bBelow := by decide
  nonsingular := by decide
  generatorOnCurve := by decide
  generatorOrder := by decide
  bufWords := by decide
  bufPoint := by decide
  bufScalar := by decide
  bufMax := by decide
  baseAligned := by decide
  rootP := by decide
  rootN := by decide

/-- F1 holds 10 = p - 1, which is not below n. -/
def toy11State : State := (State.resetOf toy11).writeFR 1 10

theorem toy11_inv : toy11State.Inv where
  legal := toy11_legal
  frRange := by
    have h : ∀ i, toy11State.readFR i < 11 ∨ toy11State.readFR i < 7 := by decide
    exact h
  prOnCurve := by decide
  arOnCurve := by decide
  ltMultiples := by
    have h : ∀ t : TReg, toy11.onCurve .identity = true ∧ toy11State.readLT t = toy11.multiples .identity := by decide
    exact fun t => ⟨.identity, h t⟩
  bufCanonical := by decide
  bufWithin := fun _ _ => rfl
  inflightAccepted := by
    intro w h
    exact absurd h (by simp [toy11State, State.resetOf, State.writeFR])
  initBound := by decide

theorem witness_DecodeOfEncodeIsTheCommand : (Instr.ltsel 7 1 0xF8).wellFormed = true := by decide

theorem witness_EncodeOfDecodeIsTheWord : decode 0xFC000000 = .ok .zeroize := by decide

theorem witness_DecodeErrorsInPriority :
    (opOf 0x48000000 ∈ unassignedOpcodes) ∧
    (opOf 0x04131200 ∉ unassignedOpcodes ∧ wordReserved 0x04131200 = true) ∧
    (opOf 0x88080100 ∉ unassignedOpcodes ∧ wordReserved 0x88080100 = false ∧ wordBadIndex 0x88080100 = true) ∧
    (opOf 0xF0010090 ∉ unassignedOpcodes ∧ wordReserved 0xF0010090 = false ∧ wordBadIndex 0xF0010090 = false ∧
      wordBadImm 0xF0010090 = true) ∧
    (opOf 0xF0010F80 ∉ unassignedOpcodes ∧ wordReserved 0xF0010F80 = false ∧ wordBadIndex 0xF0010F80 = false ∧
      wordBadImm 0xF0010F80 = false) := by decide

theorem witness_StepRunsTheDecodedCommand :
    decode 0x88020100 = .ok (.padd 2 0 1) ∧ ((demo []).accept 0x88020100).inflight = some 0x88020100 ∧
    ((demo []).accept 0x88020100).inputs = [] ∧ ((demo [.core]).accept 0x88020100).inputs = [.core] := by decide

theorem witness_MalformedWordWritesStatusOnly :
    decode 0x48000000 = .error .illegal ∧
    ((demo []).accept 0x48000000).inflight = some 0x48000000 ∧ ((demo []).accept 0x48000000).inputs = [] ∧
    ((demo [.core, .reset]).accept 0x48000000).inputs = [.core, .reset] := by decide

theorem witness_CommandErrorsArePrecise :
    ∃ t, exec (.fadd .field 2 3 3) (demo []) = .next t ∧ t.err = .failed .range := ⟨_, rfl, by decide⟩

theorem witness_CompletionSetsStatus : ((demo []).accept 0xFFFFFFFF).inflight = some 0xFFFFFFFF := by decide

theorem witness_StepKeepsInvariant :
    ∃ t, (demo [.write 4 0x100 0x0403]).Inv ∧ step (demo [.write 4 0x100 0x0403]) = .next t := ⟨_, demo_inv _, rfl⟩

theorem witness_ResetStateHasInvariant : Params.toy13.Legal := toy13_legal

theorem witness_StepKeepsBuildParameters : ∃ t, step (demo [.reset]) = .next t := ⟨_, rfl⟩

theorem witness_OnlyListedCommandsWriteCF :
    ∃ t, exec (.setc 1) (demo []) = .next t ∧ t.cf ≠ (demo []).cf := ⟨_, rfl, by decide⟩

theorem witness_LookupTablesChangeOnlyByBuild :
    ∃ t, exec (.ltbuild 0 0) (demo []) = .next t ∧ t.readLT 0 ≠ (demo []).readLT 0 := ⟨_, rfl, by decide⟩

/-- 12 = p - 1 is in range for p and 13 = p is not. -/
theorem witness_FieldAdditionCommands :
    (demo []).cfg.Legal ∧ (demo []).readFR 5 = 12 ∧
    (demo []).InRange .field 5 ∧ (demo []).InRange .field 1 ∧ ¬(demo []).InRange .field 3 := ⟨toy13_legal, by unfold State.InRange; decide⟩

/-- `inv_n(R) = 16` for TOY13. -/
theorem witness_MontgomeryProductCommands :
    (demo []).cfg.Legal ∧ (demo []).InRange .scalar 4 ∧ (demo []).InRange .scalar 1 ∧
    ¬(demo []).InRange .field 4 ∧ (16 < 19 ∧ 16 * (demo []).cfg.radix % (demo []).modulus .scalar = 1) := ⟨toy13_legal, by unfold State.InRange; decide⟩

/-- `inv_p(R) = 3` for TOY13. -/
theorem witness_MontgomeryConversionCommands :
    (demo []).cfg.Legal ∧ (demo []).InRange .field 5 ∧ ¬(demo []).InRange .field 3 ∧
    (3 < 13 ∧ 3 * (demo []).cfg.radix % (demo []).modulus .field = 1) := ⟨toy13_legal, by unfold State.InRange; decide⟩

theorem witness_SmallConstantLoad : (demo []).cfg.Legal := toy13_legal

theorem witness_ConditionalFieldCommands :
    ((demo []).InRange .field 1 ∧ (demo []).InRange .field 2 ∧ (demo []).cf = false) ∧
    (((demo []).setCF true).InRange .field 1 ∧ ((demo []).setCF true).InRange .field 2 ∧ ((demo []).setCF true).cf = true) ∧
    ¬(demo []).InRange .field 3 := by unfold State.InRange; decide

theorem witness_FieldPredicateCommands :
    (demo []).cfg.Legal ∧ (demo []).InRange .field 0 ∧ (demo []).InRange .field 5 ∧
    ¬(demo []).InRange .field 3 := ⟨toy13_legal, by unfold State.InRange; decide⟩

theorem witness_SetChoiceFlagCommand :
    (0 : BitVec 8).toNat ≤ 1 ∧ (1 : BitVec 8).toNat ≤ 1 ∧ 1 < (2 : BitVec 8).toNat := by decide

theorem witness_FieldByteFormOfIntegers : 1 < 2 ∧ 0xFFFF < 2 ^ (8 * 2) := by decide

theorem witness_FieldDecodeCommands :
    (demo []).cfg.Legal ∧
    (fromBytes .big ((bState [0x0C] 0).bufBytes 0 1) < 13 ∧ 13 ≤ fromBytes .big ((bState [0x0D] 0).bufBytes 0 1)) := ⟨toy13_legal, by decide⟩

theorem witness_FieldEncodeCommand :
    (demo []).Inv ∧ (demo []).InRange .field 5 ∧ ¬(demo []).InRange .field 3 := ⟨demo_inv [], by unfold State.InRange; decide⟩

theorem witness_FieldEncodingRoundTrip :
    (demo []).Inv ∧ (demo []).InRange .scalar 4 := ⟨demo_inv [], by unfold State.InRange; decide⟩

theorem witness_FieldInverseCommand :
    (demo []).cfg.Legal ∧ (demo []).InRange .field 0 ∧ (demo []).readFR 0 = 0 ∧ (demo []).InRange .field 5 ∧
    (demo []).readFR 5 ≠ 0 ∧ ¬(demo []).InRange .field 3 := ⟨toy13_legal, by unfold State.InRange; decide⟩

theorem witness_DivstepInvariant : 13 % 2 = 1 ∧ 1 < 13 := by decide

theorem witness_InverseEngineGivesTheInverse :
    Params.toy13.Legal ∧ 0 < 13 ∧ 12 < 13 ∧
    ((inverterRun 13 12).g = 0 ∧ (inverterRun 13 12).f = 1) ∧ ((inverterRun 13 9).g = 0 ∧ (inverterRun 13 9).f = -1) := ⟨toy13_legal, by decide⟩

theorem witness_SquareRootCommand :
    (demo []).cfg.Legal ∧ (demo []).InRange .field 5 ∧ ¬(demo []).InRange .field 3 ∧
    (demo []).InRange .scalar 3 ∧ (demo []).modulus .field % 8 = 5 ∧ (demo []).modulus .scalar % 4 = 3 ∧ (State.resetOf toy41).cfg.Legal ∧
    (State.resetOf toy41).InRange .field 0 ∧ (State.resetOf toy41).modulus .field % 8 = 1 := ⟨toy13_legal, by unfold State.InRange; decide, by unfold State.InRange; decide, by unfold State.InRange; decide,
    by decide, by decide, toy41_legal, by unfold State.InRange; decide, by decide⟩

theorem witness_ExpAndAtkinFindRoots :
    (Nat.Prime 19 ∧ 4 < 19 ∧ IsResidue 19 4 ∧ 19 % 4 = 3) ∧ (Nat.Prime 13 ∧ 10 < 13 ∧ IsResidue 13 10 ∧ 13 % 8 = 5) := ⟨⟨by norm_num, by decide, ⟨17, by decide⟩, rfl⟩, ⟨by norm_num, by decide, ⟨7, by decide⟩, rfl⟩⟩

theorem witness_TonelliShanksFindsRoots :
    Nat.Prime 41 ∧ 41 % 8 = 1 ∧ 38 < 41 ∧ 38 ^ 2 ^ sOf 41 % 41 = 1 ∧ 38 ^ 2 ^ (sOf 41 - 1) % 41 ≠ 1 ∧ 2 < 41 ∧
    IsResidue 41 2 := ⟨by norm_num, by decide, by decide, by decide, by decide, by decide, ⟨17, by decide⟩⟩

/-- Opposite points, one point twice (the tangent), and two points (the chord). -/
theorem witness_PointAdditionIsTheGroupLaw :
    Params.toy13.Legal ∧ Params.toy13.onCurve (.affine 1 4) = true ∧ Params.toy13.onCurve (.affine 2 7) = true ∧
    Params.toy13.onCurve (.affine 1 9) = true ∧ (1 = 1 ∧ (4 + 9) % Params.toy13.p = 0) ∧
    ¬(1 = 1 ∧ (4 + 4) % Params.toy13.p = 0) ∧ ¬(1 = 2 ∧ (4 + 7) % Params.toy13.p = 0) := ⟨toy13_legal, by decide⟩

theorem witness_ProjectiveMoveCommands : (demo []).cf = false ∧ ((demo []).setCF true).cf = true := by decide

theorem witness_AffineCoordinateCommands :
    (demo []).readAR 2 = .identity ∧ (demo []).readAR 1 = .affine 2 7 := by decide

theorem witness_AffineFromCoordinatesCommand :
    (demo []).cfg.Legal ∧ (demo []).InRange .field 6 ∧ (demo []).InRange .field 5 ∧ ¬(demo []).InRange .field 3 := ⟨toy13_legal, by unfold State.InRange; decide⟩

theorem witness_PointEncodeCommand :
    (demo []).Inv ∧ (0 : BitVec 8).toNat ≤ 1 ∧ (1 : BitVec 8).toNat ≤ 1 ∧ 1 < (2 : BitVec 8).toNat ∧
    (demo []).readAR 2 = .identity ∧ (demo []).readAR 0 = .affine 1 4 ∧ (demo []).readAR 1 = .affine 2 7 ∧
    4 % 2 = 0 ∧ 7 % 2 = 1 := ⟨demo_inv [], by decide⟩

theorem witness_PointDecodeCommand :
    (demo []).cfg.Legal ∧ (1 : BitVec 8).toNat ≤ 1 ∧ 1 < (2 : BitVec 8).toNat ∧
    ((bState [0x00] 1).buflen.toNat = 1 ∧ (bState [0x00] 1).bufByte 0 = 0x00) ∧
    ((demo []).buflen.toNat = 1 + (demo []).cfg.fb .field ∧ (demo []).bufByte 0 = 0x02) ∧
    ((bState [0x04, 0x01, 0x04] 3).buflen.toNat = 1 + 2 * Params.toy13.fb .field ∧
      (bState [0x04, 0x01, 0x04] 3).bufByte 0 = 0x04) ∧
    ((bState [0x06, 0x01, 0x04] 3).buflen.toNat ≠ 1 ∧ (bState [0x06, 0x01, 0x04] 3).bufByte 0 ≠ 0x04) := ⟨toy13_legal, by decide⟩

theorem witness_CompressedDecodeIsComplete :
    (demo []).cfg.Legal ∧ (0 : BitVec 8).toNat ≤ 1 ∧ (demo []).buflen.toNat = 1 + (demo []).cfg.fb .field ∧
    ((demo []).bufByte 0 = 0x02 ∨ (demo []).bufByte 0 = 0x03) := ⟨toy13_legal, by decide⟩

theorem witness_PointEncodingRoundTrip : (demo []).Inv ∧ (1 : BitVec 8).toNat ≤ 1 := ⟨demo_inv [], by decide⟩

theorem witness_RecodedDigitsSumToTheScalar :
    Params.toy13.Legal ∧ 18 < Params.toy13.n ∧ 0 < (recode Params.toy13 18).length ∧ 0 + 1 < Params.toy13.digits ∧
    Params.toy13.digits - 1 < (recode Params.toy13 18).length := ⟨toy13_legal, by decide⟩

theorem witness_ScalarMultiplicationCommands :
    ((demo []).Inv ∧ (demo []).InRange .scalar 4 ∧ (demo []).InRange .scalar 3) ∧
    (toy11State.Inv ∧ ¬toy11State.InRange .scalar 1) := ⟨⟨demo_inv [], by unfold State.InRange; decide⟩, toy11_inv, by unfold State.InRange; decide⟩

theorem witness_LookupTableSelectCommand :
    (-8 ≤ (0xF8 : BitVec 8).toInt ∧ (0xF8 : BitVec 8).toInt = -(((7 : Nat) : Int) + 1)) ∧
    ((8 : BitVec 8).toInt ≤ 8 ∧ (8 : BitVec 8).toInt = ((7 : Nat) : Int) + 1) ∧ (0 : BitVec 8).toInt = 0 ∧
    (0xF7 : BitVec 8).toInt < -8 ∧ 8 < (9 : BitVec 8).toInt := by decide

theorem witness_SystemCommands :
    opOf 0x00000000 = 0x00 ∧ opOf 0x00000001 = 0x00 ∧ opOf 0xFC000000 = 0x3F ∧ opOf 0xFE000000 = 0x3F := by decide

theorem witness_CommandAcceptance :
    (demo [.write 4 0x014 0xFC000000]).inputs = [.write 4 ((demo []).cfg.baseAddr + 0x014) 0xFC000000] ∧
    (demo [.write 4 0x014 0xFC000000]).busy = false := by decide

/-- At the last mapped buffer word of TOY13. -/
theorem witness_BusyWritesAreDropped :
    ((demo [.write 4 0x104 1]).accept 0).cfg.Legal ∧
    ((demo [.write 4 0x104 1]).accept 0).inputs = [.write 4 ((demo []).cfg.baseAddr + 0x104) 1] ∧
    ((demo [.write 4 0x104 1]).accept 0).busy = true ∧ (1 < (demo []).cfg.bufBytes / 4 ∧ 0x104 = 0x100 + 4 * 1) := ⟨toy13_legal, by decide⟩

theorem witness_HostReadsReturnTheRegisters :
    (demo [.read 4 0x104]).cfg.Legal ∧
    (demo [.read 4 0x104]).inputs = [.read 4 ((demo []).cfg.baseAddr + 0x104)] ∧
    (1 < (demo []).cfg.bufBytes / 4 ∧ 3 < 4 ∧ 0x104 = 0x100 + 4 * 1 ∧ (demo [.read 4 0x104]).busy = false) ∧
    (demo [.read 4 0x018]).inputs = [.read 4 ((demo []).cfg.baseAddr + 0x018)] := ⟨toy13_legal, by decide⟩

theorem witness_ParameterRegistersShowTheBuild :
    (demo [.read 4 0x004]).cfg.Legal ∧ (demo [.read 4 0x004]).cfg.w < 256 ∧
    (demo [.read 4 0x004]).inputs = [.read 4 ((demo []).cfg.baseAddr + 0x004)] ∧
    ((demo []).cfg.p % 8 = 5 ∧ (demo []).cfg.n % 4 = 3 ∧ toy41.p % 8 = 1) := ⟨toy13_legal, by decide⟩

theorem witness_ResetValues :
    (demo [.reset]).inputs = [.reset] ∧
    (demo [.write 4 0x00C 3]).inputs = [.write 4 ((demo []).cfg.baseAddr + 0x00C) 3] ∧ (3 : BitVec 32).getLsbD 1 = true := by decide

theorem witness_ControlAndBufferWrites :
    (demo [.write 4 0x00C 1]).Inv ∧
    (demo [.write 4 0x00C 1]).inputs = [.write 4 ((demo []).cfg.baseAddr + 0x00C) 1] ∧
    (1 : BitVec 32).getLsbD 1 = false ∧ (demo [.write 4 0x018 1]).busy = false ∧
    (1 < (demo []).cfg.bufBytes / 4 ∧ 0x104 = 0x100 + 4 * 1) := ⟨demo_inv _, by decide⟩

theorem witness_UnmappedAccessesAnswerErrors :
    (demo [.read 4 0x108]).cfg.Legal ∧ 0x108 < 0x200 ∧ 0x100 + (demo []).cfg.bufBytes ≤ 0x108 ∧
    (demo [.read 4 0x108]).inputs = [.read 4 ((demo []).cfg.baseAddr + 0x108)] ∧
    (demo [.write 2 0x100 0]).inputs = [.write 2 ((demo []).cfg.baseAddr + 0x100) 0] := ⟨toy13_legal, by decide⟩

theorem witness_HostReadsHaveNoSideEffect : (demo [.read 1 3]).inputs = [.read 1 3] := by decide

theorem witness_InterruptFollowsDoneAndEnable :
    (((demo []).accept 0).inflight = some 0 ∧ ((demo []).accept 0).ie = true) ∧
    ((demo [.write 4 0x010 2]).inputs = [.write 4 ((demo []).cfg.baseAddr + 0x010) 2] ∧ (2 : BitVec 32).getLsbD 1 = true) ∧
    ((demo [.write 4 0x00C 0]).inputs = [.write 4 ((demo []).cfg.baseAddr + 0x00C) 0] ∧ (0 : BitVec 32).getLsbD 0 = false) ∧
    ((demo [.write 4 0x014 0]).inputs = [.write 4 ((demo []).cfg.baseAddr + 0x014) 0] ∧ (demo [.write 4 0x014 0]).busy = false) ∧
    (demo [.reset]).inputs = [.reset] ∧
    ((demo [.write 4 0x00C 3]).inputs = [.write 4 ((demo []).cfg.baseAddr + 0x00C) 3] ∧ (3 : BitVec 32).getLsbD 1 = true) := by decide

theorem witness_IdleCoreKeepsState :
    (demo []).inflight = none ∧ (demo []).init = 0 ∧ 0 < ({ demo [] with init := 2 } : State).init := by decide

theorem witness_MontgomeryReductionGivesTheProduct :
    Params.toy13.Legal ∧ 12 < Params.toy13.modulus .field ∧ 18 < Params.toy13.modulus .scalar := ⟨toy13_legal, by decide⟩

end Sys2Proof.Tests
end

section
/-!
PROOFS. What a step is, by the order of inputs and the command in flight (10_state.md R37, 20_memory.md R63).
-/

namespace Sys2Proof.Machine

theorem step_of_no_inputs {s : State} (hin : s.inputs = []) : step s = coreStep s := by
  rw [step, hin]

theorem step_of_inputs {s : State} {i : Input} {rest : List Input} (hin : s.inputs = i :: rest) :
    step s = inputStep i { s with inputs := rest } := by
  rw [step, hin]

theorem completeWord_of_decode {w : CmdWord} {i : Instr} (hd : decode w = .ok i) (s : State) :
    completeWord w s = exec i s := by
  rw [completeWord, hd]

theorem coreStep_of_inflight {s : State} {w : CmdWord} (hw : s.inflight = some w) :
    coreStep s = completeWord w s := by
  rw [coreStep, hw]

/-- Settles O5: either form of the order reaches the core's step, which completes the word in flight. -/
theorem stepRunsTheDecodedCommand : Obligations.StepRunsTheDecodedCommand := by
  intro s w i hw hd
  have hcore {u : State} (hu : u.inflight = some w) : coreStep u = exec i u := by
    rw [coreStep_of_inflight hu, completeWord_of_decode hd]
  refine ⟨fun hin => ?_, fun rest hin => ?_⟩
  · rw [step_of_no_inputs hin, hcore hw]
  · rw [step_of_inputs hin]
    exact hcore hw

end Sys2Proof.Machine
end

section
/-!
PROOFS. The invariant of the machine (10_state.md R23, R28, R30, R33): every value a command writes is in range, on the
curve, a table of multiples or within the buffer; every named update of the state keeps the invariant; so does a step.
-/

namespace Sys2Proof

/-! ### Values a command writes into a field register are below the modulus (10_state.md R23) -/

theorem sqrtAtkin_lt {m : Nat} (hm : 0 < m) (a : Nat) : sqrtAtkin m a < m := Nat.mod_lt _ hm

theorem tonelliLoop_lt {m rounds M c t x : Nat} (hx : x < m) : tonelliLoop m rounds M c t x < m := by
  induction rounds generalizing M c t x with
  | zero => exact hx
  | succ rounds ih =>
    unfold tonelliLoop
    split
    · exact hx
    · split
      · exact hx
      · exact ih (Nat.mod_lt _ (Nat.zero_lt_of_lt hx))

theorem sqrtTonelli_lt {m : Nat} (hm : 0 < m) (z a : Nat) : sqrtTonelli m z a < m := by
  unfold sqrtTonelli
  split
  · exact hm
  · exact tonelliLoop_lt (powMod_lt hm _ _)

theorem sqrtTs_lt {m : Nat} (hm : 0 < m) (other : Bool) (z a : Nat) : sqrtTs other m z a < m := by
  cases other
  · exact sqrtTonelli_lt hm z a
  · exact subMod_lt hm _ _

namespace Params

/-- Each of the three methods gives a candidate below the modulus (42_sqrt.md R170). -/
theorem root_lt {c : Params} (h : c.Legal) (d : Domain) (a : Nat) : c.root d a < c.modulus d := by
  have hm := modulus_pos h d
  unfold root
  dsimp only
  split
  · exact powMod_lt hm _ _
  · exact sqrtAtkin_lt hm a
  · exact sqrtTs_lt hm _ _ a

/-- An initialisation lasts at most `T_INIT` (70_reset_and_hazards.md R302). -/
theorem initAfterReset_le (c : Params) (draw : Nat) : c.initAfterReset draw ≤ c.tInit := by
  unfold initAfterReset
  split
  · exact Nat.zero_le _
  · exact Nat.lt_succ_iff.1 (Nat.mod_lt _ (Nat.succ_pos _))

/-! ### Points a command writes lie on the curve (10_state.md R28) -/

theorem onCurve_of_coords {c : Params} {x y : Nat} (hx : x < c.p) (hy : y < c.p) (h : c.onCurveXY x y = true) :
    c.onCurve (.affine x y) = true := by
  simp [onCurve, hx, hy, h]

theorem onCurve_mem_multiples {c : Params} (h : c.Legal) {q r : Point} (hq : c.onCurve q = true)
    (hr : r ∈ c.multiples q) : c.onCurve r = true := by
  obtain ⟨j, hj, rfl⟩ := Vector.getElem_of_mem hr
  simpa [multiples] using onCurve_nsmul h hq (j + 1)

theorem nsmul_identity (c : Params) (k : Nat) : c.nsmul k .identity = .identity := by
  induction k with
  | zero => rfl
  | succ k ih => rw [nsmul, ih]; rfl

/-- A cleared table is the table of the identity (70_reset_and_hazards.md R300, 10_state.md R30). -/
theorem multiples_identity (c : Params) : c.multiples .identity = Vector.replicate 8 .identity := by
  ext j hj
  simp [multiples, nsmul_identity]

end Params

namespace Machine

open Params

/-- A word that is one of two words below the modulus. -/
theorem ite_lt {m x y : Nat} (b : Bool) (hx : x < m) (hy : y < m) : (if b then x else y) < m := by
  cases b
  · exact hy
  · exact hx

theorem State.lt_p_or_lt_n_of_lt_modulus {s : State} {d : Domain} {w : Nat} (hw : w < s.modulus d) :
    w < s.cfg.p ∨ w < s.cfg.n := by
  cases d
  · exact .inl hw
  · exact .inr hw

theorem selectCF_lt {m x y : Nat} (cf : Bool) (hx : x < m) (hy : y < m) : selectCF cf x y < m := ite_lt cf hy hx

variable {c : Params}

theorem onCurve_selectCF {q r : Point} (cf : Bool) (hq : c.onCurve q = true) (hr : c.onCurve r = true) :
    c.onCurve (selectCF cf q r) = true := by
  cases cf
  · exact hq
  · exact hr

theorem onCurve_selectDigit (h : c.Legal) {table : Vector Point 8} (ht : ∀ q ∈ table, c.onCurve q = true)
    (e : Int) : c.onCurve (selectDigit c table e) = true := by
  have hsel : c.onCurve (if e = 0 then .identity else table.toList.getD (e.natAbs - 1) .identity) = true := by
    split
    · rfl
    · rw [List.getD_eq_getElem?_getD]
      cases hg : table.toList[e.natAbs - 1]? with
      | none => rfl
      | some q => exact ht q (Vector.mem_toList_iff.1 (List.mem_of_getElem? hg))
  unfold selectDigit
  dsimp only
  split
  · exact onCurve_neg h hsel
  · exact hsel

theorem onCurve_times16 (h : c.Legal) {q : Point} (hq : c.onCurve q = true) : c.onCurve (times16 c q) = true := by
  have double {r : Point} (hr : c.onCurve r = true) : c.onCurve (c.add r r) = true := onCurve_add h hr hr
  exact double (double (double (double hq)))

/-- A fold whose step keeps points on the curve ends on the curve. -/
theorem onCurve_foldl {α : Type} {f : Point → α → Point} (hf : ∀ q e, c.onCurve q = true → c.onCurve (f q e) = true)
    (es : List α) {q : Point} (hq : c.onCurve q = true) : c.onCurve (es.foldl f q) = true := by
  induction es generalizing q with
  | nil => exact hq
  | cons e es ih => exact ih (hf q e hq)

theorem onCurve_windowMul (h : c.Legal) (k : Nat) {q : Point} (hq : c.onCurve q = true) :
    c.onCurve (windowMul c k q) = true :=
  onCurve_foldl (fun _ e hacc => onCurve_add h (onCurve_times16 h hacc)
    (onCurve_selectDigit h (fun _ => onCurve_mem_multiples h hq) e)) _ rfl

theorem onCurve_windowLincomb (h : c.Legal) (k1 k2 : Nat) {q1 q2 : Point} (h1 : c.onCurve q1 = true)
    (h2 : c.onCurve q2 = true) : c.onCurve (windowLincomb c k1 q1 k2 q2) = true :=
  onCurve_foldl (fun _ e hacc => onCurve_add h
    (onCurve_add h (onCurve_times16 h hacc) (onCurve_selectDigit h (fun _ => onCurve_mem_multiples h h1) e.1))
    (onCurve_selectDigit h (fun _ => onCurve_mem_multiples h h2) e.2)) _ rfl

/-- Whichever root has the parity asked for, it is one of a point with the given `x` (43_point.md R214). -/
theorem onCurve_decompress (h : c.Legal) {odd : Bool} {x : Nat} {q : Point} (hq : decompress c odd x = some q) :
    c.onCurve q = true := by
  simp only [decompress, Option.ite_none_right_eq_some, Option.some.injEq] at hq
  obtain ⟨hx, hvalid, -, rfl⟩ := hq
  have hroot : c.onCurve (.affine x (c.root .field (c.curveRhs x))) = true :=
    onCurve_of_coords hx (root_lt h .field _) hvalid
  split
  · exact hroot
  · exact onCurve_neg h hroot

theorem onCurve_checkedPoint {x y : Nat} {q : Point} (hq : checkedPoint c x y = some q) : c.onCurve q = true := by
  simp only [checkedPoint, Option.ite_none_right_eq_some, Option.some.injEq] at hq
  obtain ⟨⟨hx, hy, hcurve⟩, rfl⟩ := hq
  exact onCurve_of_coords hx hy hcurve

/-- Whatever the buffer holds, PDEC writes a point of the curve (43_point.md R214). -/
theorem onCurve_sec1Decode {s : State} (h : s.cfg.Legal) (allow : Bool) :
    s.cfg.onCurve ((sec1Decode s allow).getD .identity) = true := by
  cases hq : sec1Decode s allow with
  | none => rfl
  | some q =>
    simp only [Option.getD_some]
    unfold sec1Decode at hq
    dsimp only at hq
    split at hq
    · cases allow <;> cases hq
      rfl
    · split at hq
      · exact onCurve_decompress h hq
      · split at hq
        · exact onCurve_checkedPoint hq
        · cases hq

/-! ### Encodings fit the buffer (10_state.md R33) -/

theorem length_valueBytes_le_bufBytes {s : State} (h : s.cfg.Legal) (d : Domain) (v : Nat) :
    (s.valueBytes d v).length ≤ s.cfg.bufBytes := by
  rw [State.valueBytes, toBytes_length]
  cases d with
  | field => have := h.bufPoint; omega
  | scalar => exact h.bufScalar

theorem length_sec1Encode_le_bufBytes {s : State} (h : s.cfg.Legal) (compressed : Bool) (q : Point) :
    (sec1Encode s compressed q).length ≤ s.cfg.bufBytes := by
  have hpoint := h.bufPoint
  cases q with
  | identity => simp only [sec1Encode, List.length_singleton]; omega
  | affine x y =>
    cases compressed <;>
      simp only [sec1Encode, State.valueBytes, Bool.false_eq_true, if_false, if_true, List.length_cons,
        List.length_append, toBytes_length] <;> omega

/-- A buffer word that the window maps lies within BUF_BYTES (20_memory.md R57). -/
theorem bufWord_mapped {bytes addr i : Nat} (h : accessReg c bytes addr = some (.bufWord i)) :
    4 * i + 4 ≤ c.bufBytes := by
  have hreg : hostReg c (addr - c.baseAddr) = some (.bufWord i) := (Option.ite_none_right_eq_some.1 h).2
  unfold hostReg at hreg
  split_ifs at hreg <;> cases hreg
  omega

end Machine

end Sys2Proof

/-! ### Every named update of the state keeps the invariant -/

namespace Sys2Proof.Machine.State.Inv

open Params

variable {s : State}

theorem writeFR (h : s.Inv) {i : FReg} (d : Domain) {w : Nat} (hw : w < s.modulus d) : (s.writeFR i w).Inv :=
  { h with
    frRange := fun j => by
      rw [readFR_writeFR]
      split
      · exact lt_p_or_lt_n_of_lt_modulus hw
      · exact h.frRange j }

theorem drawHidden (h : s.Inv) : s.drawHidden.Inv := { h with }

theorem setCF (h : s.Inv) (b : Bool) : (s.setCF b).Inv := { h with }

theorem storePR (h : s.Inv) {i : PReg} {q : Point} (hq : s.cfg.onCurve q = true) : (s.storePR i q).Inv :=
  { h with
    prOnCurve := fun j => by
      rw [readPR_storePR]
      split
      · exact hq
      · exact h.prOnCurve j }

theorem writeAR (h : s.Inv) {i : AReg} {q : Point} (hq : s.cfg.onCurve q = true) : (s.writeAR i q).Inv :=
  { h with
    arOnCurve := fun j => by
      rw [readAR_writeAR]
      split
      · exact hq
      · exact h.arOnCurve j }

theorem writeLT_multiples (h : s.Inv) {i : TReg} {q : Point} (hq : s.cfg.onCurve q = true) :
    (s.writeLT i (s.cfg.multiples q)).Inv :=
  { h with
    ltMultiples := fun j => by
      rw [readLT_writeLT]
      split
      · exact ⟨q, hq, rfl⟩
      · exact h.ltMultiples j }

theorem storeBuf (h : s.Inv) {k : Nat} {bs : List Byte} (hlen : k + bs.length ≤ s.cfg.bufBytes) :
    (s.storeBuf k bs).Inv :=
  { h with
    bufCanonical := Memory.writeBytes_keeps_wf k bs h.bufCanonical
    bufWithin := fun i hi => by
      rw [bufByte_storeBuf_outside s k bs i (.inr (Nat.le_trans hlen hi))]
      exact h.bufWithin i hi }

theorem storeEncoding (h : s.Inv) {bs : List Byte} (hlen : bs.length ≤ s.cfg.bufBytes) :
    (s.storeEncoding bs).Inv :=
  { h.storeBuf (k := 0) (by omega) with }

/-- Registers, tables and buffer as a reset leaves them meet the invariant (70_reset_and_hazards.md R300). -/
theorem zeroized (h : s.Inv) : s.zeroized.Inv :=
  { h with
    frRange := fun i => .inl (by rw [readFR_zeroized]; exact h.legal.pPrime.pos)
    prOnCurve := fun i => by rw [readPR_zeroized]; rfl
    arOnCurve := fun i => by rw [readAR_zeroized]; rfl
    ltMultiples := fun t => ⟨.identity, rfl, by rw [readLT_zeroized, multiples_identity]⟩
    bufCanonical := rfl
    bufWithin := fun _ _ => rfl }

theorem completed (h : s.Inv) : s.completed.Inv := { h with inflightAccepted := nofun }

theorem failed (h : s.Inv) (e : CmdError) : (s.failed e).Inv := { h with inflightAccepted := nofun }

theorem respond (h : s.Inv) (r : Response) : (s.respond r).Inv := { h with }

theorem nextDraw (h : s.Inv) : s.nextDraw.Inv := { h with }

theorem dropWrite (h : s.Inv) : s.dropWrite.Inv := { h with }

theorem withInputs (h : s.Inv) (rest : List Input) : ({ s with inputs := rest } : State).Inv := { h with }

/-- One cycle of initialisation passes (70_reset_and_hazards.md R302). -/
theorem countDown (h : s.Inv) : ({ s with init := s.init - 1 } : State).Inv :=
  { h with
    inflightAccepted := fun w hw => by
      obtain ⟨hcmd, hdone, hinit⟩ := h.inflightAccepted w hw
      exact ⟨hcmd, hdone, Nat.sub_eq_zero_of_le (by omega)⟩
    initBound := Nat.le_trans (Nat.sub_le _ _) h.initBound }

theorem performReset (h : s.Inv) : s.performReset.Inv :=
  { h.zeroized with
    inflightAccepted := nofun
    initBound := initAfterReset_le s.cfg s.draws }

/-! ### A command keeps the invariant -/

/-- A range-checked command has its sources in range where it writes. -/
theorem rangeChecked (h : s.Inv) {m : Nat} {sources : List Nat} {t u : State}
    (ht : (∀ w ∈ sources, w < m) → t.Inv) (hu : rangeChecked m sources s t = .next u) : u.Inv := by
  obtain ⟨hin, heq⟩ | ⟨-, heq⟩ := rangeChecked_cases m sources s t
  · cases heq.symm.trans hu
    exact (ht hin).completed
  · cases heq.symm.trans hu
    exact h.failed _

theorem immChecked (h : s.Inv) {legal : Bool} {t u : State} (ht : t.Inv)
    (hu : immChecked legal s t = .next u) : u.Inv := by
  cases legal <;> cases hu
  · exact h.failed _
  · exact ht.completed

theorem onCurve_readLT (h : s.Inv) (k : TReg) : ∀ q ∈ s.readLT k, s.cfg.onCurve q = true := by
  obtain ⟨base, hbase, htable⟩ := h.ltMultiples k
  rw [htable]
  exact fun _ => onCurve_mem_multiples h.legal hbase

/-- ASET writes the pair only where it satisfies the curve equation (43_point.md R211). -/
theorem onCurve_checkedPair (h : s.Inv) (ra rb : FReg) :
    s.cfg.onCurve (if s.cfg.onCurveXY (s.value .field ra) (s.value .field rb) then
      .affine (s.value .field ra) (s.value .field rb) else .identity) = true := by
  split
  · next hxy => exact onCurve_of_coords (val_lt h.legal.pPrime.pos _) (val_lt h.legal.pPrime.pos _) hxy
  · rfl

/-- Whatever the command, the state it completes in has the invariant (10_state.md R23, R28, R30, R33). -/
theorem exec (h : s.Inv) (i : Instr) {t : State} (ht : exec i s = .next t) : t.Inv := by
  have hpos := fun d => modulus_pos h.legal d
  cases i
  case nop => cases ht; exact h.completed
  case zeroize => cases ht; exact h.zeroized.completed
  -- the field engine: a result is a residue, 0 or a source in range
  case fadd d _ _ _ | fsub d _ _ _ | fneg d _ _ | fmul d _ _ _ | fsqr d _ _ | fdbl d _ _ | ftom d _ _ | ffromm d _ _ =>
    exact h.rangeChecked (fun _ => h.writeFR d (Nat.mod_lt _ (hpos d))) ht
  case fldk d _ _ | fred d _ => cases ht; exact (h.writeFR d (Nat.mod_lt _ (hpos d))).completed
  case fdec d _ =>
    cases ht
    exact ((h.writeFR d (ite_lt _ (mont_lt (hpos d) _) (hpos d))).setCF _).completed
  case fsel d _ _ _ =>
    exact h.rangeChecked (fun hin => h.writeFR d (selectCF_lt _ (hin _ (by simp)) (hin _ (by simp)))) ht
  case fcneg d _ _ =>
    exact h.rangeChecked (fun hin => h.writeFR d (selectCF_lt _ (hin _ (by simp)) (subMod_lt (hpos d) _ _))) ht
  case fisz | fisodd | feq => exact h.rangeChecked (fun _ => h.setCF _) ht
  case setc => exact h.immChecked (h.setCF _) ht
  case finv d _ _ =>
    exact h.rangeChecked
      (fun _ => ((h.writeFR d (ite_lt _ (mont_lt (hpos d) _) (hpos d))).setCF _).drawHidden) ht
  case fsqrt d _ _ =>
    exact h.rangeChecked
      (fun _ => ((h.writeFR d (ite_lt _ (mont_lt (hpos d) _) (Nat.mod_lt _ (hpos d)))).setCF _).drawHidden) ht
  case fenc d _ =>
    exact h.rangeChecked (fun _ => h.storeEncoding (length_valueBytes_le_bufBytes h.legal d _)) ht
  -- projective registers
  case pident => cases ht; exact (h.storePR rfl).completed
  case pgen => cases ht; exact (h.storePR h.legal.generatorOnCurve).completed
  case padd | pdbl => cases ht; exact (h.storePR (onCurve_add h.legal (h.prOnCurve _) (h.prOnCurve _))).completed
  case padda => cases ht; exact (h.storePR (onCurve_add h.legal (h.prOnCurve _) (h.arOnCurve _))).completed
  case pneg => cases ht; exact (h.storePR (onCurve_neg h.legal (h.prOnCurve _))).completed
  case pcneg =>
    cases ht
    exact (h.storePR (onCurve_selectCF _ (h.prOnCurve _) (onCurve_neg h.legal (h.prOnCurve _)))).completed
  case psel => cases ht; exact (h.storePR (onCurve_selectCF _ (h.prOnCurve _) (h.prOnCurve _))).completed
  case fromaff => cases ht; exact (h.storePR (h.arOnCurve _)).completed
  case pisid | peq | aisid => cases ht; exact (h.setCF _).completed
  -- affine registers
  case toaff => cases ht; exact (h.writeAR (h.prOnCurve _)).drawHidden.completed
  case aident => cases ht; exact (h.writeAR rfl).completed
  case agen => cases ht; exact (h.writeAR h.legal.generatorOnCurve).completed
  case aneg => cases ht; exact (h.writeAR (onCurve_neg h.legal (h.arOnCurve _))).completed
  case agetx | agety => cases ht; exact (h.writeFR .field (mont_lt h.legal.pPrime.pos _)).completed
  case aset _ ra rb => exact h.rangeChecked (fun _ => (h.writeAR (h.onCurve_checkedPair ra rb)).setCF _) ht
  case penc => exact h.immChecked (h.storeEncoding (length_sec1Encode_le_bufBytes h.legal _ _)) ht
  case pdec => exact h.immChecked ((h.writeAR (onCurve_sec1Decode h.legal _)).setCF _).drawHidden ht
  -- the scalar multiplier and the lookup table
  case pmul => exact h.rangeChecked (fun _ => h.storePR (onCurve_windowMul h.legal _ (h.prOnCurve _))) ht
  case pmulg => exact h.rangeChecked (fun _ => h.storePR (onCurve_windowMul h.legal _ h.legal.generatorOnCurve)) ht
  case lincomb =>
    exact h.rangeChecked
      (fun _ => h.storePR (onCurve_windowLincomb h.legal _ _ (h.prOnCurve _) (h.prOnCurve _))) ht
  case ltbuild => cases ht; exact (h.writeLT_multiples (h.prOnCurve _)).completed
  case ltsel => exact h.immChecked (h.storePR (onCurve_selectDigit h.legal (h.onCurve_readLT _) _)) ht

/-! ### The core and the host keep the invariant -/

theorem coreStep (h : s.Inv) {t : State} (ht : coreStep s = .next t) : t.Inv := by
  obtain ⟨w, i, -, -, heq⟩ | ⟨w, e, -, -, heq⟩ | ⟨-, heq⟩ := coreStep_cases s
  · exact h.exec i (heq.symm.trans ht)
  · cases heq.symm.trans ht
    exact h.failed e
  · cases heq.symm.trans ht
    exact h.countDown

theorem writeCtrl (h : s.Inv) (v : BitVec 32) : (s.writeCtrl v).Inv := by
  unfold State.writeCtrl
  split
  · exact h.performReset
  · exact { h with }

/-- DONE stays clear while a command is in flight: a write can only clear it (10_state.md R35). -/
theorem writeStatus (h : s.Inv) (v : BitVec 32) : (s.writeStatus v).Inv :=
  { h with
    inflightAccepted := fun w hw => by
      obtain ⟨hcmd, hdone, hinit⟩ := h.inflightAccepted w hw
      exact ⟨hcmd, by simp [State.writeStatus, hdone], hinit⟩ }

/-- A write that R310 lets through happens with nothing in flight and initialisation over. -/
theorem unlessBusy (h : s.Inv) {t : State} (ht : s.init = 0 → t.Inv) : (s.unlessBusy t).Inv := by
  unfold State.unlessBusy
  split
  · exact h.dropWrite
  · next hidle =>
    simp only [busy, Bool.or_eq_true, decide_eq_true_eq, not_or, Nat.not_lt, Nat.le_zero] at hidle
    exact ht hidle.2

theorem accept (h : s.Inv) (w : CmdWord) (hinit : s.init = 0) : (s.accept w).Inv :=
  { h with inflightAccepted := fun _ hv => ⟨Option.some.inj hv, rfl, hinit⟩ }

theorem writeReg (h : s.Inv) {bytes addr : Nat} {r : HostReg} (hr : accessReg s.cfg bytes addr = some r)
    (v : BitVec 32) : (s.writeReg r v).Inv := by
  cases r with
  | id | param0 | param1 => exact h
  | ctrl => exact h.writeCtrl v
  | status => exact h.writeStatus v
  | cmd => exact h.unlessBusy (h.accept v)
  | buflen => exact h.unlessBusy fun _ => { h with }
  | bufWord i => exact h.unlessBusy fun _ => h.storeBuf (bufWord_mapped hr)

theorem hostRead (h : s.Inv) (bytes addr : Nat) : (hostRead bytes addr s).Inv := by
  obtain heq | ⟨r, heq⟩ | ⟨r, heq⟩ := hostRead_cases bytes addr s <;> rw [heq]
  · exact h
  · exact h.respond r
  · exact h.nextDraw.respond r

theorem hostWrite (h : s.Inv) (bytes addr : Nat) (v : BitVec 32) : (hostWrite bytes addr v s).Inv := by
  obtain heq | ⟨r, heq⟩ | ⟨reg, r, hreg, heq⟩ := hostWrite_cases bytes addr v s <;> rw [heq]
  · exact h
  · exact h.respond r
  · exact (h.writeReg hreg v).respond r

theorem inputStep (h : s.Inv) (i : Input) {t : State} (ht : inputStep i s = .next t) : t.Inv := by
  cases i with
  | read bytes addr => cases ht; exact h.hostRead bytes addr
  | write bytes addr v => cases ht; exact h.hostWrite bytes addr v
  | core => exact h.coreStep ht
  | reset => cases ht; exact h.performReset

theorem step (h : s.Inv) {t : State} (ht : step s = .next t) : t.Inv := by
  obtain ⟨-, heq⟩ | ⟨i, rest, -, heq⟩ := step_cases s
  · exact h.coreStep (heq.symm.trans ht)
  · exact (h.withInputs rest).inputStep i (heq.symm.trans ht)

end Sys2Proof.Machine.State.Inv

namespace Sys2Proof.Machine

/-- Settles O10: the invariant is kept by each named update of the state, hence by each command, by the core and by each
host access. -/
theorem stepKeepsInvariant : Obligations.StepKeepsInvariant := fun _ _ h ht => h.step ht

end Sys2Proof.Machine
end

section
/-!
PROOFS. What a command leaves unchanged whatever it is: the control registers and the build, CF unless the command is
listed to write it (10_state.md R32), the lookup tables unless it builds or clears one (R30, R31).
-/

namespace Sys2Proof.Machine

/-- The part of the state that the command `i` may not change, beside its destination. -/
structure CommandFrame (i : Instr) (s t : State) : Prop where
  control : SameControl s t
  cf : i.writesCF = false → t.cf = s.cf
  lt : ∀ k, (∀ ra, i ≠ .ltbuild k ra) → i ≠ .zeroize → t.readLT k = s.readLT k

namespace CommandFrame

variable {i : Instr} {s t u : State}

theorem of_same (hcontrol : SameControl s t) (hcf : t.cf = s.cf) (hlt : t.lt = s.lt) : CommandFrame i s t :=
  ⟨hcontrol, fun _ => hcf, fun k _ _ => by rw [State.readLT, State.readLT, hlt]⟩

theorem of_writesCF (hi : i.writesCF = true) (hcontrol : SameControl s t) (hlt : t.lt = s.lt) : CommandFrame i s t :=
  ⟨hcontrol, fun h => absurd (hi.symm.trans h) (by decide), fun k _ _ => by rw [State.readLT, State.readLT, hlt]⟩

theorem completed (h : CommandFrame i s t) : CommandFrame i s t.completed :=
  ⟨{ h.control with }, h.cf, h.lt⟩

theorem failed (e : CmdError) : CommandFrame i s (s.failed e) :=
  of_same ⟨rfl, rfl, rfl, rfl, rfl, rfl, rfl⟩ rfl rfl

theorem of_rangeChecked {m : Nat} {sources : List Nat} (hu : rangeChecked m sources s t = .next u)
    (h : CommandFrame i s t) : CommandFrame i s u := by
  obtain ⟨-, heq⟩ | ⟨-, heq⟩ := rangeChecked_cases m sources s t <;> cases heq.symm.trans hu
  · exact h.completed
  · exact failed _

theorem of_immChecked {legal : Bool} (hu : immChecked legal s t = .next u) (h : CommandFrame i s t) :
    CommandFrame i s u := by
  cases legal <;> cases hu
  · exact failed _
  · exact h.completed

end CommandFrame

/-- Whatever the command and however it ends, it keeps its frame. -/
theorem exec_frame (i : Instr) {s t : State} (ht : exec i s = .next t) : CommandFrame i s t := by
  cases i
  case nop | pident | pgen | padd | padda | pdbl | pneg | pcneg | psel | toaff | fromaff | aident | agen | aneg | agetx
      | agety | fldk | fred =>
    cases ht
    exact .completed (.of_same ⟨rfl, rfl, rfl, rfl, rfl, rfl, rfl⟩ rfl rfl)
  case fadd | fsub | fneg | fmul | fsqr | fdbl | ftom | ffromm | fsel | fcneg | fenc | pmul | pmulg | lincomb =>
    exact .of_rangeChecked ht (.of_same ⟨rfl, rfl, rfl, rfl, rfl, rfl, rfl⟩ rfl rfl)
  case penc | ltsel => exact .of_immChecked ht (.of_same ⟨rfl, rfl, rfl, rfl, rfl, rfl, rfl⟩ rfl rfl)
  -- the commands that write CF
  case pisid | peq | aisid | fdec =>
    cases ht
    exact .completed (.of_writesCF rfl ⟨rfl, rfl, rfl, rfl, rfl, rfl, rfl⟩ rfl)
  case fisz | fisodd | feq | finv | fsqrt | aset =>
    exact .of_rangeChecked ht (.of_writesCF rfl ⟨rfl, rfl, rfl, rfl, rfl, rfl, rfl⟩ rfl)
  case setc | pdec => exact .of_immChecked ht (.of_writesCF rfl ⟨rfl, rfl, rfl, rfl, rfl, rfl, rfl⟩ rfl)
  -- the commands that write a table
  case ltbuild rd ra =>
    cases ht
    refine ⟨⟨rfl, rfl, rfl, rfl, rfl, rfl, rfl⟩, fun _ => rfl, fun k hk _ => ?_⟩
    have hne : k ≠ rd := fun h => hk ra (by rw [h])
    rw [State.completed_readLT, State.readLT_writeLT, if_neg hne]
  case zeroize =>
    cases ht
    exact ⟨⟨rfl, rfl, rfl, rfl, rfl, rfl, rfl⟩, nofun, fun _ _ h => absurd rfl h⟩

/-! ### The build parameters (10_state.md R39) -/

theorem coreStep_cfg {s t : State} (ht : coreStep s = .next t) : t.cfg = s.cfg := by
  obtain ⟨w, i, -, -, heq⟩ | ⟨w, e, -, -, heq⟩ | ⟨-, heq⟩ := coreStep_cases s
  · exact (exec_frame i (heq.symm.trans ht)).control.cfg
  · cases heq.symm.trans ht; rfl
  · cases heq.symm.trans ht; rfl

@[simp] theorem hostRead_cfg (bytes addr : Nat) (s : State) : (hostRead bytes addr s).cfg = s.cfg := by
  obtain heq | ⟨r, heq⟩ | ⟨r, heq⟩ := hostRead_cases bytes addr s <;> rw [heq] <;> rfl

@[simp] theorem State.unlessBusy_cfg {s t : State} (ht : t.cfg = s.cfg) : (s.unlessBusy t).cfg = s.cfg := by
  unfold State.unlessBusy
  split
  · rfl
  · exact ht

@[simp] theorem State.writeReg_cfg (s : State) (r : HostReg) (v : BitVec 32) : (s.writeReg r v).cfg = s.cfg := by
  cases r with
  | id | param0 | param1 | status => rfl
  | ctrl =>
    show (s.writeCtrl v).cfg = s.cfg
    unfold State.writeCtrl
    split <;> rfl
  | cmd | buflen | bufWord i => exact State.unlessBusy_cfg rfl

@[simp] theorem hostWrite_cfg (bytes addr : Nat) (v : BitVec 32) (s : State) :
    (hostWrite bytes addr v s).cfg = s.cfg := by
  obtain heq | ⟨r, heq⟩ | ⟨reg, r, -, heq⟩ := hostWrite_cases bytes addr v s <;> rw [heq]
  · rfl
  · exact State.writeReg_cfg s reg v

theorem inputStep_cfg {i : Input} {s t : State} (ht : inputStep i s = .next t) : t.cfg = s.cfg := by
  cases i with
  | read bytes addr => cases ht; exact hostRead_cfg bytes addr s
  | write bytes addr v => cases ht; exact hostWrite_cfg bytes addr v s
  | core => exact coreStep_cfg ht
  | reset => cases ht; rfl

/-- Settles O12: no command, host access or reset writes the build parameters. -/
theorem stepKeepsBuildParameters : Obligations.StepKeepsBuildParameters := by
  intro s t ht
  obtain ⟨-, heq⟩ | ⟨i, rest, -, heq⟩ := step_cases s
  · exact coreStep_cfg (heq.symm.trans ht)
  · exact (inputStep_cfg (heq.symm.trans ht) :)

/-- Settles O13: a command with an error keeps CF, and so does one that is not listed to write it. -/
theorem onlyListedCommandsWriteCF : Obligations.OnlyListedCommandsWriteCF := by
  intro i s t ht hcf
  refine ⟨Bool.of_not_eq_false fun hi => hcf ((exec_frame i ht).cf hi), ?_⟩
  obtain ⟨u, heq, -, -⟩ | ⟨e, heq⟩ := exec_cases i s <;> cases heq.symm.trans ht
  · rfl
  · exact absurd rfl hcf

/-- Settles O15: every other command keeps the table. -/
theorem lookupTablesChangeOnlyByBuild : Obligations.LookupTablesChangeOnlyByBuild := by
  intro i s t k ht hlt
  by_contra hother
  obtain ⟨hbuild, hzeroize⟩ := not_or.1 hother
  exact hlt ((exec_frame i ht).lt k (fun ra hi => hbuild ⟨ra, hi⟩) hzeroize)

end Sys2Proof.Machine
end

section
/-!
PROOFS. Hidden state is read by nothing (10_state.md R38): replacing the hidden intermediates changes at most the hidden
intermediates of the state that a command, a host access or a reset leaves.
-/

namespace Sys2Proof.Machine

@[simp] theorem State.withHidden_cfg (s : State) (h : Hidden) : (s.withHidden h).cfg = s.cfg := rfl

@[simp] theorem State.withHidden_inflight (s : State) (h : Hidden) : (s.withHidden h).inflight = s.inflight := rfl

@[simp] theorem State.withHidden_inputs (s : State) (h : Hidden) : (s.withHidden h).inputs = s.inputs := rfl

@[simp] theorem State.withHidden_busy (s : State) (h : Hidden) : (s.withHidden h).busy = s.busy := rfl

@[simp] theorem State.withHidden_regWord (s : State) (h : Hidden) (r : HostReg) :
    (s.withHidden h).regWord r = s.regWord r := by
  cases r <;> rfl

variable {s t u : State}

theorem sameButHidden_next (h : u = t.withHidden u.hidden) : SameButHidden (.next t) (.next u) := h

theorem sameButHidden_completed (h : u = t.withHidden u.hidden) :
    SameButHidden (.next t.completed) (.next u.completed) := by
  rw [h]; rfl

theorem sameButHidden_failed (s : State) (h : Hidden) (e : CmdError) :
    SameButHidden (.next (s.failed e)) (.next ((s.withHidden h).failed e)) := rfl

theorem sameButHidden_rangeChecked (h : Hidden) (m : Nat) (sources : List Nat) (hu : u = t.withHidden u.hidden) :
    SameButHidden (rangeChecked m sources s t) (rangeChecked m sources (s.withHidden h) u) := by
  unfold rangeChecked
  split
  · exact sameButHidden_completed hu
  · exact sameButHidden_failed s h .range

theorem sameButHidden_immChecked (h : Hidden) (legal : Bool) (hu : u = t.withHidden u.hidden) :
    SameButHidden (immChecked legal s t) (immChecked legal (s.withHidden h) u) := by
  cases legal
  · exact sameButHidden_failed s h .imm
  · exact sameButHidden_completed hu

/-- No command reads the hidden intermediates. -/
theorem exec_withHidden (i : Instr) (s : State) (h : Hidden) :
    SameButHidden (exec i s) (exec i (s.withHidden h)) := by
  cases i
  case nop | zeroize | pident | pgen | padd | padda | pdbl | pneg | pcneg | psel | pisid | peq | toaff | fromaff | aident
      | agen | aneg | aisid | agetx | agety | ltbuild | fldk | fdec | fred => exact sameButHidden_completed rfl
  case setc | penc | pdec | ltsel => exact sameButHidden_immChecked h _ rfl
  case fadd | fsub | fneg | fmul | fsqr | fdbl | ftom | ffromm | fsel | fcneg | fisz | fisodd | feq | finv
      | fsqrt | fenc | aset | pmul | pmulg | lincomb => exact sameButHidden_rangeChecked h _ _ rfl

theorem coreStep_withHidden (s : State) (h : Hidden) :
    SameButHidden (coreStep s) (coreStep (s.withHidden h)) := by
  unfold coreStep
  rw [State.withHidden_inflight]
  cases s.inflight with
  | none => exact sameButHidden_next rfl
  | some w =>
    show SameButHidden (completeWord w s) (completeWord w (s.withHidden h))
    unfold completeWord
    cases decode w with
    | ok i => exact exec_withHidden i s h
    | error e => exact sameButHidden_failed s h e

/-- No read returns anything of the hidden intermediates. -/
theorem hostRead_withHidden (bytes addr : Nat) (s : State) (h : Hidden) :
    hostRead bytes addr (s.withHidden h) = (hostRead bytes addr s).withHidden h := by
  unfold hostRead
  simp only [State.withHidden_cfg, State.withHidden_regWord]
  split
  · split <;> rfl
  · rfl

theorem unlessBusy_withHidden {h : Hidden} (hu : u = t.withHidden h) :
    (s.withHidden h).unlessBusy u = (s.unlessBusy t).withHidden h := by
  unfold State.unlessBusy
  rw [State.withHidden_busy, hu]
  split <;> rfl

/-- A register write lets nothing of the hidden intermediates out; a soft reset clears them. -/
theorem writeReg_withHidden (s : State) (h : Hidden) (r : HostReg) (v : BitVec 32) :
    ∃ k, (s.withHidden h).writeReg r v = (s.writeReg r v).withHidden k := by
  cases r with
  | id | param0 | param1 | status => exact ⟨h, rfl⟩
  | ctrl =>
    show ∃ k, (s.withHidden h).writeCtrl v = (s.writeCtrl v).withHidden k
    unfold State.writeCtrl
    split
    · exact ⟨.cleared, rfl⟩
    · exact ⟨h, rfl⟩
  | cmd | buflen | bufWord i => exact ⟨h, unlessBusy_withHidden rfl⟩

theorem hostWrite_withHidden (bytes addr : Nat) (v : BitVec 32) (s : State) (h : Hidden) :
    ∃ k, hostWrite bytes addr v (s.withHidden h) = (hostWrite bytes addr v s).withHidden k := by
  unfold hostWrite
  rw [State.withHidden_cfg]
  split
  · split
    · exact ⟨h, rfl⟩
    · next r _ =>
      obtain ⟨k, hk⟩ := writeReg_withHidden s h r v
      exact ⟨k, by rw [hk]; rfl⟩
  · exact ⟨h, rfl⟩

theorem inputStep_withHidden (i : Input) (s : State) (h : Hidden) :
    SameButHidden (inputStep i s) (inputStep i (s.withHidden h)) := by
  cases i with
  | read bytes addr => exact sameButHidden_next (by rw [hostRead_withHidden]; rfl)
  | write bytes addr v =>
    obtain ⟨k, hk⟩ := hostWrite_withHidden bytes addr v s h
    exact sameButHidden_next (by rw [hk]; rfl)
  | core => exact coreStep_withHidden s h
  | reset => exact sameButHidden_next rfl

/-- Settles O14: neither the core nor the host reads the hidden intermediates. -/
theorem hiddenStateIsUnobservable : Obligations.HiddenStateIsUnobservable := by
  intro s h
  cases hin : s.inputs with
  | nil =>
    rw [step_of_no_inputs hin, step_of_no_inputs (s := s.withHidden h) hin]
    exact coreStep_withHidden s h
  | cons i rest =>
    rw [step_of_inputs hin, step_of_inputs (s := s.withHidden h) hin]
    exact inputStep_withHidden i { s with inputs := rest } h

end Sys2Proof.Machine
end

section
/-!
PROOFS. What the host reads (10_state.md R35, 20_memory.md R57, R60): the words of the control, status, buffer and
parameter registers field by field, and the read of a mapped register as a step.
-/

namespace Sys2Proof.Machine

/-! ### The register map (20_memory.md R57) -/

theorem hostReg_bufWord {c : Params} {i : Nat} (hi : i < c.bufBytes / 4) :
    hostReg c (0x100 + 4 * i) = some (.bufWord i) := by
  have hmapped : 0x100 ≤ 0x100 + 4 * i ∧ (0x100 + 4 * i) % 4 = 0 ∧ (0x100 + 4 * i - 0x100) / 4 < c.bufBytes / 4 := by
    omega
  have hindex : (0x100 + 4 * i - 0x100) / 4 = i := by omega
  unfold hostReg
  repeat rw [if_neg (by omega)]
  rw [if_pos hmapped, hindex]

/-- A mapped offset is aligned, and within the window of a build whose buffer fits it (20_memory.md R50). -/
theorem hostReg_aligned {c : Params} (hbuf : c.bufBytes ≤ 252) {off : Nat} {r : HostReg} (h : hostReg c off = some r) :
    off % 4 = 0 ∧ off < 0x200 := by
  unfold hostReg at h
  split_ifs at h <;> omega

/-- A 32-bit read of a mapped register answers OK with the register's word. -/
theorem step_read_mapped {s : State} {off : Nat} {rest : List Input} {r : HostReg} (hlegal : s.cfg.Legal)
    (hin : s.inputs = .read 4 (s.cfg.baseAddr + off) :: rest) (hr : hostReg s.cfg off = some r) :
    ∃ t, step s = .next t ∧ t.resp = some { error := false, data := some (s.regWord r) } := by
  obtain ⟨haligned, hbelow⟩ := hostReg_aligned hlegal.bufMax hr
  have hwindow : inWindow s.cfg (s.cfg.baseAddr + off) = true := by
    simp only [inWindow, Bool.and_eq_true, decide_eq_true_eq]
    omega
  have haccess : accessReg s.cfg 4 (s.cfg.baseAddr + off) = some r := by
    simp only [accessReg, Nat.add_sub_cancel_left, haligned, and_self, if_true, hr]
  have hword : ({ s with inputs := rest } : State).regWord r = s.regWord r := by cases r <;> rfl
  refine ⟨_, step_of_inputs hin, ?_⟩
  simp only [hostRead, hwindow, haccess, if_true, State.respond_resp, hword]

/-! ### The words of the control and status registers (10_state.md R35) -/

/-- A bit of a number that is a flag there is that flag. -/
theorem testBit_eq_of_div_mod {x k : Nat} {b : Bool} (h : x / 2 ^ k % 2 = b.toNat) : x.testBit k = b := by
  rw [Nat.testBit_eq_decide_div_mod_eq, h]
  cases b <;> rfl

theorem errorCode_lt (e : ErrCode) : errorCode e < 6 := by
  rcases e with _ | e
  · decide
  · cases e <;> decide

theorem ctrlWord_toNat (s : State) : s.ctrlWord.toNat = s.ie.toNat := by
  rw [State.ctrlWord, BitVec.toNat_ofNat]
  exact Nat.mod_eq_of_lt (Nat.lt_of_le_of_lt s.ie.toNat_le (by decide))

theorem statusWord_toNat (s : State) :
    s.statusWord.toNat = s.busy.toNat + s.done.toNat * 2 ^ 1 + s.cf.toNat * 2 ^ 2 + errorCode s.err * 2 ^ 4
      + s.errs.toNat * 2 ^ 8 + s.ovr.toNat * 2 ^ 9 := by
  have hbusy := s.busy.toNat_le
  have hdone := s.done.toNat_le
  have hcf := s.cf.toNat_le
  have herrs := s.errs.toNat_le
  have hovr := s.ovr.toNat_le
  have herr := errorCode_lt s.err
  rw [State.statusWord, BitVec.toNat_ofNat]
  exact Nat.mod_eq_of_lt (by omega)

/-- STATUS field by field. -/
theorem statusWord_fields (s : State) :
    s.statusWord.getLsbD 0 = s.busy ∧ s.statusWord.getLsbD 1 = s.done ∧ s.statusWord.getLsbD 2 = s.cf ∧
      s.statusWord.getLsbD 3 = false ∧ s.statusWord.toNat / 2 ^ 4 % 2 ^ 4 = errorCode s.err ∧
      s.statusWord.getLsbD 8 = s.errs ∧ s.statusWord.getLsbD 9 = s.ovr ∧ s.statusWord.toNat < 2 ^ 10 := by
  have hbusy := s.busy.toNat_le
  have hdone := s.done.toNat_le
  have hcf := s.cf.toNat_le
  have herrs := s.errs.toNat_le
  have hovr := s.ovr.toNat_le
  have herr := errorCode_lt s.err
  have hword := statusWord_toNat s
  have hreserved : s.statusWord.toNat / 2 ^ 3 % 2 = false.toNat := by rw [Bool.toNat_false]; omega
  refine ⟨testBit_eq_of_div_mod ?_, testBit_eq_of_div_mod ?_, testBit_eq_of_div_mod ?_,
    testBit_eq_of_div_mod hreserved, ?_, testBit_eq_of_div_mod ?_, testBit_eq_of_div_mod ?_, ?_⟩ <;> omega

/-! ### The words of the buffer (20_memory.md R60) -/

theorem toNat_append_byte {n : Nat} (x : BitVec n) (b : Byte) : (x ++ b).toNat = x.toNat * 2 ^ 8 + b.toNat := by
  rw [BitVec.toNat_append, ← Nat.shiftLeft_add_eq_or_of_lt b.isLt, Nat.shiftLeft_eq]

theorem bufWord_lane (s : State) (i : Nat) {j : Nat} (hj : j < 4) :
    (s.bufWord i).toNat / 2 ^ (8 * j) % 2 ^ 8 = (s.bufByte (4 * i + j)).toNat := by
  have h0 := (s.bufByte (4 * i)).isLt
  have h1 := (s.bufByte (4 * i + 1)).isLt
  have h2 := (s.bufByte (4 * i + 2)).isLt
  have h3 := (s.bufByte (4 * i + 3)).isLt
  simp only [State.bufWord, toNat_append_byte]
  interval_cases j
  · show _ = (s.bufByte (4 * i)).toNat
    omega
  all_goals omega

theorem buflen_regWord (s : State) :
    (s.regWord .buflen).toNat < 2 ^ 8 ∧ (s.busy = false → (s.regWord .buflen).toNat = s.buflen.toNat) := by
  have hwide (b : BitVec 8) : (b.setWidth 32).toNat = b.toNat := BitVec.toNat_setWidth_of_le (by decide)
  simp only [State.regWord]
  refine ⟨?_, fun hidle => ?_⟩
  · split <;> rw [hwide] <;> exact BitVec.isLt _
  · rw [hidle, if_neg (by decide), hwide]

/-- Settles O51: each mapped offset names one register, whose word has the fields of R35 and R60. -/
theorem hostReadsReturnTheRegisters : Obligations.HostReadsReturnTheRegisters := by
  intro s off rest hlegal hin hoff
  obtain ⟨r, hr⟩ : ∃ r, hostReg s.cfg off = some r := by
    obtain rfl | rfl | rfl | rfl | rfl | ⟨i, hi, rfl⟩ := hoff
    iterate 5 exact ⟨_, rfl⟩
    exact ⟨_, hostReg_bufWord hi⟩
  obtain ⟨t, hstep, hresp⟩ := step_read_mapped hlegal hin hr
  -- the offset fixes the register
  have hreg {off' : Nat} {r' : HostReg} (h : off = off') (hr' : hostReg s.cfg off' = some r') : r = r' := by
    subst h
    exact Option.some.inj (hr.symm.trans hr')
  refine ⟨t, _, hstep, hresp, fun h => ?_, fun h => ?_, fun h => ?_, fun h => ?_, fun h => ?_,
    fun i j hi hj h hidle => ?_⟩
  · rw [hreg h rfl]; rfl
  · rw [hreg h rfl]; exact ctrlWord_toNat s
  · rw [hreg h rfl]; exact statusWord_fields s
  · rw [hreg h rfl]; rfl
  · rw [hreg h rfl]; exact buflen_regWord s
  · rw [hreg h (hostReg_bufWord hi), State.regWord, hidle, if_neg (by decide)]
    exact bufWord_lane s i hj

/-! ### The parameter registers (10_state.md R35) -/

theorem byteOrderCode_lt (o : ByteOrder) : byteOrderCode o < 2 := by cases o <;> decide

theorem byteOrderCode_eq_zero (o : ByteOrder) : byteOrderCode o = 0 ↔ o = .big := by cases o <;> decide

theorem coordCode_lt (o : Coord) : coordCode o < 2 := by cases o <;> decide

theorem coordCode_eq_zero (o : Coord) : coordCode o = 0 ↔ o = .homogeneous := by cases o <;> decide

/-- The method of a modulus as PARAM0 shows it (42_sqrt.md R170). -/
theorem sqrtMethod_code (m : Nat) :
    (sqrtMethod m).code < 3 ∧ (m % 4 = 3 → (sqrtMethod m).code = 0) ∧ (m % 8 = 5 → (sqrtMethod m).code = 1) ∧
      (m % 8 = 1 → (sqrtMethod m).code = 2) := by
  unfold sqrtMethod
  split_ifs <;> simp [SqrtMethod.code] <;> omega

theorem pow_nbits_le {m : Nat} (hm : 0 < m) : 2 ^ (nbits m - 1) ≤ m :=
  Nat.log2_self_le (Nat.ne_of_gt hm)

/-- A modulus below the radix of a build with fewer than 256 words has a bit length that fits PARAM1. -/
theorem nbits_lt_of_lt_radix {c : Params} (hword : c.word = 32 ∨ c.word = 64) (hw : c.w < 256) {m : Nat} (hm : 0 < m)
    (hlt : m < c.radix) : nbits m < 2 ^ 16 := by
  have hbits : c.lbits ≤ 255 * 64 := Nat.mul_le_mul (by omega) (by omega)
  have hlog : Nat.log2 m < c.lbits := (Nat.log2_lt (Nat.ne_of_gt hm)).2 hlt
  unfold nbits
  omega

/-- Fields side by side in a word, bits 19:18 empty, read back one by one. -/
theorem bits_of_packed_fields {w word bo co mp mn buf v : Nat} (hw : w < 256) (hword : word < 256) (hbo : bo < 2)
    (hco : co < 2) (hmp : mp < 3) (hmn : mn < 3) (hbuf : buf < 256)
    (hv : v = w + word * 2 ^ 8 + bo * 2 ^ 16 + co * 2 ^ 17 + mp * 2 ^ 20 + mn * 2 ^ 22 + buf * 2 ^ 24) :
    bits v 7 0 = w ∧ bits v 15 8 = word ∧ bits v 16 16 = bo ∧ bits v 17 17 = co ∧ bits v 19 18 = 0 ∧
      bits v 21 20 = mp ∧ bits v 23 22 = mn ∧ bits v 31 24 = buf := by
  simp only [bits]
  refine ⟨?_, ?_, ?_, ?_, ?_, ?_, ?_, ?_⟩ <;> omega

/-- PARAM0 field by field. -/
theorem param0Word_fields {c : Params} (h : c.Legal) (hw : c.w < 256) :
    bits (param0Word c).toNat 7 0 = c.w ∧ bits (param0Word c).toNat 15 8 = c.word ∧
      bits (param0Word c).toNat 16 16 = byteOrderCode c.byteOrder ∧
      bits (param0Word c).toNat 17 17 = coordCode c.coord ∧ bits (param0Word c).toNat 19 18 = 0 ∧
      bits (param0Word c).toNat 21 20 = (sqrtMethod c.p).code ∧
      bits (param0Word c).toNat 23 22 = (sqrtMethod c.n).code ∧
      bits (param0Word c).toNat 31 24 = c.bufBytes / 4 := by
  have hword : c.word < 256 := by have := h.word; omega
  have hbuf : c.bufBytes / 4 < 256 := by have := h.bufMax; omega
  have hbo := byteOrderCode_lt c.byteOrder
  have hcoord := coordCode_lt c.coord
  have hp := (sqrtMethod_code c.p).1
  have hn := (sqrtMethod_code c.n).1
  refine bits_of_packed_fields hw hword hbo hcoord hp hn hbuf ?_
  rw [param0Word, BitVec.toNat_ofNat]
  omega

theorem param1Word_toNat {c : Params} (h : c.Legal) (hw : c.w < 256) :
    (param1Word c).toNat = nbits c.p + nbits c.n * 2 ^ 16 := by
  have hp := nbits_lt_of_lt_radix h.word hw h.pPrime.pos h.pBelowRadix
  have hn := nbits_lt_of_lt_radix h.word hw h.nPrime.pos h.nBelowRadix
  rw [param1Word, BitVec.toNat_ofNat]
  omega

/-- Settles O52: the fields of PARAM0 and PARAM1 do not overlap, and each holds its parameter. -/
theorem parameterRegistersShowTheBuild : Obligations.ParameterRegistersShowTheBuild := by
  intro s off rest hlegal hw hin hoff
  obtain rfl | rfl := hoff
  · obtain ⟨t, hstep, hresp⟩ := step_read_mapped (r := .param0) hlegal hin rfl
    refine ⟨t, _, hstep, hresp, fun _ => ?_, nofun⟩
    obtain ⟨hwords, hwordBits, hbo, hcoord, hzero, hp, hn, hbuf⟩ := param0Word_fields hlegal hw
    obtain ⟨-, hpExp, hpAtkin, hpTs⟩ := sqrtMethod_code s.cfg.p
    obtain ⟨-, hnExp, hnAtkin, hnTs⟩ := sqrtMethod_code s.cfg.n
    rw [State.regWord, hbo, hcoord, hp, hn, hbuf]
    exact ⟨hwords, hwordBits, byteOrderCode_eq_zero _, coordCode_eq_zero _, hzero, hpExp, hpAtkin, hpTs, hnExp, hnAtkin,
      hnTs, Nat.mul_div_cancel' (Nat.dvd_of_mod_eq_zero hlegal.bufWords)⟩
  · obtain ⟨t, hstep, hresp⟩ := step_read_mapped (r := .param1) hlegal hin rfl
    refine ⟨t, _, hstep, hresp, nofun, fun _ => ?_⟩
    have hword := param1Word_toNat hlegal hw
    have hp := nbits_lt_of_lt_radix hlegal.word hw hlegal.pPrime.pos hlegal.pBelowRadix
    have hn := nbits_lt_of_lt_radix hlegal.word hw hlegal.nPrime.pos hlegal.nBelowRadix
    have hpField : bits (param1Word s.cfg).toNat 15 0 = nbits s.cfg.p := by simp only [bits]; omega
    have hnField : bits (param1Word s.cfg).toNat 31 16 = nbits s.cfg.n := by simp only [bits]; omega
    rw [State.regWord, hpField, hnField]
    exact ⟨pow_nbits_le hlegal.pPrime.pos, lt_two_pow_nbits _, pow_nbits_le hlegal.nPrime.pos, lt_two_pow_nbits _⟩

end Sys2Proof.Machine
end

section
/-!
PROOFS. The byte form of an integer and its inverse in both byte orders (20_memory.md R59).
-/

namespace Sys2Proof.Machine

/-- A string of known length is determined by its integer: the last byte is the remainder by 256. -/
theorem fromBigBytes_injective {xs ys : List Byte} (hlen : xs.length = ys.length)
    (h : fromBigBytes xs = fromBigBytes ys) : xs = ys := by
  induction xs using List.reverseRecOn generalizing ys with
  | nil => exact (List.length_eq_zero_iff.1 hlen.symm).symm
  | append_singleton xs b ih =>
    obtain rfl | ⟨ys, c, rfl⟩ := ys.eq_nil_or_concat'
    · simp at hlen
    · rw [fromBigBytes_append, fromBigBytes_append] at h
      have hb := b.isLt
      have hc := c.isLt
      have hinit : xs = ys := ih (by simpa using hlen) (by omega)
      have hlast : b = c := BitVec.eq_of_toNat_eq (by omega)
      rw [hinit, hlast]

theorem fromBytes_injective {order : ByteOrder} {xs ys : List Byte} (hlen : xs.length = ys.length)
    (h : fromBytes order xs = fromBytes order ys) : xs = ys := by
  cases order with
  | big => exact fromBigBytes_injective hlen h
  | little => exact List.reverse_injective (fromBigBytes_injective (by simpa using hlen) h)

/-- `tobytes` is the inverse of `frombytes`: both strings have the same integer. -/
theorem toBytes_fromBytes (order : ByteOrder) (bs : List Byte) : toBytes order bs.length (fromBytes order bs) = bs := by
  refine fromBytes_injective (order := order) (toBytes_length _ _ _) ?_
  rw [fromBytes_toBytes, Nat.mod_eq_of_lt (fromBytes_lt order bs)]

theorem toBytes_big_getElem (len v i : Nat) (h : i < (toBytes .big len v).length) :
    (toBytes .big len v)[i].toNat = v / 2 ^ (8 * (len - 1 - i)) % 256 := by
  simp [toBytes]

theorem toBytes_little_getElem (len v i : Nat) (h : i < (toBytes .little len v).length) :
    (toBytes .little len v)[i].toNat = v / 2 ^ (8 * i) % 256 := by
  simp [toBytes]

/-- Settles O23: each byte by its index; the two round trips are `fromBytes_toBytes` and `toBytes_fromBytes`. -/
theorem fieldByteFormOfIntegers : Obligations.FieldByteFormOfIntegers := by
  refine ⟨fun len v i _ => ⟨toBytes_big_getElem len v i _, toBytes_little_getElem len v i _⟩,
    fun order len v hv => ?_, toBytes_fromBytes⟩
  rw [fromBytes_toBytes, show 256 = 2 ^ 8 from rfl, ← Nat.pow_mul, Nat.mod_eq_of_lt hv]

end Sys2Proof.Machine
end

section
/-!
PROOFS. Host accesses as steps (20_memory.md R52 to R55): a read changes no state of the spec, an access that reaches
no register answers an error, and a write of a mapped register stores what the map says.
-/

namespace Sys2Proof.Machine

/-- Settles O56: each case of a host read writes the response and the counter of free values alone. -/
theorem hostReadsHaveNoSideEffect : Obligations.HostReadsHaveNoSideEffect := by
  intro s bytes addr rest hin
  rw [step_of_inputs hin, inputStep]
  obtain heq | ⟨r, heq⟩ | ⟨r, heq⟩ := hostRead_cases bytes addr { s with inputs := rest } <;> rw [heq]
  · exact ⟨s.resp, s.draws, rfl⟩
  · exact ⟨some r, s.draws, rfl⟩
  · exact ⟨some r, s.draws + 1, rfl⟩

/-! ### Which register an access reaches (20_memory.md R50, R52, R53) -/

theorem inWindow_offset (c : Params) {off : Nat} (h : off < 0x200) : inWindow c (c.baseAddr + off) = true := by
  simp only [inWindow, Bool.and_eq_true, decide_eq_true_eq]
  omega

theorem accessReg_offset (c : Params) (bytes off : Nat) :
    accessReg c bytes (c.baseAddr + off) = if bytes = 4 ∧ off % 4 = 0 then hostReg c off else none := by
  rw [accessReg, Nat.add_sub_cancel_left]

/-- Between BUFLEN and BUF, and beyond the buffer, no register is mapped. -/
theorem hostReg_unmapped {c : Params} {off : Nat} (h : (0x01C ≤ off ∧ off < 0x100) ∨ 0x100 + c.bufBytes ≤ off) :
    hostReg c off = none := by
  have hbuf : ¬(0x100 ≤ off ∧ off % 4 = 0 ∧ (off - 0x100) / 4 < c.bufBytes / 4) := by omega
  unfold hostReg
  rw [if_neg hbuf]
  repeat rw [if_neg (by omega)]

theorem accessReg_unmapped {c : Params} {bytes off : Nat}
    (h : bytes ≠ 4 ∨ off % 4 ≠ 0 ∨ (0x01C ≤ off ∧ off < 0x100) ∨ 0x100 + c.bufBytes ≤ off) :
    accessReg c bytes (c.baseAddr + off) = none := by
  rw [accessReg_offset]
  obtain hwidth | halign | hoff := h
  · exact if_neg fun hok => hwidth hok.1
  · exact if_neg fun hok => halign hok.2
  · rw [hostReg_unmapped hoff, ite_self]

theorem hostRead_unmapped {s : State} {bytes addr : Nat} (hwindow : inWindow s.cfg addr = true)
    (hnone : accessReg s.cfg bytes addr = none) :
    hostRead bytes addr s = s.respond { error := true, data := some 0 } := by
  rw [hostRead, if_pos hwindow, hnone]

theorem hostWrite_unmapped {s : State} {bytes addr : Nat} (v : BitVec 32) (hwindow : inWindow s.cfg addr = true)
    (hnone : accessReg s.cfg bytes addr = none) :
    hostWrite bytes addr v s = s.respond { error := true, data := none } := by
  rw [hostWrite, if_pos hwindow, hnone]

theorem hostWrite_mapped {s : State} {bytes addr : Nat} {r : HostReg} (v : BitVec 32)
    (hwindow : inWindow s.cfg addr = true) (hreg : accessReg s.cfg bytes addr = some r) :
    hostWrite bytes addr v s = (s.writeReg r v).respond { error := false, data := none } := by
  rw [hostWrite, if_pos hwindow, hreg]

/-- Settles O55: the address is in the window and reaches no register. -/
theorem unmappedAccessesAnswerErrors : Obligations.UnmappedAccessesAnswerErrors := by
  intro s bytes off v rest _ hoff hbad
  have hwindow := inWindow_offset s.cfg hoff
  have hnone := accessReg_unmapped (c := s.cfg) hbad
  refine ⟨fun hin => ?_, fun hin => ?_⟩ <;> rw [step_of_inputs hin]
  · exact congrArg Host.Outcome.next (hostRead_unmapped (s := { s with inputs := rest }) hwindow hnone)
  · exact congrArg Host.Outcome.next (hostWrite_unmapped (s := { s with inputs := rest }) v hwindow hnone)

/-! ### Writes of a mapped register (20_memory.md R54, R60) -/

/-- A 32-bit write of a mapped register does what the register's write does, and answers OK. -/
theorem step_write_mapped {s t : State} {off : Nat} {v : BitVec 32} {rest : List Input} {r : HostReg}
    (hlegal : s.cfg.Legal) (hin : s.inputs = .write 4 (s.cfg.baseAddr + off) v :: rest)
    (hr : hostReg s.cfg off = some r) (ht : State.writeReg { s with inputs := rest } r v = t) :
    step s = .next (t.respond { error := false, data := none }) := by
  obtain ⟨haligned, hbelow⟩ := hostReg_aligned hlegal.bufMax hr
  have hreg : accessReg s.cfg 4 (s.cfg.baseAddr + off) = some r := by
    rw [accessReg_offset, if_pos ⟨rfl, haligned⟩, hr]
  rw [step_of_inputs hin, ← ht]
  exact congrArg Host.Outcome.next
    (hostWrite_mapped (s := { s with inputs := rest }) v (inWindow_offset s.cfg hbelow) hreg)

theorem writeCtrl_of_no_reset (s : State) {v : BitVec 32} (h : v.getLsbD 1 = false) :
    s.writeCtrl v = { s with ie := v.getLsbD 0 } := by
  rw [State.writeCtrl, h, if_neg (by decide)]

theorem unlessBusy_of_idle {s : State} (t : State) (h : s.busy = false) : s.unlessBusy t = t := by
  rw [State.unlessBusy, h, if_neg (by decide)]

/-- Lane `j` of a word is its bits `[8*j+7 : 8*j]`. -/
theorem lanes_getElem (v : BitVec 32) {j : Nat} (h : j < (lanes v).length) :
    (lanes v)[j].toNat = v.toNat / 2 ^ (8 * j) % 2 ^ 8 := by
  have hj : j < 4 := h
  interval_cases j <;> simp [lanes, BitVec.extractLsb'_toNat, Nat.shiftRight_eq_div_pow]

/-- Settles O54: each offset names one register, whose write is its line of the map. -/
theorem controlAndBufferWrites : Obligations.ControlAndBufferWrites := by
  intro s off v rest hinv hin
  have hwrite {r : HostReg} {t : State} := step_write_mapped (r := r) (t := t) hinv.legal hin
  refine ⟨?ctrl, ?status, ?buflen, ?bufWord, ?readOnly⟩
  case ctrl =>
    rintro rfl hsrst
    exact hwrite rfl (writeCtrl_of_no_reset _ hsrst)
  case status =>
    rintro rfl
    exact hwrite (r := .status) rfl rfl
  case buflen =>
    rintro rfl hidle
    exact ⟨v.setWidth 8, BitVec.toNat_setWidth 8 v, hwrite rfl (unlessBusy_of_idle _ hidle)⟩
  case bufWord =>
    rintro i hi rfl hidle
    refine ⟨Memory.writeBytes s.buf (4 * i) (lanes v), hwrite (hostReg_bufWord hi) (unlessBusy_of_idle _ hidle),
      fun j hj => ?_, fun k hk => ?_⟩
    · have hlane : j < (lanes v).length := hj
      rw [Memory.read_writeBytes_inside (lanes v) hinv.bufCanonical j hlane, lanes_getElem]
    · exact Memory.read_writeBytes_outside (lanes v) hk
  case readOnly =>
    rintro (rfl | rfl | rfl)
    · exact hwrite (r := .id) rfl rfl
    · exact hwrite (r := .param0) rfl rfl
    · exact hwrite (r := .param1) rfl rfl

end Sys2Proof.Machine
end

section
/-!
PROOFS. The encoding (30_encoding.md R80 to R95): what it takes for a row of the opcode map to accept the fields of a
word, the word each row stands for, and from the two that the encoder and the decoder are inverse to each other.
-/

namespace Sys2Proof

/-! ### What a row accepts -/

/-- A field value that passes the checks of an index field: 0 where the field is unused, else an index of the file. -/
def Slot.Fits (s : Slot) (v : Nat) : Prop := s.unusedNonzero v = false ∧ s.outOfRange v = false

namespace Slot

theorem fits_iff {s : Slot} {v : Nat} : s.Fits v ↔ v < s.limit ∧ (s = none → v = 0) := by
  rw [Fits, outOfRange, decide_eq_false_iff_not, Nat.not_le, and_comm]
  cases s <;> simp [unusedNonzero]

@[simp] theorem fits_none : none.Fits 0 := ⟨rfl, rfl⟩

@[simp] theorem fits_F (i : FReg) : F.Fits i := fits_iff.2 ⟨i.isLt, nofun⟩

@[simp] theorem fits_P (i : PReg) : P.Fits i := fits_iff.2 ⟨i.isLt, nofun⟩

@[simp] theorem fits_A (i : AReg) : A.Fits i := fits_iff.2 ⟨i.isLt, nofun⟩

@[simp] theorem fits_T (i : TReg) : T.Fits i := fits_iff.2 ⟨i.isLt, nofun⟩

/-- What a row's command keeps of an index field. -/
def index : Slot → Nat → Nat
  | none, _ => 0
  | s, v => v % s.limit

theorem Fits.lt_16 {s : Slot} {v : Nat} (h : s.Fits v) : v < 16 :=
  (fits_iff.1 h).1.trans_le (by cases s <;> decide)

theorem Fits.index_eq {s : Slot} {v : Nat} (h : s.Fits v) : s.index v = v := by
  obtain ⟨hlt, hunused⟩ := fits_iff.1 h
  cases s with
  | none => exact (hunused rfl).symm
  | F | P | A | T => exact Nat.mod_eq_of_lt hlt

end Slot

/-- The checks of the fields after `rd` and `ra`. -/
def Tail.Accepts (f : Fields) : Tail → Prop
  | .regs rb rc re => rb.Fits f.rb ∧ rc.Fits f.rc ∧ re.Fits f.re
  | .imm use => f.rsv2 = 0 ∧ use.illegal f.imm8 = false

/-- All that a row checks of a word's fields (60_exceptions.md R274, R275). -/
def Row.Accepts (r : Row) (f : Fields) : Prop :=
  f.rsv = 0 ∧ (r.usesD = false → f.d = 0) ∧ r.rd.Fits f.rd ∧ r.ra.Fits f.ra ∧ r.tail.Accepts f

theorem Row.accepts_iff (r : Row) (f : Fields) :
    r.Accepts f ↔ r.rsvViolated f = false ∧ r.regViolated f = false ∧ r.immViolated f = false := by
  unfold Row.Accepts Row.rsvViolated Row.regViolated Row.immViolated
  cases r.tail <;> simp [Tail.Accepts, Slot.Fits] <;> tauto

/-- The decoder answers a command exactly where the row of the word's opcode accepts the word's fields. -/
theorem decode_eq_ok_iff {w : CmdWord} {i : Instr} :
    decode w = .ok i ↔
      ∃ r, rowOf (fieldsOf w).op = some r ∧ r.Accepts (fieldsOf w) ∧ r.build (fieldsOf w) = i := by
  simp only [decode, Row.accepts_iff]
  cases rowOf (fieldsOf w).op with
  | none => simp
  | some r =>
    simp only [Option.some.injEq, exists_eq_left']
    split_ifs <;> simp_all

theorem mem_of_rowOf {op : Nat} {r : Row} (h : rowOf op = some r) : r ∈ opcodeMap ∧ r.op = op :=
  ⟨List.mem_of_find?_eq_some h, by simpa using List.find?_some h⟩

/-! ### A word is its fields -/

theorem packR_fieldsOf {w : CmdWord} (hrsv : (fieldsOf w).rsv = 0) :
    packR (fieldsOf w).op (fieldsOf w).d (fieldsOf w).rd (fieldsOf w).ra (fieldsOf w).rb (fieldsOf w).rc
      (fieldsOf w).re = w := by
  refine BitVec.eq_of_toNat_eq ?_
  have hw := w.isLt
  simp only [fieldsOf, bits] at hrsv
  simp only [packR, fieldsOf, bits, BitVec.toNat_ofNat]
  omega

theorem packI_fieldsOf {w : CmdWord} (hrsv : (fieldsOf w).rsv = 0) (hrsv2 : (fieldsOf w).rsv2 = 0) :
    packI (fieldsOf w).op (fieldsOf w).d (fieldsOf w).rd (fieldsOf w).ra (fieldsOf w).imm8 = w := by
  refine BitVec.eq_of_toNat_eq ?_
  have hw := w.isLt
  simp only [fieldsOf, bits] at hrsv hrsv2
  simp only [packI, fieldsOf, bits, BitVec.toNat_ofNat]
  omega

theorem bitOf_domain {f : Fields} (hd : f.d < 2) : bitOf f.domain = f.d := by
  unfold Fields.domain
  split <;> simp only [bitOf] <;> omega

theorem fieldsOf_d_lt (w : CmdWord) : (fieldsOf w).d < 2 := Nat.mod_lt _ (by decide)

theorem toNat_toImm_fieldsOf (w : CmdWord) : (toImm (fieldsOf w).imm8).toNat = (fieldsOf w).imm8 := by
  rw [toImm, BitVec.toNat_ofNat]
  exact Nat.mod_mod _ _

/-! ### The command of a row -/

/-- The word that a row's command encodes to: each field of the format as the row reads it. -/
def Row.word (r : Row) (f : Fields) : CmdWord :=
  let d := if r.usesD then bitOf f.domain else 0
  match r.tail with
  | .regs rb rc re =>
    packR r.op d (r.rd.index f.rd) (r.ra.index f.ra) (rb.index f.rb) (rc.index f.rc) (re.index f.re)
  | .imm _ => packI r.op d (r.rd.index f.rd) (r.ra.index f.ra) (toImm f.imm8).toNat

/-- The legal immediates of each use (30_encoding.md R85 to R89). -/
def ImmUse.legal : ImmUse → BitVec 8 → Bool
  | .unsigned, _ => true
  | .bit, imm8 => immIsBit imm8
  | .digit, imm8 => immIsDigit imm8

/-- Whether the immediate of a row's command is legal. -/
def Tail.immLegal (f : Fields) : Tail → Bool
  | .regs _ _ _ => true
  | .imm use => use.legal (toImm f.imm8)

/-- Row by row, the encoder's table is the decoder's. -/
theorem encode_build {r : Row} (hr : r ∈ opcodeMap) (f : Fields) : encode (r.build f) = r.word f := by
  fin_cases hr <;> rfl

theorem wellFormed_build {r : Row} (hr : r ∈ opcodeMap) (f : Fields) :
    (r.build f).wellFormed = r.tail.immLegal f := by
  fin_cases hr <;> rfl

/-- Fields that a row accepts are kept by its command, so that the command's word is theirs. -/
theorem Row.Accepts.word_eq {r : Row} {w : CmdWord} (h : r.Accepts (fieldsOf w)) (hop : r.op = (fieldsOf w).op) :
    r.word (fieldsOf w) = w := by
  obtain ⟨hrsv, hunused, hrd, hra, htail⟩ := h
  have hd : (if r.usesD then bitOf (fieldsOf w).domain else 0) = (fieldsOf w).d := by
    split
    · exact bitOf_domain (fieldsOf_d_lt w)
    · next hno => exact (hunused (by simpa using hno)).symm
  unfold Row.word
  rw [hd, hrd.index_eq, hra.index_eq, hop]
  split
  · next heq =>
    rw [heq] at htail
    obtain ⟨hrb, hrc, hre⟩ := htail
    rw [hrb.index_eq, hrc.index_eq, hre.index_eq]
    exact packR_fieldsOf hrsv
  · next heq =>
    rw [heq] at htail
    obtain ⟨hrsv2, -⟩ := htail
    rw [toNat_toImm_fieldsOf]
    exact packI_fieldsOf hrsv hrsv2

/-- The decoder's test of the eight bits of an immediate is the test of its value. -/
theorem illegal_toNat (use : ImmUse) (imm8 : BitVec 8) : use.illegal imm8.toNat = !use.legal imm8 := by
  have himm := imm8.isLt
  cases use with
  | unsigned => rfl
  | bit =>
    rw [Bool.eq_iff_iff]
    simp only [ImmUse.illegal, ImmUse.legal, immIsBit, Bool.not_eq_true', decide_eq_true_eq, decide_eq_false_iff_not]
    omega
  | digit =>
    rw [Bool.eq_iff_iff]
    simp only [ImmUse.illegal, ImmUse.legal, immIsDigit, Bool.and_eq_true, Bool.not_eq_true', Bool.and_eq_false_iff,
      decide_eq_true_eq, decide_eq_false_iff_not, BitVec.toInt_eq_toNat_cond]
    split <;> omega

theorem Tail.Accepts.immLegal {t : Tail} {w : CmdWord} (h : t.Accepts (fieldsOf w)) :
    t.immLegal (fieldsOf w) = true := by
  rcases t with _ | use
  · rfl
  · obtain ⟨-, hlegal⟩ := h
    rwa [← toNat_toImm_fieldsOf, illegal_toNat, Bool.not_eq_false'] at hlegal

/-- Settles O2: a row accepts only fields that its command keeps, and only legal immediates. -/
theorem encodeOfDecodeIsTheWord : Obligations.EncodeOfDecodeIsTheWord := by
  intro w i hw
  obtain ⟨r, hrow, haccepts, rfl⟩ := decode_eq_ok_iff.1 hw
  obtain ⟨hmem, hop⟩ := mem_of_rowOf hrow
  have hword : r.word (fieldsOf w) = w := haccepts.word_eq hop
  obtain ⟨-, -, -, -, htail⟩ := haccepts
  exact ⟨(wellFormed_build hmem _).trans htail.immLegal, (encode_build hmem _).trans hword⟩

/-! ### The fields of a command -/

theorem op_lt_of_rowOf {op : Nat} {r : Row} (h : rowOf op = some r) : op < 64 := by
  obtain ⟨hmem, rfl⟩ := mem_of_rowOf h
  have hmap : ∀ r ∈ opcodeMap, r.op < 64 := by decide
  exact hmap r hmem

section
variable {op d rd ra : Nat} {r : Row} {i : Instr} (hrow : rowOf op = some r) (hd : d < 2)
  (hunused : r.usesD = false → d = 0) (hrd : r.rd.Fits rd) (hra : r.ra.Fits ra)
include hrow hd hunused hrd hra

/-- A format R word whose fields the row of its opcode accepts decodes to the command the row reads from them. -/
theorem decode_packR {rb rc re : Nat} {sb sc se : Slot} (htail : r.tail = .regs sb sc se) (hrb : sb.Fits rb)
    (hrc : sc.Fits rc) (hre : se.Fits re)
    (hbuild : r.build ⟨op, d, 0, rd, ra, rb, rc, re, rb * 16 + rc, re⟩ = i) :
    decode (packR op d rd ra rb rc re) = .ok i := by
  have hfields := fieldsOf_packR (op_lt_of_rowOf hrow) hd hrd.lt_16 hra.lt_16 hrb.lt_16 hrc.lt_16 hre.lt_16
  refine decode_eq_ok_iff.2 ⟨r, ?_, ?_, ?_⟩ <;> rw [hfields]
  · exact hrow
  · exact ⟨rfl, hunused, hrd, hra, by rw [htail]; exact ⟨hrb, hrc, hre⟩⟩
  · exact hbuild

/-- A format I word whose fields the row of its opcode accepts decodes to the command the row reads from them. -/
theorem decode_packI {imm8 : BitVec 8} {use : ImmUse} (htail : r.tail = .imm use) (himm : use.legal imm8 = true)
    (hbuild : r.build ⟨op, d, 0, rd, ra, imm8.toNat / 16, imm8.toNat % 16, 0, imm8.toNat, 0⟩ = i) :
    decode (packI op d rd ra imm8.toNat) = .ok i := by
  have hfields := fieldsOf_packI (op_lt_of_rowOf hrow) hd hrd.lt_16 hra.lt_16 imm8.isLt
  refine decode_eq_ok_iff.2 ⟨r, ?_, ?_, ?_⟩ <;> rw [hfields]
  · exact hrow
  · exact ⟨rfl, hunused, hrd, hra, by rw [htail]; exact ⟨rfl, by rw [illegal_toNat, himm, Bool.not_true]⟩⟩
  · exact hbuild

end

@[simp] theorem domain_bitOf (d : Domain) (op rsv rd ra rb rc re imm8 rsv2 : Nat) :
    Fields.domain ⟨op, bitOf d, rsv, rd, ra, rb, rc, re, imm8, rsv2⟩ = d := by
  cases d <;> rfl

@[simp] theorem bitOf_le_one (d : Domain) : bitOf d ≤ 1 := Nat.le_of_lt_succ (bitOf_lt d)

@[simp] theorem toF_val (i : FReg) : toF i = i := Fin.ofNat_val_eq_self i

@[simp] theorem toP_val (i : PReg) : toP i = i := Fin.ofNat_val_eq_self i

@[simp] theorem toA_val (i : AReg) : toA i = i := Fin.ofNat_val_eq_self i

@[simp] theorem toT_val (i : TReg) : toT i = i := Fin.ofNat_val_eq_self i

@[simp] theorem toImm_toNat (imm8 : BitVec 8) : toImm imm8.toNat = imm8 := by simp [toImm]

/-- Settles O1: the word of a command has the fields of the command, which the row of its opcode accepts and reads as
the command. -/
theorem decodeOfEncodeIsTheCommand : Obligations.DecodeOfEncodeIsTheCommand := by
  intro i hi
  cases i
  case fldk | setc | penc | pdec | ltsel =>
    exact decode_packI rfl (by simp) (by simp) (by simp) (by simp) rfl (by exact hi) (by simp)
  -- every other command has format R
  all_goals
    exact decode_packR rfl (by simp) (by simp) (by simp) (by simp) rfl (by simp) (by simp) (by simp) (by simp)

end Sys2Proof
end

section
/-!
PROOFS. The values that words of a field register stand for: addition, subtraction and products of words are those of
the values (00_scope.md R12, 40_field.md R112 to R117), a word below the modulus is determined by its value, and
Montgomery reduction computes the product (R115).
-/

namespace Sys2Proof

/-- `subMod` is the difference of integers modulo `m` (00_scope.md R11). -/
theorem subMod_eq_emod {m : Nat} (hm : 0 < m) (x y : Nat) : (subMod m x y : Int) = ((x : Int) - y) % m := by
  have hle : y % m ≤ m := (Nat.mod_lt y hm).le
  have hcast : (subMod m x y : Int) = (x + (m - y % m)) % m := by
    rw [subMod, Int.natCast_mod, Nat.cast_add, Nat.cast_sub hle, Int.natCast_mod]
  rw [hcast, show (x + (m - (y : Int) % m)) = x - (y : Int) % m + m by ring, Int.add_emod_right, Int.sub_emod_emod]

namespace Params

variable {c : Params}

/-! ### `inv_m(R)` and the two Montgomery maps -/

/-- `inv_m(R)` is the only inverse of `R` below the modulus (00_scope.md R11). -/
theorem invMod_radix_eq (h : c.Legal) (d : Domain) {inv : Nat} (hlt : inv < c.modulus d)
    (hinv : inv * c.radix % c.modulus d = 1) : invMod (c.modulus d) c.radix = inv := by
  have := Fact.mk (modulus_prime h d)
  refine eq_of_cast_eq (invMod_lt (modulus_pos h d) _) hlt ?_
  rw [invMod_cast (modulus_prime h d) (two_lt_modulus h d)]
  refine (eq_inv_of_mul_eq_one_left ?_).symm
  rw [← Nat.cast_mul, ← ZMod.natCast_mod, hinv, Nat.cast_one]

theorem val_eq_mul_mod (h : c.Legal) (d : Domain) {inv : Nat} (hlt : inv < c.modulus d)
    (hinv : inv * c.radix % c.modulus d = 1) (w : Nat) : c.val (c.modulus d) w = w * inv % c.modulus d := by
  rw [val, invMod_radix_eq h d hlt hinv]

theorem montMul_eq_mul_mod (h : c.Legal) (d : Domain) {inv : Nat} (hlt : inv < c.modulus d)
    (hinv : inv * c.radix % c.modulus d = 1) (x y : Nat) :
    c.montMul (c.modulus d) x y = x * y * inv % c.modulus d :=
  val_eq_mul_mod h d hlt hinv (x * y)

/-- Words below the modulus with one value are equal. -/
theorem val_inj (h : c.Legal) (d : Domain) {w w' : Nat} (hw : w < c.modulus d) (hw' : w' < c.modulus d) :
    c.val (c.modulus d) w = c.val (c.modulus d) w' ↔ w = w' :=
  ⟨fun heq => by rw [← mont_val h d hw, heq, mont_val h d hw'], congrArg _⟩

@[simp] theorem val_zero (c : Params) (m : Nat) : c.val m 0 = 0 := by simp [val]

theorem val_eq_zero (h : c.Legal) (d : Domain) {w : Nat} (hw : w < c.modulus d) :
    c.val (c.modulus d) w = 0 ↔ w = 0 := by
  rw [← val_inj h d hw (modulus_pos h d), val_zero]

/-! ### The value of a sum, a difference and a product -/

theorem val_add (c : Params) (m x y : Nat) : c.val m ((x + y) % m) = (c.val m x + c.val m y) % m := by
  rw [val, val, val, Nat.mod_mul_mod, add_mul, ← Nat.add_mod]

theorem val_double (c : Params) (m x : Nat) : c.val m (2 * x % m) = 2 * c.val m x % m := by
  rw [two_mul, two_mul, val_add]

theorem val_subMod (h : c.Legal) (d : Domain) (x y : Nat) :
    c.val (c.modulus d) (subMod (c.modulus d) x y) =
      subMod (c.modulus d) (c.val (c.modulus d) x) (c.val (c.modulus d) y) := by
  have hm := modulus_pos h d
  refine eq_of_cast_eq (val_lt hm _) (subMod_lt hm _ _) ?_
  rw [val_cast h, subMod_cast hm, subMod_cast hm, val_cast h, val_cast h, sub_mul]

theorem val_montMul (c : Params) (m x y : Nat) : c.val m (c.montMul m x y) = c.val m x * c.val m y % m := by
  rw [val, montMul, val, val, Nat.mod_mul_mod, ← Nat.mul_mod, mul_mul_mul_comm x, ← mul_assoc]

/-! ### Montgomery reduction (40_field.md R115) -/

/-- The constant of the reduction is `-inv_R(m)`: the odd residues modulo `R = 2^LBITS` form a group of order `R/2`. -/
theorem redcFactor_mul_cast {m : Nat} (hodd : m % 2 = 1) (hbits : 0 < c.lbits) :
    ((c.redcFactor m : Nat) : ZMod c.radix) * m = -1 := by
  have hR : 0 < c.radix := Nat.two_pow_pos _
  have htotient : c.radix.totient = c.radix / 2 - 1 + 1 := by
    obtain ⟨k, hk⟩ := Nat.exists_eq_succ_of_ne_zero hbits.ne'
    have hpos : 0 < 2 ^ k := Nat.two_pow_pos k
    rw [radix, hk, Nat.totient_prime_pow_succ Nat.prime_two, Nat.pow_succ]
    omega
  have hcoprime : Nat.Coprime m c.radix :=
    Nat.Coprime.pow_right _ (Nat.coprime_two_right.2 (Nat.odd_iff.2 hodd))
  have hpow : (m : ZMod c.radix) ^ c.radix.totient = 1 := by
    have heq := (ZMod.natCast_eq_natCast_iff _ _ _).2 (Nat.ModEq.pow_totient hcoprime)
    rwa [Nat.cast_pow, Nat.cast_one] at heq
  rw [redcFactor, subMod_cast hR, powMod_cast, Nat.cast_zero, zero_sub, neg_mul, ← pow_succ, ← htotient, hpow]

/-- The dividend of the reduction is a multiple of `R`. -/
theorem radix_dvd_redc_dividend {m : Nat} (hodd : m % 2 = 1) (hbits : 0 < c.lbits) (t : Nat) :
    c.radix ∣ t + t * c.redcFactor m % c.radix * m := by
  rw [← ZMod.natCast_eq_zero_iff]
  push_cast [ZMod.natCast_mod]
  rw [mul_assoc, redcFactor_mul_cast hodd hbits]
  ring

theorem conditionalSub_eq_mod {m u : Nat} (h : u < 2 * m) : (if m ≤ u then u - m else u) = u % m := by
  split
  · next hle => rw [Nat.mod_eq_sub_mod hle, Nat.mod_eq_of_lt (by omega)]
  · next hgt => rw [Nat.mod_eq_of_lt (by omega)]

/-- The quotient of the reduction is below `2*m`, so one conditional subtraction brings it below `m`. -/
theorem redc_eq_quotient_mod {m t : Nat} (hm : 0 < m) (ht : t < m * c.radix) :
    c.redc m t = (t + t * c.redcFactor m % c.radix * m) / c.radix % m := by
  have hR : 0 < c.radix := Nat.two_pow_pos _
  have hlt : (t + t * c.redcFactor m % c.radix * m) / c.radix < 2 * m := by
    refine Nat.div_lt_of_lt_mul ?_
    calc t + t * c.redcFactor m % c.radix * m
        < m * c.radix + c.radix * m := Nat.add_lt_add ht (Nat.mul_lt_mul_of_pos_right (Nat.mod_lt _ hR) hm)
      _ = c.radix * (2 * m) := by ring
  exact conditionalSub_eq_mod hlt

theorem redc_mul_radix {m t : Nat} (hodd : m % 2 = 1) (hbits : 0 < c.lbits) (ht : t < m * c.radix) :
    c.redc m t * c.radix % m = t % m := by
  rw [redc_eq_quotient_mod (by omega) ht, Nat.mod_mul_mod,
    Nat.div_mul_cancel (radix_dvd_redc_dividend hodd hbits t), Nat.add_mul_mod_self_right]

theorem modulus_lt_radix (h : c.Legal) (d : Domain) : c.modulus d < c.radix := by
  cases d
  · exact h.pBelowRadix
  · exact h.nBelowRadix

theorem lbits_pos (h : c.Legal) : 0 < c.lbits := by
  refine Nat.pos_of_ne_zero fun hzero => ?_
  have hbelow : c.p < 2 ^ c.lbits := h.pBelowRadix
  rw [hzero] at hbelow
  exact absurd h.pAbove3 (by omega)

end Params

open Params

/-- Settles O59: both words are below the modulus, and times `R` they are the product of the operands. -/
theorem montgomeryReductionGivesTheProduct : Obligations.MontgomeryReductionGivesTheProduct := by
  intro c d x y h hx hy
  have := Fact.mk (modulus_prime h d)
  have hm := modulus_pos h d
  have hxy : x * y < c.modulus d * c.radix := Nat.mul_lt_mul'' hx (hy.trans (modulus_lt_radix h d))
  have hlt : c.redc (c.modulus d) (x * y) < c.modulus d := by
    rw [redc_eq_quotient_mod hm hxy]
    exact Nat.mod_lt _ hm
  have hmul : (c.redc (c.modulus d) (x * y) : ZMod (c.modulus d)) * c.radix = x * y := by
    have heq := (ZMod.natCast_eq_natCast_iff' _ _ _).2 (redc_mul_radix (modulus_odd h d) (lbits_pos h) hxy)
    rwa [Nat.cast_mul, Nat.cast_mul] at heq
  refine eq_of_cast_eq hlt (Nat.mod_lt _ hm) ?_
  rw [montMul_cast h, ← hmul, mul_inv_cancel_right₀ (radix_cast_ne_zero h d)]

end Sys2Proof
end

section
/-!
PROOFS. The commands of the field engine (40_field.md): what a checked command answers with its sources in range and
out of range, the frame of each kind of completion, and each command's word, value or flag.
-/

namespace Sys2Proof.Machine

open Params

variable {s : State} {d : Domain} {ra rb rd : FReg} {i : Instr}

/-! ### The range check of one source and of two (60_exceptions.md R276) -/

theorem State.InRange.source (ha : s.InRange d ra) : ∀ w ∈ [s.readFR ra], w < s.modulus d :=
  List.forall_mem_singleton.2 ha

theorem State.InRange.sources (ha : s.InRange d ra) (hb : s.InRange d rb) :
    ∀ w ∈ [s.readFR ra, s.readFR rb], w < s.modulus d :=
  List.forall_mem_cons.2 ⟨ha, hb.source⟩

theorem exec_source_outOfRange {t : State} (hexec : exec i s = rangeChecked (s.modulus d) [s.readFR ra] s t)
    (h : ¬s.InRange d ra) : exec i s = .next (errorState .range s) :=
  hexec.trans (rangeChecked_outOfRange (List.mem_singleton_self _) h)

theorem exec_sources_outOfRange {t : State}
    (hexec : exec i s = rangeChecked (s.modulus d) [s.readFR ra, s.readFR rb] s t)
    (h : ¬(s.InRange d ra ∧ s.InRange d rb)) : exec i s = .next (errorState .range s) := by
  rw [hexec]
  obtain ha | hb := not_and_or.1 h
  · exact rangeChecked_outOfRange (by simp) ha
  · exact rangeChecked_outOfRange (by simp) hb

/-! ### The register a command writes -/

theorem State.readFR_writeFR_same (s : State) (rd : FReg) (w : Nat) : (s.writeFR rd w).readFR rd = w := by simp

theorem State.value_writeFR_same (s : State) (rd : FReg) (w : Nat) (d : Domain) :
    (s.writeFR rd w).value d rd = s.cfg.val (s.modulus d) w := by
  simp [State.value]

/-! ### The frame of a completion -/

theorem onlyFR_writeFR_setCF (s : State) (rd : FReg) (w : Nat) (b : Bool) :
    OnlyFR rd s ((s.writeFR rd w).setCF b).completed :=
  { succeeds := ⟨rfl, rfl, rfl, rfl, ⟨rfl, rfl, rfl, rfl, rfl, rfl, rfl⟩⟩
    fr := fun i hi => by simp [hi]
    pr := fun _ => rfl
    ar := fun _ => rfl
    lt := fun _ => rfl
    buf := ⟨fun _ => rfl, rfl⟩ }

theorem onlyWord_writeFR (s : State) (rd : FReg) (w : Nat) : OnlyWord rd s (s.writeFR rd w).completed :=
  { only := onlyFR_writeFR_setCF s rd w s.cf
    cf := rfl
    hidden := rfl }

theorem onlyCF_setCF (s : State) (b : Bool) : OnlyCF s (s.setCF b).completed :=
  { succeeds := ⟨rfl, rfl, rfl, rfl, ⟨rfl, rfl, rfl, rfl, rfl, rfl, rfl⟩⟩
    fr := fun _ => rfl
    pr := fun _ => rfl
    ar := fun _ => rfl
    lt := fun _ => rfl
    buf := ⟨fun _ => rfl, rfl⟩ }

theorem onlyEncoding_storeEncoding {bytes : List Byte} (hwf : Memory.wf s.buf = true) (hlen : bytes.length < 256) :
    OnlyEncoding bytes s (s.storeEncoding bytes).completed :=
  { succeeds := ⟨rfl, rfl, rfl, rfl, ⟨rfl, rfl, rfl, rfl, rfl, rfl, rfl⟩⟩
    stored := fun i h => s.bufByte_storeEncoding_inside bytes hwf i h
    beyond := fun i h => s.bufByte_storeEncoding_beyond bytes i h
    buflen := by simp [Nat.mod_eq_of_lt hlen]
    fr := fun _ => rfl
    pr := fun _ => rfl
    ar := fun _ => rfl
    lt := fun _ => rfl
    cf := rfl }

/-! ### What a command that completes answers -/

section
variable {m w : Nat} {b : Bool} {sources : List Nat} (hin : ∀ w ∈ sources, w < m)
include hin

/-- A range-checked command that writes the word `w`. -/
theorem exec_writes_word (hexec : exec i s = rangeChecked m sources s (s.writeFR rd w)) :
    ∃ t, exec i s = .next t ∧ OnlyWord rd s t ∧ t.readFR rd = w ∧
      ∀ d, t.value d rd = s.cfg.val (s.modulus d) w :=
  ⟨_, hexec.trans (rangeChecked_inRange hin), onlyWord_writeFR s rd w, s.readFR_writeFR_same rd w,
    s.value_writeFR_same rd w⟩

/-- A range-checked command that writes the flag `b`. -/
theorem exec_writes_cf (hexec : exec i s = rangeChecked m sources s (s.setCF b)) :
    ∃ t, exec i s = .next t ∧ OnlyCF s t ∧ t.hidden = s.hidden ∧ t.cf = b :=
  ⟨_, hexec.trans (rangeChecked_inRange hin), onlyCF_setCF s b, rfl, rfl⟩

end

/-! ### Commands that write one word -/

/-- Settles O16: the words are `(x + y) mod m`, `(x - y) mod m`, `(0 - x) mod m` and `2*x mod m`; the value of a sum, of
a difference and of a double is that of the values. -/
theorem fieldAdditionCommands : Obligations.FieldAdditionCommands := by
  intro s d rd ra rb hlegal
  have hpos := modulus_pos hlegal d
  refine ⟨⟨decodeOfEncodeIsTheCommand (.fadd d rd ra rb) rfl, decodeOfEncodeIsTheCommand (.fsub d rd ra rb) rfl,
      decodeOfEncodeIsTheCommand (.fneg d rd ra) rfl, decodeOfEncodeIsTheCommand (.fdbl d rd ra) rfl⟩,
    fun ha hb => ⟨?fadd, ?fsub⟩, fun ha => ⟨?fneg, ?fdbl⟩,
    fun h => ⟨exec_sources_outOfRange rfl h, exec_sources_outOfRange rfl h⟩,
    fun h => ⟨exec_source_outOfRange rfl h, exec_source_outOfRange rfl h⟩⟩
  case fadd =>
    obtain ⟨t, ht, honly, hword, hvalue⟩ := exec_writes_word (i := .fadd d rd ra rb) (ha.sources hb) rfl
    exact ⟨t, ht, honly, hword, (hvalue d).trans (val_add _ _ _ _)⟩
  case fsub =>
    obtain ⟨t, ht, honly, hword, hvalue⟩ := exec_writes_word (i := .fsub d rd ra rb) (ha.sources hb) rfl
    refine ⟨t, ht, honly, ?_, ?_⟩
    · rw [hword]; exact subMod_eq_emod hpos _ _
    · rw [hvalue, State.modulus, val_subMod hlegal]; exact subMod_eq_emod hpos _ _
  case fneg =>
    obtain ⟨t, ht, honly, hword, hvalue⟩ := exec_writes_word (i := .fneg d rd ra) ha.source rfl
    refine ⟨t, ht, honly, ?_, ?_⟩
    · rw [hword]; exact subMod_eq_emod hpos 0 _
    · rw [hvalue, State.modulus, val_subMod hlegal, val_zero]; exact subMod_eq_emod hpos 0 _
  case fdbl =>
    obtain ⟨t, ht, honly, hword, hvalue⟩ := exec_writes_word (i := .fdbl d rd ra) ha.source rfl
    exact ⟨t, ht, honly, hword, (hvalue d).trans (val_double _ _ _)⟩

/-- Settles O17: the word is the product with `inv_m(R)`, and any inverse of `R` below `m` is that one. -/
theorem montgomeryProductCommands : Obligations.MontgomeryProductCommands := by
  intro s d rd ra rb hlegal
  refine ⟨⟨decodeOfEncodeIsTheCommand (.fmul d rd ra rb) rfl, decodeOfEncodeIsTheCommand (.fsqr d rd ra) rfl⟩,
    fun ha hb => ?fmul, fun ha => ?fsqr, exec_sources_outOfRange rfl, exec_source_outOfRange rfl⟩
  case fmul =>
    obtain ⟨t, ht, honly, hword, hvalue⟩ := exec_writes_word (i := .fmul d rd ra rb) (ha.sources hb) rfl
    exact ⟨t, ht, honly, fun inv hlt hinv => hword.trans (montMul_eq_mul_mod hlegal d hlt hinv _ _),
      (hvalue d).trans (val_montMul _ _ _ _)⟩
  case fsqr =>
    obtain ⟨t, ht, honly, hword, hvalue⟩ := exec_writes_word (i := .fsqr d rd ra) ha.source rfl
    exact ⟨t, ht, honly, fun inv hlt hinv => hword.trans (montMul_eq_mul_mod hlegal d hlt hinv _ _),
      (hvalue d).trans (val_montMul _ _ _ _)⟩

/-- Settles O18: `val` undoes `mont`, and any inverse of `R` below `m` is `inv_m(R)`. -/
theorem montgomeryConversionCommands : Obligations.MontgomeryConversionCommands := by
  intro s d rd ra hlegal
  refine ⟨⟨decodeOfEncodeIsTheCommand (.ftom d rd ra) rfl, decodeOfEncodeIsTheCommand (.ffromm d rd ra) rfl⟩,
    fun ha => ⟨?ftom, ?ffromm⟩, fun h => ⟨exec_source_outOfRange rfl h, exec_source_outOfRange rfl h⟩⟩
  case ftom =>
    obtain ⟨t, ht, honly, hword, hvalue⟩ := exec_writes_word (i := .ftom d rd ra) ha.source rfl
    exact ⟨t, ht, honly, hword, (hvalue d).trans (val_mont hlegal d ha)⟩
  case ffromm =>
    obtain ⟨t, ht, honly, hword, hvalue⟩ := exec_writes_word (i := .ffromm d rd ra) ha.source rfl
    exact ⟨t, ht, honly, hword, fun inv hlt hinv =>
      ⟨hword.trans (val_eq_mul_mod hlegal d hlt hinv _), (hvalue d).trans (val_eq_mul_mod hlegal d hlt hinv _)⟩⟩

/-- Settles O19: the immediate is reduced modulo `m` before `mont`, which `val` undoes. -/
theorem smallConstantLoad : Obligations.SmallConstantLoad := by
  intro s d rd imm8 hlegal
  obtain ⟨t, ht, honly, hword, hvalue⟩ :=
    exec_writes_word (i := .fldk d rd imm8) (List.forall_mem_nil (· < s.modulus d)) rfl
  exact ⟨decodeOfEncodeIsTheCommand (.fldk d rd imm8) rfl, t, ht, honly, hword,
    (hvalue d).trans (val_mont hlegal d (Nat.mod_lt _ (modulus_pos hlegal d)))⟩

/-- Settles O20: the word is selected by CF; a source below the modulus shows that the modulus is not 0. -/
theorem conditionalFieldCommands : Obligations.ConditionalFieldCommands := by
  intro s d rd ra rb
  refine ⟨⟨decodeOfEncodeIsTheCommand (.fsel d rd ra rb) rfl, decodeOfEncodeIsTheCommand (.fcneg d rd ra) rfl⟩,
    fun ha hb => ?fsel, fun ha => ?fcneg, exec_sources_outOfRange rfl, exec_source_outOfRange rfl⟩
  case fsel =>
    obtain ⟨t, ht, honly, hword, -⟩ := exec_writes_word (i := .fsel d rd ra rb) (ha.sources hb) rfl
    exact ⟨t, ht, honly, fun hcf => by rw [hword, hcf]; rfl, fun hcf => by rw [hword, hcf]; rfl⟩
  case fcneg =>
    obtain ⟨t, ht, honly, hword, -⟩ := exec_writes_word (i := .fcneg d rd ra) ha.source rfl
    refine ⟨t, ht, honly, fun hcf => ?_, fun hcf => by rw [hword, hcf]; rfl⟩
    rw [hword, hcf]
    exact subMod_eq_emod (Nat.zero_lt_of_lt ha) 0 _

/-! ### Commands that write CF -/

/-- Settles O21: a word below the modulus is 0, or equals another, exactly when the values do. -/
theorem fieldPredicateCommands : Obligations.FieldPredicateCommands := by
  intro s d ra rb hlegal
  refine ⟨⟨decodeOfEncodeIsTheCommand (.fisz d ra) rfl, decodeOfEncodeIsTheCommand (.fisodd d ra) rfl,
      decodeOfEncodeIsTheCommand (.feq d ra rb) rfl⟩,
    fun ha => ⟨?fisz, ?fisodd⟩, fun ha hb => ?feq,
    fun h => ⟨exec_source_outOfRange rfl h, exec_source_outOfRange rfl h⟩, exec_sources_outOfRange rfl⟩
  case fisz =>
    obtain ⟨t, ht, honly, hhidden, hcf⟩ := exec_writes_cf (i := .fisz d ra) ha.source rfl
    have hzero : t.cf = true ↔ s.readFR ra = 0 := by rw [hcf, flagZero, decide_eq_true_iff]
    exact ⟨t, ht, honly, hhidden, hzero, hzero.trans (val_eq_zero hlegal d ha).symm⟩
  case fisodd =>
    obtain ⟨t, ht, honly, hhidden, hcf⟩ := exec_writes_cf (i := .fisodd d ra) ha.source rfl
    exact ⟨t, ht, honly, hhidden, by rw [hcf, flagOdd, decide_eq_true_iff]⟩
  case feq =>
    obtain ⟨t, ht, honly, hhidden, hcf⟩ := exec_writes_cf (i := .feq d ra rb) (ha.sources hb) rfl
    have hequal : t.cf = true ↔ s.readFR ra = s.readFR rb := by rw [hcf, flagEqual, decide_eq_true_iff]
    exact ⟨t, ht, honly, hhidden, hequal, hequal.trans (val_inj hlegal d ha hb).symm⟩

theorem exec_setc_of_legal {imm8 : BitVec 8} (h : imm8.toNat ≤ 1) (s : State) :
    exec (.setc imm8) s = .next (s.setCF (decide (imm8.toNat = 1))).completed := by
  show immChecked (immIsBit imm8) s _ = _
  rw [immIsBit, decide_eq_true h, immChecked_legal]

theorem exec_setc_of_illegal {imm8 : BitVec 8} (h : 1 < imm8.toNat) (s : State) :
    exec (.setc imm8) s = .next (errorState .imm s) := by
  show immChecked (immIsBit imm8) s _ = _
  rw [immIsBit, decide_eq_false (Nat.not_le.2 h), immChecked_illegal, State.failed_eq_errorState]

/-- Settles O22: the immediate is legal exactly when it is 0 or 1. -/
theorem setChoiceFlagCommand : Obligations.SetChoiceFlagCommand := by
  intro s imm8
  refine ⟨fun h => decodeOfEncodeIsTheCommand (.setc imm8) (decide_eq_true h), fun h => ?_,
    fun h => exec_setc_of_illegal h s⟩
  exact ⟨_, exec_setc_of_legal h s, onlyCF_setCF s _, rfl, decide_eq_true_iff⟩

/-! ### The byte form in the buffer -/

/-- FDEC of an integer below the modulus (40_field.md R130). -/
theorem exec_fdec_of_lt (h : s.bufValue d 0 < s.modulus d) (rd : FReg) :
    exec (.fdec d rd) s =
      .next ((s.writeFR rd (s.cfg.mont (s.modulus d) (s.bufValue d 0))).setCF true).completed := by
  show execFdec d rd s = _
  simp only [execFdec, h, decide_true, if_true]
  exact rangeChecked_inRange nofun

/-- FDEC of an integer that is not (40_field.md R130). -/
theorem exec_fdec_of_le (h : s.modulus d ≤ s.bufValue d 0) (rd : FReg) :
    exec (.fdec d rd) s = .next ((s.writeFR rd 0).setCF false).completed := by
  show execFdec d rd s = _
  simp only [execFdec, Nat.not_lt.2 h, decide_false, Bool.false_eq_true, if_false]
  exact rangeChecked_inRange nofun

/-- Settles O24: FDEC by the two cases of its integer; FRED reduces the integer before `mont`, which `val` undoes. -/
theorem fieldDecodeCommands : Obligations.FieldDecodeCommands := by
  intro s d rd hlegal
  refine ⟨⟨decodeOfEncodeIsTheCommand (.fdec d rd) rfl, decodeOfEncodeIsTheCommand (.fred d rd) rfl⟩, ?fdec, ?fred⟩
  case fdec =>
    obtain hlt | hle := Nat.lt_or_ge (s.bufValue d 0) (s.modulus d)
    · exact ⟨_, exec_fdec_of_lt hlt rd, onlyFR_writeFR_setCF s rd _ _, rfl,
        fun _ => ⟨rfl, s.readFR_writeFR_same rd _, (s.value_writeFR_same rd _ d).trans (val_mont hlegal d hlt)⟩,
        fun hle => absurd hlt (Nat.not_lt.2 hle)⟩
    · exact ⟨_, exec_fdec_of_le hle rd, onlyFR_writeFR_setCF s rd _ _, rfl,
        fun hlt => absurd hlt (Nat.not_lt.2 hle), fun _ => ⟨rfl, s.readFR_writeFR_same rd _⟩⟩
  case fred =>
    obtain ⟨t, ht, honly, hword, hvalue⟩ :=
      exec_writes_word (i := .fred d rd) (List.forall_mem_nil (· < s.modulus d)) rfl
    exact ⟨t, ht, honly, hword, (hvalue d).trans (val_mont hlegal d (Nat.mod_lt _ (modulus_pos hlegal d)))⟩

theorem exec_fenc_of_inRange (ha : s.InRange d ra) :
    exec (.fenc d ra) s = .next (s.storeEncoding (s.valueBytes d (s.value d ra))).completed :=
  rangeChecked_inRange ha.source

/-- An encoding is shorter than 256 bytes, so BUFLEN holds its length (00_scope.md R9). -/
theorem length_valueBytes_lt (hlegal : s.cfg.Legal) (d : Domain) (v : Nat) : (s.valueBytes d v).length < 256 := by
  have hfits := length_valueBytes_le_bufBytes hlegal d v
  have hmax := hlegal.bufMax
  omega

/-- Settles O25: the bytes of the value are stored within the canonical buffer, and BUFLEN holds their number. -/
theorem fieldEncodeCommand : Obligations.FieldEncodeCommand := by
  intro s d ra hinv
  refine ⟨fun ha => ?_, exec_source_outOfRange rfl⟩
  have honly := onlyEncoding_storeEncoding hinv.bufCanonical (length_valueBytes_lt hinv.legal d (s.value d ra))
  exact ⟨_, exec_fenc_of_inRange ha, honly, honly.buflen.trans (toBytes_length _ _ _), rfl⟩

/-- The stored byte form of a residue reads back as the residue. -/
theorem bufValue_storeEncoding {v : Nat} (hwf : Memory.wf s.buf = true) (hv : v < s.modulus d) :
    (s.storeEncoding (s.valueBytes d v)).bufValue d 0 = v := by
  have hread : (s.storeEncoding (s.valueBytes d v)).bufBytes 0 (s.cfg.fb d) = s.valueBytes d v := by
    have hbytes := Memory.readBytes_writeBytes 0 (s.valueBytes d v) hwf
    rwa [State.valueBytes, toBytes_length] at hbytes
  rw [State.bufValue, State.storeEncoding_cfg, hread, State.valueBytes, fromBytes_toBytes]
  exact Nat.mod_eq_of_lt (hv.trans (modulus_le_pow_fb s.cfg d))

/-- Settles O26: FDEC reads the value back, which is below the modulus, and `mont` undoes `val`. -/
theorem fieldEncodingRoundTrip : Obligations.FieldEncodingRoundTrip := by
  intro s d rd ra hinv ha
  have hvalue : s.value d ra < s.modulus d := val_lt (modulus_pos hinv.legal d) _
  have hfenc := exec_fenc_of_inRange ha
  set t := (s.storeEncoding (s.valueBytes d (s.value d ra))).completed
  have hread : t.bufValue d 0 = s.value d ra := bufValue_storeEncoding hinv.bufCanonical hvalue
  have hmont : t.cfg.mont (t.modulus d) (t.bufValue d 0) = s.readFR ra := by
    rw [hread]
    exact mont_val hinv.legal d ha
  exact ⟨t, _, hfenc, exec_fdec_of_lt (hread.trans_lt hvalue) rd, (t.readFR_writeFR_same rd _).trans hmont, rfl⟩

end Sys2Proof.Machine
end

section
/-!
PROOFS. The modular inverse engine (41_inverter.md R150 to R154): what every divstep keeps, and that the finalised
output is FINV's word where the engine has converged.
-/

namespace Sys2Proof

/-! ### What every divstep keeps (41_inverter.md R152) -/

/-- The engine after `i` divsteps on the source word `w`: `f` and `g` are scaled down by `2^i` against `v*w` and `r*w`
(41_inverter.md R152). -/
structure DivstepInv (m w i : Nat) (e : InverterRegs) : Prop where
  fOdd : e.f % 2 = 1
  vLt : e.v < m
  rLt : e.r < m
  fScaled : (e.f : ZMod m) * 2 ^ i = e.v * w
  gScaled : (e.g : ZMod m) * 2 ^ i = e.r * w

section
variable {m : Nat} {e : InverterRegs}

/-! The three rows of the table of R152. -/

theorem divstep_of_swap (hdelta : 0 < e.delta) (hg : e.g % 2 = 1) :
    divstep m e = ⟨1 - e.delta, e.g, (e.g - e.f) / 2, 2 * e.r % m, subMod m e.r e.v⟩ :=
  if_pos ⟨hdelta, hg⟩

theorem divstep_of_odd (hdelta : ¬0 < e.delta) (hg : e.g % 2 = 1) :
    divstep m e = ⟨1 + e.delta, e.f, (e.g + e.f) / 2, 2 * e.v % m, (e.r + e.v) % m⟩ :=
  (if_neg fun h => hdelta h.1).trans (if_pos hg)

theorem divstep_of_even (hg : ¬e.g % 2 = 1) :
    divstep m e = ⟨1 + e.delta, e.f, e.g / 2, 2 * e.v % m, e.r⟩ :=
  (if_neg fun h => hg h.2).trans (if_neg hg)

end

section
variable {m : Nat}

/-- An exact halving raises the scale by one. -/
theorem half_mul_two_pow_succ {x : Int} (hx : 2 ∣ x) (i : Nat) :
    ((x / 2 : Int) : ZMod m) * 2 ^ (i + 1) = x * 2 ^ i := by
  obtain ⟨y, rfl⟩ := hx
  rw [Int.mul_ediv_cancel_left y two_ne_zero]
  push_cast
  ring

/-- Doubling `v` answers the raised scale of an `f` that stays. -/
theorem mul_two_pow_succ_eq_double {x : Int} {i v w : Nat} (h : (x : ZMod m) * 2 ^ i = v * w) :
    (x : ZMod m) * 2 ^ (i + 1) = (2 * v % m : Nat) * w := by
  rw [ZMod.natCast_mod, pow_succ, ← mul_assoc, h]
  push_cast
  ring

theorem divstepInv_start (hodd : m % 2 = 1) (h1 : 1 < m) (w : Nat) :
    DivstepInv m w 0 (inverterStart m w) where
  fOdd := by show (m : Int) % 2 = 1; omega
  vLt := by show 0 < m; omega
  rLt := h1
  fScaled := by simp [inverterStart]
  gScaled := by simp [inverterStart]

namespace DivstepInv

variable {w i : Nat} {e : InverterRegs}

/-- Each row of the table keeps the invariant: `f` is odd, so the halving is exact. -/
theorem divstep (h : DivstepInv m w i e) : DivstepInv m w (i + 1) (divstep m e) := by
  obtain ⟨hf, hv, hr, hfs, hgs⟩ := h
  have hm : 0 < m := Nat.zero_lt_of_lt hv
  by_cases hg : e.g % 2 = 1
  · by_cases hdelta : 0 < e.delta
    · rw [divstep_of_swap hdelta hg]
      refine ⟨hg, Nat.mod_lt _ hm, subMod_lt hm _ _, mul_two_pow_succ_eq_double hgs, ?_⟩
      rw [half_mul_two_pow_succ (by omega), subMod_cast hm, sub_mul, ← hfs, ← hgs, Int.cast_sub, sub_mul]
    · rw [divstep_of_odd hdelta hg]
      refine ⟨hf, Nat.mod_lt _ hm, Nat.mod_lt _ hm, mul_two_pow_succ_eq_double hfs, ?_⟩
      rw [half_mul_two_pow_succ (by omega), ZMod.natCast_mod, Nat.cast_add, add_mul, ← hfs, ← hgs, Int.cast_add,
        add_mul]
  · rw [divstep_of_even hg]
    refine ⟨hf, Nat.mod_lt _ hm, hr, mul_two_pow_succ_eq_double hfs, ?_⟩
    rw [half_mul_two_pow_succ (by omega), hgs]

theorem divsteps (h : DivstepInv m w i e) (count : Nat) : DivstepInv m w (i + count) (divsteps m count e) := by
  induction count generalizing i e with
  | zero => exact h
  | succ count ih =>
    rw [Nat.add_comm count 1, ← Nat.add_assoc, Nat.add_comm 1 count]
    exact ih h.divstep

end DivstepInv

theorem divstepInv_divsteps (hodd : m % 2 = 1) (h1 : 1 < m) (w count : Nat) :
    DivstepInv m w count (divsteps m count (inverterStart m w)) := by
  have h := (divstepInv_start hodd h1 w).divsteps count
  rwa [Nat.zero_add] at h

end

/-- Settles O28: the start has the invariant and every divstep keeps it, by induction on the count. -/
theorem divstepInvariant : Obligations.DivstepInvariant := by
  intro m w i hodd h1
  obtain ⟨hf, hv, hr, hfs, hgs⟩ := divstepInv_divsteps hodd h1 w i
  refine ⟨hf, hv, hr, ?_, ?_⟩ <;> rw [← ZMod.intCast_zmod_eq_zero_iff_dvd] <;> push_cast
  · exact sub_eq_zero.2 hfs
  · exact sub_eq_zero.2 hgs

/-- Once `g` and `v` are 0 they stay so (41_inverter.md R153). -/
theorem divsteps_v_of_zero {m : Nat} {e : InverterRegs} (hg : e.g = 0) (hv : e.v = 0) (count : Nat) :
    (divsteps m count e).v = 0 := by
  induction count generalizing e with
  | zero => exact hv
  | succ count ih =>
    have hstep : divstep m e = ⟨1 + e.delta, e.f, e.g / 2, 2 * e.v % m, e.r⟩ := divstep_of_even (by rw [hg]; decide)
    refine ih (e := divstep m e) ?_ ?_
    · rw [hstep, hg]; rfl
    · rw [hstep, hv]; simp

/-! ### Finalisation (41_inverter.md R154) -/

namespace Params

variable {c : Params} {d : Domain}

theorem two_cast_ne_zero (h : c.Legal) (d : Domain) : (2 : ZMod (c.modulus d)) ≠ 0 := by
  intro hzero
  have hdvd : c.modulus d ∣ 2 := (ZMod.natCast_eq_zero_iff _ _).1 (by exact_mod_cast hzero)
  exact absurd (Nat.le_of_dvd two_pos hdvd) (Nat.not_le.2 (two_lt_modulus h d))

theorem correction_cast (h : c.Legal) (d : Domain) :
    (c.correction (c.modulus d) : ZMod (c.modulus d)) = 2⁻¹ ^ nDiv (c.modulus d) * (c.radix : ZMod _) ^ 2 := by
  rw [correction, ZMod.natCast_mod, Nat.cast_mul, powMod_cast, invMod_cast (modulus_prime h d) (two_lt_modulus h d)]
  push_cast
  rfl

theorem inverterOut_lt {m : Nat} (hm : 0 < m) (c : Params) (e : InverterRegs) : c.inverterOut m e < m := Nat.mod_lt _ hm

/-- Where `f` is 1 or -1, selecting `v` or `-v` by its sign is multiplying by `f`. -/
theorem inverterOut_cast {m : Nat} (hm : 0 < m) (c : Params) {e : InverterRegs} (hf : e.f = 1 ∨ e.f = -1) :
    (c.inverterOut m e : ZMod m) = e.f * e.v * c.correction m := by
  rw [inverterOut, ZMod.natCast_mod, Nat.cast_mul]
  obtain hf | hf := hf <;> rw [hf]
  · rw [if_neg (by decide), Int.cast_one, one_mul]
  · rw [if_pos (by decide), subMod_cast hm, Nat.cast_zero, zero_sub, Int.cast_neg, Int.cast_one, neg_one_mul]

/-- FINV's word is the inverse of the source word times `R^2` (41_inverter.md R154). -/
theorem mont_invMod_val_cast (h : c.Legal) (d : Domain) (w : Nat) :
    (c.mont (c.modulus d) (invMod (c.modulus d) (c.val (c.modulus d) w)) : ZMod (c.modulus d)) =
      (w : ZMod (c.modulus d))⁻¹ * (c.radix : ZMod _) ^ 2 := by
  have := Fact.mk (modulus_prime h d)
  rw [mont_cast, invMod_cast (modulus_prime h d) (two_lt_modulus h d), val_cast h, mul_inv, inv_inv, mul_assoc, pow_two]

/-- Where `f` is 1 or -1 after `N` divsteps, `f * v * 2^-N` is the inverse of the source word. -/
theorem sign_mul_v_mul_inv_two_pow (h : c.Legal) {w N : Nat} {e : InverterRegs} (hf : e.f = 1 ∨ e.f = -1)
    (hinv : DivstepInv (c.modulus d) w N e) :
    (e.f : ZMod (c.modulus d)) * e.v * 2⁻¹ ^ N = (w : ZMod (c.modulus d))⁻¹ := by
  have := Fact.mk (modulus_prime h d)
  have hsq : (e.f : ZMod (c.modulus d)) * e.f = 1 := by obtain hf | hf := hf <;> rw [hf] <;> norm_num
  refine eq_inv_of_mul_eq_one_left ?_
  calc (e.f : ZMod (c.modulus d)) * e.v * 2⁻¹ ^ N * w
      = e.f * (e.v * w) * 2⁻¹ ^ N := by ring
    _ = (e.f * e.f) * (2 * 2⁻¹) ^ N := by rw [← hinv.fScaled, mul_pow]; ring
    _ = 1 := by rw [hsq, mul_inv_cancel₀ (two_cast_ne_zero h d), one_pow, one_mul]

end Params

open Params

/-- Settles O29: by the invariant of the divsteps both words are the residue `inv_m(w) * R^2`; for the word 0, `v` stays
0. -/
theorem inverseEngineGivesTheInverse : Obligations.InverseEngineGivesTheInverse := by
  intro c d w h _
  have hm := modulus_pos h d
  refine ⟨fun _ _ hf => ?_, fun hzero => ?_⟩
  · have hinv := divstepInv_divsteps (modulus_odd h d) (Nat.lt_of_succ_lt (two_lt_modulus h d)) w (nDiv (c.modulus d))
    refine eq_of_cast_eq (inverterOut_lt hm c _) (mont_lt hm _) ?_
    rw [inverterOut_cast hm c hf, correction_cast h, ← mul_assoc,
      sign_mul_v_mul_inv_two_pow h hf hinv, mont_invMod_val_cast h]
  · have hv : (inverterRun (c.modulus d) w).v = 0 :=
      divsteps_v_of_zero (e := inverterStart (c.modulus d) w) (congrArg Nat.cast hzero) rfl _
    simp [inverterOut, hv, subMod]

end Sys2Proof
end

section
/-!
PROOFS. FINV (41_inverter.md R155).
-/

namespace Sys2Proof.Machine

open Params

variable {s : State} {d : Domain} {rd ra : FReg}

/-- Replacing the hidden intermediates is within the frame of a command that writes one field register. -/
theorem OnlyFR.drawHidden {t : State} (h : OnlyFR rd s t.completed) : OnlyFR rd s t.drawHidden.completed :=
  { h with succeeds := { h.succeeds with control := { h.succeeds.control with } } }

theorem exec_finv_of_ne_zero (ha : s.InRange d ra) (hne : s.readFR ra ≠ 0) (rd : FReg) :
    exec (.finv d rd ra) s =
      .next ((s.writeFR rd (s.cfg.mont (s.modulus d) (invMod (s.modulus d) (s.value d ra)))).setCF
        true).drawHidden.completed := by
  show execFinv d rd ra s = _
  simp only [execFinv, hne, ne_eq, not_false_eq_true, decide_true, if_true]
  exact rangeChecked_inRange ha.source

theorem exec_finv_of_zero (ha : s.InRange d ra) (hzero : s.readFR ra = 0) (rd : FReg) :
    exec (.finv d rd ra) s = .next ((s.writeFR rd 0).setCF false).drawHidden.completed := by
  show execFinv d rd ra s = _
  simp only [execFinv, hzero, ne_eq, not_true_eq_false, decide_false, Bool.false_eq_true, if_false]
  exact rangeChecked_inRange (hzero ▸ ha.source)

/-- The word FINV writes has the inverse value: the value of a non-zero word is not 0, and `val` undoes `mont`. -/
theorem val_finvWord_mul {c : Params} (h : c.Legal) {w : Nat} (hw : w < c.modulus d) (hne : w ≠ 0) :
    c.val (c.modulus d) (c.mont (c.modulus d) (invMod (c.modulus d) (c.val (c.modulus d) w))) *
      c.val (c.modulus d) w % c.modulus d = 1 := by
  have hm := modulus_pos h d
  have hval : c.val (c.modulus d) w % c.modulus d ≠ 0 := by
    rw [Nat.mod_eq_of_lt (val_lt hm w)]
    exact mt (val_eq_zero h d hw).1 hne
  rw [val_mont h d (invMod_lt hm _), Nat.mul_comm]
  exact invMod_mul (modulus_prime h d) (two_lt_modulus h d) hval

/-- Settles O27: by whether the source word is 0. -/
theorem fieldInverseCommand : Obligations.FieldInverseCommand := by
  intro s d rd ra hlegal
  refine ⟨fun ha => ?_, exec_source_outOfRange rfl⟩
  by_cases hzero : s.readFR ra = 0
  · exact ⟨_, exec_finv_of_zero ha hzero rd, (onlyFR_writeFR_setCF s rd _ _).drawHidden, absurd hzero,
      fun _ => ⟨rfl, s.readFR_writeFR_same rd _⟩⟩
  · refine ⟨_, exec_finv_of_ne_zero ha hzero rd, (onlyFR_writeFR_setCF s rd _ _).drawHidden,
      fun _ => ⟨rfl, ?_, ?_⟩, fun h => absurd h hzero⟩
    · exact (s.readFR_writeFR_same rd _).trans_lt (mont_lt (modulus_pos hlegal d) _)
    · show ((s.writeFR rd _).value d rd) * s.value d ra % s.modulus d = 1
      rw [State.value_writeFR_same]
      exact val_finvWord_mul hlegal ha hzero

end Sys2Proof.Machine
end

section
/-!
PROOFS. Square roots on values (42_sqrt.md R171 to R174), in the field of residues modulo a prime: the EXP and ATKIN
formulas, and the loop of Tonelli–Shanks by an invariant of its state.
-/

namespace Sys2Proof

section
variable {m a x : Nat}

/-! ### Squares and residues in the field -/

/-- The check of R174, in the field. -/
theorem sq_mod_eq_iff (ha : a < m) : x ^ 2 % m = a ↔ (x : ZMod m) ^ 2 = a := by
  rw [← Nat.cast_pow, ZMod.natCast_eq_natCast_iff', Nat.mod_eq_of_lt ha]

theorem cast_eq_one_iff (h : 1 < m) : (x : ZMod m) = 1 ↔ x % m = 1 := by
  have hiff := ZMod.natCast_eq_natCast_iff' x 1 m
  rwa [Nat.cast_one, Nat.mod_eq_of_lt h] at hiff

theorem IsResidue.exists_sq_eq (h : IsResidue m a) : ∃ y : ZMod m, y ^ 2 = a := by
  obtain ⟨x, -, hx⟩ := h
  exact ⟨x, by rw [← Nat.cast_pow, (ZMod.natCast_eq_natCast_iff' _ _ _).2 hx]⟩

/-- Fermat: the power `m + 1` is the square, 0 included. -/
theorem pow_modulus_succ (hp : Nat.Prime m) (y : ZMod m) : y ^ (m + 1) = y ^ 2 := by
  have := Fact.mk hp
  rw [pow_succ, ZMod.pow_card, pow_two]

/-- Euler: the power `m / 2` of a non-zero square is 1. -/
theorem pow_half_eq_one (hp : Nat.Prime m) {z : ZMod m} (hz : z ≠ 0) (hsq : ∃ y : ZMod m, y ^ 2 = z) :
    z ^ (m / 2) = 1 := by
  have := Fact.mk hp
  obtain ⟨y, rfl⟩ := hsq
  exact (ZMod.euler_criterion m hz).1 (IsSquare.sq y)

/-! ### EXP (42_sqrt.md R171) -/

theorem sqrtExp_cast_sq (hp : Nat.Prime m) (h3 : m % 4 = 3) (hres : IsResidue m a) : (sqrtExp m a : ZMod m) ^ 2 = a := by
  obtain ⟨y, hy⟩ := hres.exists_sq_eq
  have hexp : 2 * ((m + 1) / 4 * 2) = m + 1 := by omega
  rw [sqrtExp, powMod_cast, ← hy, ← pow_mul, ← pow_mul, hexp, pow_modulus_succ hp]

/-! ### ATKIN (42_sqrt.md R172) -/

/-- `2` is no square modulo a prime that is 5 modulo 8. -/
theorem two_pow_half_eq_neg_one (hp : Nat.Prime m) (h5 : m % 8 = 5) : (2 : ZMod m) ^ (m / 2) = -1 := by
  have := Fact.mk hp
  have htwo : (2 : ZMod m) ≠ 0 := by
    intro hzero
    have hdvd : m ∣ 2 := (ZMod.natCast_eq_zero_iff _ _).1 (by exact_mod_cast hzero)
    have := Nat.le_of_dvd two_pos hdvd
    omega
  refine (ZMod.pow_div_two_eq_neg_one_or_one m htwo).resolve_left fun hone => ?_
  have := (ZMod.exists_sq_eq_two_iff (by omega)).1 ((ZMod.euler_criterion m htwo).2 hone)
  omega

/-- Atkin's `b = t * a1`, in the field. -/
def atkinB (m a : Nat) : ZMod m := 2 ^ ((m - 5) / 8) * (a : ZMod m) ^ ((m - 5) / 8)

theorem sqrtAtkin_cast (hm : 0 < m) (a : Nat) :
    (sqrtAtkin m a : ZMod m) = a * atkinB m a * (2 * a * atkinB m a ^ 2 - 1) := by
  simp only [sqrtAtkin, atkinB, ZMod.natCast_mod, Nat.cast_mul, Nat.cast_pow, subMod_cast hm, powMod_cast,
    Nat.cast_ofNat, Nat.cast_one]

/-- Atkin's `i = 2 * a * b^2` is a square root of -1: its square is `(2 * a)^((m - 1) / 2)`. -/
theorem atkin_i_sq (hp : Nat.Prime m) (h5 : m % 8 = 5) (ha : (a : ZMod m) ≠ 0) (hres : IsResidue m a) :
    (2 * (a : ZMod m) * atkinB m a ^ 2) ^ 2 = -1 := by
  have hexp : m / 2 = (m - 5) / 8 * 4 + 2 := by omega
  calc (2 * (a : ZMod m) * atkinB m a ^ 2) ^ 2
      = 2 ^ (m / 2) * (a : ZMod m) ^ (m / 2) := by rw [atkinB, hexp]; ring
    _ = -1 := by rw [two_pow_half_eq_neg_one hp h5, pow_half_eq_one hp ha hres.exists_sq_eq, mul_one]

/-- `(a * b * (i - 1))^2` is `-a * i^2` where `i^2 + 1` is 0. -/
theorem sqrtAtkin_cast_sq (hp : Nat.Prime m) (h5 : m % 8 = 5) (hres : IsResidue m a) :
    (sqrtAtkin m a : ZMod m) ^ 2 = a := by
  rw [sqrtAtkin_cast hp.pos]
  by_cases hzero : (a : ZMod m) = 0
  · rw [hzero]; ring
  · have hi := atkin_i_sq hp h5 hzero hres
    calc ((a : ZMod m) * atkinB m a * (2 * a * atkinB m a ^ 2 - 1)) ^ 2
        = (a : ZMod m) ^ 2 * atkinB m a ^ 2 * ((2 * a * atkinB m a ^ 2) ^ 2 + 1)
          - a * (2 * a * atkinB m a ^ 2) ^ 2 := by ring
      _ = (a : ZMod m) := by rw [hi]; ring

/-- Settles O31: by the two computations in the field. -/
theorem expAndAtkinFindRoots : Obligations.ExpAndAtkinFindRoots := fun _ a hp ha hres =>
  ⟨fun h3 => ⟨powMod_lt hp.pos _ _, (sq_mod_eq_iff ha).2 (sqrtExp_cast_sq hp h3 hres)⟩,
    fun h5 => ⟨sqrtAtkin_lt hp.pos a, (sq_mod_eq_iff ha).2 (sqrtAtkin_cast_sq hp h5 hres)⟩⟩

end

/-! ### `m - 1 = 2^S_m * Q_m` with `Q_m` odd (00_scope.md R8) -/

/-- `twoAdic` divides all factors 2 out. -/
theorem exists_odd_cofactor {fuel x : Nat} (hpos : 0 < x) (hlt : x < 2 ^ fuel) :
    ∃ q, q % 2 = 1 ∧ x = 2 ^ twoAdic fuel x * q := by
  induction fuel generalizing x with
  | zero => omega
  | succ fuel ih =>
    rw [pow_succ] at hlt
    by_cases heven : x % 2 = 0
    · obtain ⟨q, hodd, hq⟩ := ih (x := x / 2) (by omega) (by omega)
      refine ⟨q, hodd, ?_⟩
      rw [twoAdic, if_pos heven, pow_succ, mul_right_comm, ← hq]
      omega
    · exact ⟨x, by omega, by rw [twoAdic, if_neg heven, pow_zero, one_mul]⟩

theorem qOf_odd_and_factors {m : Nat} (h : 1 < m) : qOf m % 2 = 1 ∧ m - 1 = 2 ^ sOf m * qOf m := by
  obtain ⟨q, hodd, hq⟩ := exists_odd_cofactor (x := m - 1) (by omega) ((Nat.sub_le m 1).trans_lt (lt_two_pow_nbits m))
  have hqOf : qOf m = q := Nat.div_eq_of_eq_mul_right (Nat.two_pow_pos _) hq
  rw [hqOf]
  exact ⟨hodd, hq⟩

theorem sOf_pos {m : Nat} (h : 1 < m) (hodd : m % 2 = 1) : 0 < sOf m := by
  obtain ⟨hq, hfactors⟩ := qOf_odd_and_factors h
  by_contra hzero
  rw [Nat.eq_zero_of_not_pos hzero, pow_zero, one_mul] at hfactors
  omega

theorem half_eq_qOf_mul {m : Nat} (h : 1 < m) (hodd : m % 2 = 1) : m / 2 = qOf m * 2 ^ (sOf m - 1) := by
  obtain ⟨-, hfactors⟩ := qOf_odd_and_factors h
  obtain ⟨s, hs⟩ := Nat.exists_eq_succ_of_ne_zero (sOf_pos h hodd).ne'
  rw [hs, pow_succ, mul_right_comm, mul_comm (2 ^ s)] at hfactors
  rw [hs, Nat.succ_sub_one]
  omega

/-! ### Tonelli–Shanks (42_sqrt.md R173) -/

section
variable {m : Nat}

theorem squarings_cast (k v : Nat) : (squarings m k v : ZMod m) = (v : ZMod m) ^ 2 ^ k := by
  induction k generalizing v with
  | zero => rw [squarings, pow_zero, pow_one]
  | succ k ih => rw [squarings, ih, ZMod.natCast_mod, Nat.cast_mul, ← pow_two, ← pow_mul, ← pow_succ']

/-- The search squares until it meets 1; the power before that one is -1, the other root of 1. `v` stands for the power
before the first one it looks at. -/
theorem leastOrder_eq_some (hp : Nat.Prime m) {fuel i u : Nat} {v : ZMod m} (hlt : u < m) (hu : (u : ZMod m) = v ^ 2)
    (hv : v ≠ 1) (hpow : v ^ 2 ^ fuel = 1) : ∃ j < fuel, leastOrder m fuel i u = some (i + j) ∧ v ^ 2 ^ j = -1 := by
  have := Fact.mk hp
  induction fuel generalizing i u v with
  | zero => exact absurd (by rwa [pow_zero, pow_one] at hpow) hv
  | succ fuel ih =>
    rw [leastOrder]
    by_cases hone : u = 1
    · have hsq : v ^ 2 = 1 := by rw [← hu, hone, Nat.cast_one]
      exact ⟨0, Nat.succ_pos _, if_pos hone, by rw [pow_zero, pow_one]; exact (sq_eq_one_iff.1 hsq).resolve_left hv⟩
    · have hne : v ^ 2 ≠ 1 := by rwa [← hu, Ne, cast_eq_one_iff hp.one_lt, Nat.mod_eq_of_lt hlt]
      obtain ⟨j, hj, hfound, hneg⟩ := ih (i := i + 1) (Nat.mod_lt (u * u) hp.pos)
        (by rw [ZMod.natCast_mod, Nat.cast_mul, hu, pow_two (v ^ 2)]) hne (by rwa [← pow_mul, ← pow_succ'])
      exact ⟨j + 1, Nat.succ_lt_succ hj, by rw [if_neg hone, hfound, Nat.add_right_comm, Nat.add_assoc],
        by rwa [pow_succ', pow_mul]⟩

/-- The loop's state: `x^2 = a * t`, where `t` has order dividing `2^(M - 1)` and `c` has order `2^M`. -/
structure TonelliInv (m a M c t x : Nat) : Prop where
  pos : 0 < M
  tLt : t < m
  cOrder : (c : ZMod m) ^ 2 ^ (M - 1) = -1
  tOrder : (t : ZMod m) ^ 2 ^ (M - 1) = 1
  root : (x : ZMod m) ^ 2 = a * t

variable {a M c t x : Nat}

/-- One round: `i = j + 1` is the least exponent with `t^(2^i) = 1`, so that `t^(2^j)` and the power `2^j` of the new `c`
are both -1, and the new `t` has a smaller order. -/
theorem TonelliInv.round (h : TonelliInv m a M c t x) {j : Nat} (hj : j < M - 1) (hneg : (t : ZMod m) ^ 2 ^ j = -1) :
    let b := squarings m (M - (1 + j) - 1) c
    TonelliInv m a (1 + j) (b * b % m) (t * (b * b % m) % m) (x * b % m) := by
  intro b
  have hsq : ((b * b % m : Nat) : ZMod m) ^ 2 ^ (1 + j - 1) = -1 := by
    have hexp : 2 ^ (M - (1 + j) - 1) * (2 * 2 ^ (1 + j - 1)) = 2 ^ (M - 1) := by
      rw [← pow_succ', ← pow_add]
      congr 1
      omega
    rw [ZMod.natCast_mod, Nat.cast_mul, ← pow_two, squarings_cast, ← pow_mul, ← pow_mul, hexp, h.cOrder]
  refine ⟨by omega, Nat.mod_lt _ (Nat.zero_lt_of_lt h.tLt), hsq, ?_, ?_⟩
  · rw [ZMod.natCast_mod, Nat.cast_mul, mul_pow, hsq, Nat.add_sub_cancel_left, hneg, neg_one_mul, neg_neg]
  · rw [ZMod.natCast_mod, ZMod.natCast_mod, Nat.cast_mul, Nat.cast_mul, ZMod.natCast_mod, Nat.cast_mul, mul_pow, h.root]
    ring

/-- Each round lowers `M`, so `M` rounds are enough. -/
theorem tonelliLoop_cast_sq (hp : Nat.Prime m) {rounds : Nat} (hM : M ≤ rounds) (h : TonelliInv m a M c t x) :
    (tonelliLoop m rounds M c t x : ZMod m) ^ 2 = a := by
  induction rounds generalizing M c t x with
  | zero => exact absurd h.pos (Nat.not_lt.2 hM)
  | succ rounds ih =>
    rw [tonelliLoop]
    by_cases hone : t = 1
    · rw [if_pos hone, h.root, hone, Nat.cast_one, mul_one]
    · have ht : (t : ZMod m) ≠ 1 := by rwa [Ne, cast_eq_one_iff hp.one_lt, Nat.mod_eq_of_lt h.tLt]
      obtain ⟨j, hj, hfound, hneg⟩ := leastOrder_eq_some hp (i := 1) (Nat.mod_lt (t * t) hp.pos)
        (by rw [ZMod.natCast_mod, Nat.cast_mul, pow_two]) ht h.tOrder
      rw [if_neg hone, hfound]
      exact ih (by omega) (h.round hj hneg)

/-- `u` is a primitive `2^S_m`-th root of unity modulo `m` (00_scope.md R8). -/
def IsTonelliRoot (m u : Nat) : Prop := u ^ 2 ^ sOf m % m = 1 ∧ u ^ 2 ^ (sOf m - 1) % m ≠ 1

theorem IsTonelliRoot.pow_eq_neg_one {u : Nat} (hp : Nat.Prime m) (hodd : m % 2 = 1) (h : IsTonelliRoot m u) :
    (u : ZMod m) ^ 2 ^ (sOf m - 1) = -1 := by
  have := Fact.mk hp
  obtain ⟨hfull, hhalf⟩ := h
  rw [← cast_eq_one_iff hp.one_lt, Nat.cast_pow] at hfull
  rw [Ne, ← cast_eq_one_iff hp.one_lt, Nat.cast_pow] at hhalf
  refine (sq_eq_one_iff.1 ?_).resolve_left hhalf
  rwa [← pow_mul, ← pow_succ, Nat.sub_add_cancel (sOf_pos hp.one_lt hodd)]

/-- The state the loop begins with: `t = a^Q` and `x = a^((Q + 1) / 2)`. -/
theorem tonelliInv_start (hp : Nat.Prime m) (hodd : m % 2 = 1) {u : Nat} (hu : IsTonelliRoot m u)
    (ha : (a : ZMod m) ≠ 0) (hres : IsResidue m a) :
    TonelliInv m a (sOf m) u (powMod m a (qOf m)) (powMod m a ((qOf m + 1) / 2)) := by
  obtain ⟨hq, -⟩ := qOf_odd_and_factors hp.one_lt
  refine ⟨sOf_pos hp.one_lt hodd, powMod_lt hp.pos _ _, hu.pow_eq_neg_one hp hodd, ?_, ?_⟩
  · rw [powMod_cast, ← pow_mul, ← half_eq_qOf_mul hp.one_lt hodd, pow_half_eq_one hp ha hres.exists_sq_eq]
  · have hexp : (qOf m + 1) / 2 * 2 = qOf m + 1 := by omega
    rw [powMod_cast, powMod_cast, ← pow_mul, hexp, pow_succ']

theorem sqrtTonelli_cast_sq (hp : Nat.Prime m) (hodd : m % 2 = 1) {u : Nat} (hu : IsTonelliRoot m u) (ha : a < m)
    (hres : IsResidue m a) : (sqrtTonelli m u a : ZMod m) ^ 2 = a := by
  rw [sqrtTonelli]
  by_cases hzero : a = 0
  · rw [if_pos hzero, hzero, Nat.cast_zero, zero_pow two_ne_zero]
  · have hne : (a : ZMod m) ≠ 0 := fun h => hzero (eq_of_cast_eq ha hp.pos (by rw [h, Nat.cast_zero]))
    rw [if_neg hzero]
    exact tonelliLoop_cast_sq hp le_rfl (tonelliInv_start hp hodd hu hne hres)

/-- The other root has the same square. -/
theorem sqrtTs_cast_sq (hm : 0 < m) (other : Bool) (u a : Nat) :
    (sqrtTs other m u a : ZMod m) ^ 2 = (sqrtTonelli m u a : ZMod m) ^ 2 := by
  cases other
  · rfl
  · show ((subMod m 0 (sqrtTonelli m u a) : Nat) : ZMod m) ^ 2 = _
    rw [subMod_cast hm, Nat.cast_zero, zero_sub, neg_sq]

theorem sqrtTs_sq_mod (hp : Nat.Prime m) (hodd : m % 2 = 1) {u : Nat} (hu : IsTonelliRoot m u) (ha : a < m)
    (hres : IsResidue m a) (other : Bool) : sqrtTs other m u a ^ 2 % m = a := by
  rw [sq_mod_eq_iff ha, sqrtTs_cast_sq hp.pos, sqrtTonelli_cast_sq hp hodd hu ha hres]

theorem sqrtTs_zero (other : Bool) (m u : Nat) : sqrtTs other m u 0 = 0 := by
  cases other <;> simp [sqrtTs, sqrtTonelli, subMod]

end

/-- Settles O32: by the invariant of the loop; the other root has the same square. -/
theorem tonelliShanksFindsRoots : Obligations.TonelliShanksFindsRoots :=
  fun m u a other hp h1 _ hfull hhalf ha hres =>
    ⟨sqrtTs_lt hp.pos other u a, sqrtTs_sq_mod hp (by omega) ⟨hfull, hhalf⟩ ha hres other, sqrtTs_zero other m u⟩

end Sys2Proof
end

section
/-!
PROOFS. FSQRT (42_sqrt.md R175): the candidate of the build's method for a modulus, and the two outcomes of the command.
-/

namespace Sys2Proof

namespace Params

variable {c : Params} {d : Domain}

/-! ### The candidate root of each method (42_sqrt.md R170) -/

theorem root_of_mod_four_eq_three (h : c.modulus d % 4 = 3) (a : Nat) : c.root d a = sqrtExp (c.modulus d) a := by
  simp [root, sqrtMethod, h]

theorem root_of_mod_eight_eq_five (h : c.modulus d % 8 = 5) (a : Nat) : c.root d a = sqrtAtkin (c.modulus d) a := by
  have hexp : c.modulus d % 4 ≠ 3 := by omega
  simp [root, sqrtMethod, h, hexp]

theorem sqrtMethod_of_mod_eight_eq_one {m : Nat} (h : m % 8 = 1) : sqrtMethod m = .ts := by
  have hexp : m % 4 ≠ 3 := by omega
  simp [sqrtMethod, h, hexp]

theorem root_of_mod_eight_eq_one (h : c.modulus d % 8 = 1) (a : Nat) :
    c.root d a = sqrtTs (c.takesOtherRoot (c.modulus d) a) (c.modulus d) (c.rootOfUnity d) a := by
  simp [root, sqrtMethod_of_mod_eight_eq_one h]

theorem isTonelliRoot_rootOfUnity (h : c.Legal) (hts : sqrtMethod (c.modulus d) = .ts) :
    IsTonelliRoot (c.modulus d) (c.rootOfUnity d) := by
  cases d
  · exact (h.rootP hts).2
  · exact (h.rootN hts).2

/-- Whichever method the modulus has, the candidate of a residue is a root of it. -/
theorem root_sq_mod (h : c.Legal) {a : Nat} (ha : a < c.modulus d) (hres : IsResidue (c.modulus d) a) :
    c.root d a ^ 2 % c.modulus d = a := by
  have hp := modulus_prime h d
  have hodd := modulus_odd h d
  obtain h3 | h5 | h1 : c.modulus d % 4 = 3 ∨ c.modulus d % 8 = 5 ∨ c.modulus d % 8 = 1 := by omega
  · rw [root_of_mod_four_eq_three h3, sq_mod_eq_iff ha, sqrtExp_cast_sq hp h3 hres]
  · rw [root_of_mod_eight_eq_five h5, sq_mod_eq_iff ha, sqrtAtkin_cast_sq hp h5 hres]
  · rw [root_of_mod_eight_eq_one h1]
    exact sqrtTs_sq_mod hp hodd (isTonelliRoot_rootOfUnity h (sqrtMethod_of_mod_eight_eq_one h1)) ha hres _

/-- The check of R174 decides whether a value is a residue. -/
theorem root_sq_mod_iff (h : c.Legal) {a : Nat} (ha : a < c.modulus d) :
    c.root d a ^ 2 % c.modulus d = a ↔ IsResidue (c.modulus d) a :=
  ⟨fun hsq => ⟨c.root d a, root_lt h d a, hsq.trans (Nat.mod_eq_of_lt ha).symm⟩, root_sq_mod h ha⟩

end Params

namespace Machine

open Params

variable {s : State} {d : Domain} {ra : FReg}

/-! ### What FSQRT answers with its source in range -/

theorem exec_fsqrt_of_valid (ha : s.InRange d ra)
    (hvalid : s.cfg.root d (s.value d ra) ^ 2 % s.modulus d = s.value d ra) (rd : FReg) :
    exec (.fsqrt d rd ra) s =
      .next ((s.writeFR rd (s.cfg.mont (s.modulus d) (s.cfg.root d (s.value d ra)))).setCF
        true).drawHidden.completed := by
  show execFsqrt d rd ra s = _
  simp only [execFsqrt, rootValid, hvalid, decide_true, if_true]
  exact rangeChecked_inRange ha.source

theorem exec_fsqrt_of_invalid (ha : s.InRange d ra)
    (hinvalid : s.cfg.root d (s.value d ra) ^ 2 % s.modulus d ≠ s.value d ra) (rd : FReg) :
    exec (.fsqrt d rd ra) s =
      .next ((s.writeFR rd (Config.freeWord s.draws % s.modulus d)).setCF false).drawHidden.completed := by
  show execFsqrt d rd ra s = _
  simp only [execFsqrt, rootValid, hinvalid, decide_false, Bool.false_eq_true, if_false]
  exact rangeChecked_inRange ha.source

/-- Settles O30: by whether the candidate squared is the value. -/
theorem squareRootCommand : Obligations.SquareRootCommand := by
  intro s d rd ra hlegal m a x
  have hm : 0 < m := modulus_pos hlegal d
  have hres : x ^ 2 % m = a ↔ IsResidue m a := root_sq_mod_iff hlegal (val_lt hm _)
  refine ⟨fun h => root_of_mod_four_eq_three h a, fun h => root_of_mod_eight_eq_five h a,
    fun h => ⟨_, root_of_mod_eight_eq_one h a⟩, fun ha => ?_, exec_source_outOfRange rfl⟩
  by_cases hvalid : x ^ 2 % m = a
  · refine ⟨_, exec_fsqrt_of_valid ha hvalid rd, (onlyFR_writeFR_setCF s rd _ _).drawHidden, ?_,
      iff_of_true rfl hvalid, iff_of_true rfl (hres.1 hvalid), fun _ => ⟨s.readFR_writeFR_same rd _, ?_⟩⟩
    · exact (s.readFR_writeFR_same rd _).trans_lt (mont_lt hm _)
    · show ((s.writeFR rd (s.cfg.mont m x)).value d rd) ^ 2 % m = a
      rw [State.value_writeFR_same, show s.cfg.val m (s.cfg.mont m x) = x from val_mont hlegal d (root_lt hlegal d a)]
      exact hvalid
  · refine ⟨_, exec_fsqrt_of_invalid ha hvalid rd, (onlyFR_writeFR_setCF s rd _ _).drawHidden, ?_,
      iff_of_false Bool.false_ne_true hvalid, iff_of_false Bool.false_ne_true (mt hres.2 hvalid),
      fun h => absurd h Bool.false_ne_true⟩
    exact (s.readFR_writeFR_same rd _).trans_lt (Nat.mod_lt _ hm)

end Machine

end Sys2Proof
end

section
/-!
PROOFS. Point addition (43_point.md R190): two points with one `x`, the equations that define the slope and the sum, and
the group laws, carried over from Mathlib's curve.
-/

namespace Sys2Proof

/-- The number that `subMod` computes is congruent to the difference. -/
theorem dvd_subMod_sub {m : Nat} (hm : 0 < m) (x y : Nat) : (m : Int) ∣ (subMod m x y : Int) - (x - y) := by
  rw [subMod_eq_emod hm]
  exact Int.dvd_emod_sub_self

namespace Params

variable {c : Params} {x1 y1 x2 y2 : Nat}

/-! ### Points with one `x` -/

theorem eq_or_opposite_of_same_x (h : c.Legal) {x : Nat} (h1 : c.onCurve (.affine x y1) = true)
    (h2 : c.onCurve (.affine x y2) = true) : y1 = y2 ∨ (y1 + y2) % c.p = 0 := by
  have := Fact.mk h.pPrime
  obtain ⟨-, hy1, he1⟩ := onCurve_affine_iff.1 h1
  obtain ⟨-, hy2, he2⟩ := onCurve_affine_iff.1 h2
  refine (WeierstrassCurve.Affine.Y_eq_of_X_eq he1 he2 rfl).imp (eq_of_cast_eq hy1 hy2) fun hneg => ?_
  rw [negY_weierstrass, eq_neg_iff_add_eq_zero, ← Nat.cast_add, ZMod.natCast_eq_zero_iff] at hneg
  exact Nat.mod_eq_zero_of_dvd hneg

/-- The coordinates `y` of two such points are equal or sum to `p`. -/
theorem eq_or_add_eq_p_of_same_x (h : c.Legal) {x : Nat} (h1 : c.onCurve (.affine x y1) = true)
    (h2 : c.onCurve (.affine x y2) = true) : y1 = y2 ∨ y1 + y2 = c.p := by
  obtain ⟨-, hy1, -⟩ := onCurve_affine_iff.1 h1
  obtain ⟨-, hy2, -⟩ := onCurve_affine_iff.1 h2
  obtain heq | hopp := eq_or_opposite_of_same_x h h1 h2
  · exact .inl heq
  · obtain hlt | hge := Nat.lt_or_ge (y1 + y2) c.p
    · rw [Nat.mod_eq_of_lt hlt] at hopp
      exact .inl (by omega)
    · rw [Nat.mod_eq_sub_mod hge, Nat.mod_eq_of_lt (by omega)] at hopp
      exact .inr (by omega)

/-- Since `p` is odd, the parity of `y` tells two such points apart. -/
theorem eq_of_same_x_of_parity (h : c.Legal) {x : Nat} (h1 : c.onCurve (.affine x y1) = true)
    (h2 : c.onCurve (.affine x y2) = true) (hparity : y1 % 2 = y2 % 2) : y1 = y2 := by
  have hodd : c.p % 2 = 1 := modulus_odd h .field
  exact (eq_or_add_eq_p_of_same_x h h1 h2).resolve_right (by omega)

/-- Points with one `x` that differ are each other's negative. -/
theorem neg_eq_of_same_x_of_ne (h : c.Legal) {x : Nat} (h1 : c.onCurve (.affine x y1) = true)
    (h2 : c.onCurve (.affine x y2) = true) (hne : y1 ≠ y2) : (c.p - y1) % c.p = y2 := by
  have hsum := (eq_or_add_eq_p_of_same_x h h1 h2).resolve_left hne
  rw [← hsum, Nat.add_sub_cancel_left, hsum]
  exact Nat.mod_eq_of_lt (onCurve_affine_iff.1 h2).2.1

/-! ### The slope and the sum (43_point.md R190) -/

/-- The tangent's slope: `2*y` is invertible where the point is not its own opposite. -/
theorem slope_mul_of_same_x (h : c.Legal) {x : Nat} (h1 : c.onCurve (.affine x y1) = true)
    (h2 : c.onCurve (.affine x y2) = true) (hne : ¬(y1 + y2) % c.p = 0) :
    c.slope x y1 x y2 * (2 * y1) % c.p = (3 * x ^ 2 + c.a) % c.p := by
  have hy : 2 * y1 % c.p ≠ 0 := by
    have heq : y1 = y2 := (eq_or_opposite_of_same_x h h1 h2).resolve_right hne
    rwa [← heq, ← two_mul] at hne
  have hinv := invMod_mul h.pPrime (two_lt_modulus h .field) hy
  rw [slope, if_pos rfl, Nat.mod_mul_mod, mul_assoc, Nat.mul_comm (invMod _ _), Nat.mul_mod, hinv, mul_one, Nat.mod_mod]

/-- The chord's slope. -/
theorem slope_mul_of_ne_x (h : c.Legal) (hx1 : x1 < c.p) (hx2 : x2 < c.p) (hne : x1 ≠ x2) :
    (c.p : Int) ∣ c.slope x1 y1 x2 y2 * ((x2 : Int) - x1) - ((y2 : Int) - y1) := by
  have := Fact.mk h.pPrime
  have hx : (x2 : ZMod c.p) - x1 ≠ 0 := sub_ne_zero.2 fun heq => hne (eq_of_cast_eq hx2 hx1 heq).symm
  rw [← ZMod.intCast_zmod_eq_zero_iff_dvd, slope, if_neg hne]
  push_cast [ZMod.natCast_mod, subMod_cast h.pPrime.pos, invMod_cast h.pPrime (two_lt_modulus h .field)]
  rw [inv_mul_cancel_right₀ hx, sub_self]

theorem add_of_not_opposite (hne : ¬(x1 = x2 ∧ (y1 + y2) % c.p = 0)) :
    let l := c.slope x1 y1 x2 y2
    let x3 := subMod c.p (l ^ 2) (x1 + x2)
    c.add (.affine x1 y1) (.affine x2 y2) = .affine x3 (subMod c.p (l * subMod c.p x1 x3) y1) :=
  if_neg hne

theorem dvd_sumX (h : c.Legal) (l x1 x2 : Nat) :
    (c.p : Int) ∣ (subMod c.p (l ^ 2) (x1 + x2) : Int) - ((l : Int) ^ 2 - x1 - x2) := by
  have hdvd := dvd_subMod_sub h.pPrime.pos (l ^ 2) (x1 + x2)
  rwa [Nat.cast_add, Nat.cast_pow, ← sub_sub] at hdvd

theorem dvd_sumY (h : c.Legal) (l x1 y1 x3 : Nat) :
    (c.p : Int) ∣ (subMod c.p (l * subMod c.p x1 x3) y1 : Int) - (l * ((x1 : Int) - x3) - y1) := by
  have hpos := h.pPrime.pos
  have houter := dvd_subMod_sub hpos (l * subMod c.p x1 x3) y1
  have hinner := (dvd_subMod_sub hpos x1 x3).mul_left (l : Int)
  refine (dvd_add houter hinner).trans (dvd_of_eq ?_)
  push_cast
  ring

/-! ### The group laws -/

variable {q r s : Point}

theorem add_identity (c : Params) (q : Point) : c.add q .identity = q := by cases q <;> rfl

theorem add_comm_of_onCurve (h : c.Legal) (hq : c.onCurve q = true) (hr : c.onCurve r = true) :
    c.add q r = c.add r q := by
  have := Fact.mk h.pPrime
  refine toCurve_injective h (onCurve_add h hq hr) (onCurve_add h hr hq) ?_
  rw [toCurve_add h hq hr, toCurve_add h hr hq, add_comm]

theorem add_assoc_of_onCurve (h : c.Legal) (hq : c.onCurve q = true) (hr : c.onCurve r = true)
    (hs : c.onCurve s = true) : c.add (c.add q r) s = c.add q (c.add r s) := by
  have := Fact.mk h.pPrime
  have hqr := onCurve_add h hq hr
  have hrs := onCurve_add h hr hs
  refine toCurve_injective h (onCurve_add h hqr hs) (onCurve_add h hq hrs) ?_
  rw [toCurve_add h hqr hs, toCurve_add h hq hr, toCurve_add h hq hrs, toCurve_add h hr hs, add_assoc]

theorem add_neg_of_onCurve (h : c.Legal) (hq : c.onCurve q = true) : c.add q (c.neg q) = .identity := by
  have := Fact.mk h.pPrime
  have hneg := onCurve_neg h hq
  refine toCurve_injective h (onCurve_add h hq hneg) rfl ?_
  rw [toCurve_add h hq hneg, toCurve_neg h hq, add_neg_cancel]
  rfl

end Params

open Params

/-- Settles O33: the sum's equations are those of the slope and of `subMod`; the group laws are those of Mathlib's
points of the curve. -/
theorem pointAdditionIsTheGroupLaw : Obligations.PointAdditionIsTheGroupLaw := by
  intro c h
  have hpos := h.pPrime.pos
  refine ⟨fun q => ⟨rfl, add_identity c q⟩, rfl,
    fun x1 y1 x2 y2 h1 h2 => ⟨rfl, fun hx hy => if_pos ⟨hx, hy⟩, fun hne => ?_⟩,
    fun q r s hq hr hs => ⟨onCurve_add h hq hr, onCurve_neg h hq, add_comm_of_onCurve h hq hr,
      add_assoc_of_onCurve h hq hr hs, add_neg_of_onCurve h hq⟩⟩
  refine ⟨c.slope x1 y1 x2 y2, _, _, add_of_not_opposite hne, subMod_lt hpos _ _, subMod_lt hpos _ _, ?tangent,
    slope_mul_of_ne_x h (onCurve_affine_iff.1 h1).1 (onCurve_affine_iff.1 h2).1, dvd_sumX h _ _ _, dvd_sumY h _ _ _ _⟩
  case tangent =>
    rintro rfl
    exact slope_mul_of_same_x h h1 h2 fun hy => hne ⟨rfl, hy⟩

end Sys2Proof
end

section
/-!
PROOFS. The commands on point registers (43_point.md sections 2 and 3): the frame of each kind of completion, and the
point, coordinate or flag each command writes.
-/

namespace Sys2Proof.Machine

open Params

variable {s : State} {rd : PReg} {i : Instr}

/-! ### Projective registers -/

theorem onlyPR_storePR (s : State) (rd : PReg) (q : Point) : OnlyPR rd s (s.storePR rd q).completed :=
  { succeeds := ⟨rfl, rfl, rfl, rfl, ⟨rfl, rfl, rfl, rfl, rfl, rfl, rfl⟩⟩
    fr := fun _ => rfl
    pr := fun i hi => by simp [hi]
    ar := fun _ => rfl
    lt := fun _ => rfl
    cf := rfl
    buf := ⟨fun _ => rfl, rfl⟩ }

theorem exec_writes_PR {q : Point} (hexec : exec i s = .next (s.storePR rd q).completed) :
    ∃ t, exec i s = .next t ∧ OnlyPR rd s t ∧ t.readPR rd = q :=
  ⟨_, hexec, onlyPR_storePR s rd q, by simp⟩

/-- A command that writes what CF selects (43_point.md R201, R202). -/
theorem exec_writes_selected_PR {q r : Point}
    (hexec : exec i s = .next (s.storePR rd (selectCF s.cf q r)).completed) :
    ∃ t, exec i s = .next t ∧ OnlyPR rd s t ∧ (s.cf = true → t.readPR rd = r) ∧ (s.cf = false → t.readPR rd = q) := by
  obtain ⟨t, ht, honly, hpoint⟩ := exec_writes_PR hexec
  exact ⟨t, ht, honly, fun hcf => by rw [hpoint, hcf]; rfl, fun hcf => by rw [hpoint, hcf]; rfl⟩

/-- Settles O34: each writes the sum of its operands. -/
theorem pointAdditionCommands : Obligations.PointAdditionCommands := fun _ _ _ _ _ =>
  ⟨exec_writes_PR rfl, exec_writes_PR rfl, exec_writes_PR rfl⟩

/-- Settles O35: each writes one point; PCNEG and PSEL the one that CF selects. -/
theorem projectiveMoveCommands : Obligations.ProjectiveMoveCommands := fun _ _ _ _ _ =>
  ⟨exec_writes_PR rfl, exec_writes_PR rfl, exec_writes_PR rfl, exec_writes_selected_PR rfl,
    exec_writes_selected_PR rfl, exec_writes_PR rfl⟩

/-! ### Predicates -/

/-- Settles O36: each flag is the decision of its equation. -/
theorem pointPredicateCommands : Obligations.PointPredicateCommands := fun s _ _ _ =>
  ⟨⟨_, rfl, onlyCF_setCF s _, rfl, decide_eq_true_iff⟩, ⟨_, rfl, onlyCF_setCF s _, rfl, decide_eq_true_iff⟩,
    ⟨_, rfl, onlyCF_setCF s _, rfl, decide_eq_true_iff⟩⟩

/-! ### Affine registers -/

variable {ad : AReg}

theorem onlyAR_writeAR_setCF (s : State) (rd : AReg) (q : Point) (b : Bool) :
    OnlyAR rd s ((s.writeAR rd q).setCF b).completed :=
  { succeeds := ⟨rfl, rfl, rfl, rfl, ⟨rfl, rfl, rfl, rfl, rfl, rfl, rfl⟩⟩
    fr := fun _ => rfl
    pr := fun _ => rfl
    ar := fun i hi => by simp [hi]
    lt := fun _ => rfl
    buf := ⟨fun _ => rfl, rfl⟩ }

theorem onlyAR_writeAR (s : State) (rd : AReg) (q : Point) : OnlyAR rd s (s.writeAR rd q).completed :=
  onlyAR_writeAR_setCF s rd q s.cf

/-- Replacing the hidden intermediates is within the frame of a command that writes one affine register. -/
theorem OnlyAR.drawHidden {t : State} (h : OnlyAR ad s t.completed) : OnlyAR ad s t.drawHidden.completed :=
  { h with succeeds := { h.succeeds with control := { h.succeeds.control with } } }

theorem State.readAR_writeAR_same (s : State) (rd : AReg) (q : Point) : (s.writeAR rd q).readAR rd = q := by simp

theorem exec_writes_AR {q : Point} (hexec : exec i s = .next (s.writeAR ad q).completed) :
    ∃ t, exec i s = .next t ∧ OnlyAR ad s t ∧ t.cf = s.cf ∧ t.hidden = s.hidden ∧ t.readAR ad = q :=
  ⟨_, hexec, onlyAR_writeAR s ad q, rfl, rfl, s.readAR_writeAR_same ad q⟩

/-- Settles O37: each writes one point; TOAFF replaces the hidden intermediates too. -/
theorem affineMoveCommands : Obligations.AffineMoveCommands := fun s rd _ _ =>
  ⟨⟨_, rfl, (onlyAR_writeAR s rd _).drawHidden, rfl, s.readAR_writeAR_same rd _⟩, exec_writes_AR rfl,
    exec_writes_AR rfl, exec_writes_AR rfl⟩

/-! ### Coordinates -/

theorem mont_zero (c : Params) (m : Nat) : c.mont m 0 = 0 := by simp [mont]

/-- A command that writes the Montgomery form of a coordinate, `coord` being `coordX` or `coordY`. -/
theorem exec_writes_coordinate {fd : FReg} {ra : AReg} (coord : Point → Nat) (hzero : coord .identity = 0)
    (hexec : exec i s = .next (s.writeFR fd (s.cfg.mont s.cfg.p (coord (s.readAR ra)))).completed) :
    ∃ t, exec i s = .next t ∧ OnlyWord fd s t ∧ (s.readAR ra = .identity → t.readFR fd = 0) ∧
      ∀ x y, s.readAR ra = .affine x y → t.readFR fd = coord (.affine x y) * s.cfg.radix % s.cfg.p := by
  refine ⟨_, hexec, onlyWord_writeFR s fd _, fun hid => ?_, fun x y hxy => ?_⟩
  · rw [hid, hzero, mont_zero]
    exact s.readFR_writeFR_same fd 0
  · rw [hxy]
    exact s.readFR_writeFR_same fd _

/-- Settles O38: by whether the register holds the identity. -/
theorem affineCoordinateCommands : Obligations.AffineCoordinateCommands := fun _ _ _ =>
  ⟨exec_writes_coordinate coordX rfl rfl, exec_writes_coordinate coordY rfl rfl⟩

/-- The curve equation over the integers modulo `p` (43_point.md R211). -/
theorem onCurveXY_iff (c : Params) (x y : Nat) :
    c.onCurveXY x y = true ↔ ((y : Int) ^ 2 - (x : Int) ^ 3 - c.a * x - c.b) % c.p = 0 := by
  have hterms : ((y : Int) ^ 2 - (x : Int) ^ 3 - c.a * x - c.b) = (y ^ 2 : Nat) - (x ^ 3 + c.a * x + c.b : Nat) := by
    push_cast
    ring
  rw [onCurveXY, decide_eq_true_iff, curveRhs, hterms, ← Int.emod_eq_emod_iff_emod_sub_eq_zero]
  norm_cast

/-- ASET with both words in range (43_point.md R211). -/
theorem exec_aset_of_inRange {ra rb : FReg} (ha : s.InRange .field ra) (hb : s.InRange .field rb) (rd : AReg) :
    let x := s.value .field ra
    let y := s.value .field rb
    exec (.aset rd ra rb) s = .next ((s.writeAR rd (if s.cfg.onCurveXY x y then .affine x y else .identity)).setCF
      (s.cfg.onCurveXY x y)).completed :=
  rangeChecked_inRange (ha.sources hb)

/-- Settles O39: CF is the decision of the curve equation, which also selects the point. -/
theorem affineFromCoordinatesCommand : Obligations.AffineFromCoordinatesCommand := by
  intro s rd ra rb _ x y
  refine ⟨decodeOfEncodeIsTheCommand (.aset rd ra rb) rfl, fun ha hb => ?_, exec_sources_outOfRange (d := .field) rfl⟩
  refine ⟨_, exec_aset_of_inRange ha hb rd, onlyAR_writeAR_setCF s rd _ _, rfl, onCurveXY_iff s.cfg x y,
    fun hcf => ?_, fun hcf => ?_⟩
  · exact (s.readAR_writeAR_same rd _).trans (if_pos hcf)
  · exact (s.readAR_writeAR_same rd _).trans (if_neg (Bool.eq_false_iff.1 hcf))

end Sys2Proof.Machine
end

section
/-!
PROOFS. The SEC1 encodings (43_point.md section 4): a compressed string stands for the one point of the curve with its
`x` and parity, the outcome of PDEC by the kind of string, and that decoding an encoding restores the point.
-/

namespace Sys2Proof.Machine

open Params

variable {s t : State} {c : Params} {imm8 : BitVec 8} {q : Point} {x y : Nat}

/-! ### The point with a given `x` and parity -/

theorem isResidue_curveRhs_of_onCurve (hxy : c.onCurve (.affine x y) = true) : IsResidue c.p (c.curveRhs x) := by
  simp only [onCurve, onCurveXY, Bool.and_eq_true, decide_eq_true_iff] at hxy
  obtain ⟨⟨-, hy⟩, heq⟩ := hxy
  exact ⟨y, hy, by rw [heq, curveRhs, Nat.mod_mod]⟩

theorem flagOdd_eq_iff {x y : Nat} : flagOdd x = flagOdd y ↔ x % 2 = y % 2 := by
  rw [flagOdd, flagOdd, decide_eq_decide]
  omega

/-- The tags 0x02 and 0x03 ask for an even and an odd `y`. -/
theorem flagOdd_eq_tag_iff {tag : Byte} (htag : tag = 0x02 ∨ tag = 0x03) :
    flagOdd y = decide (tag = 0x03) ↔ y % 2 = tag.toNat % 2 := by
  obtain rfl | rfl := htag <;> simp [flagOdd]

/-- Whichever root the build's method returns, decompression finds the point with the `x` and the parity asked for, and
finds none exactly where the curve has none (43_point.md R214). -/
theorem decompress_eq_some_iff (h : c.Legal) {odd : Bool} :
    decompress c odd x = some q ↔ ∃ y, q = .affine x y ∧ c.onCurve (.affine x y) = true ∧ flagOdd y = odd := by
  constructor
  · intro hq
    have hcurve := onCurve_decompress h hq
    simp only [decompress, Option.ite_none_right_eq_some, Option.some.injEq] at hq
    obtain ⟨-, -, hparity, rfl⟩ := hq
    exact ⟨_, rfl, hcurve, hparity⟩
  · rintro ⟨y, rfl, hcurve, rfl⟩
    have hx : x < c.p := (onCurve_affine_iff.1 hcurve).1
    have hvalid : rootValid c.p (c.curveRhs x) (c.root .field (c.curveRhs x)) = true :=
      decide_eq_true (root_sq_mod h (Nat.mod_lt _ h.pPrime.pos) (isResidue_curveRhs_of_onCurve hcurve))
    have hroot : c.onCurve (.affine x (c.root .field (c.curveRhs x))) = true :=
      onCurve_of_coords hx (root_lt h .field _) hvalid
    simp only [decompress, if_pos hx, hvalid, if_true]
    generalize c.root .field (c.curveRhs x) = r at hroot
    have hchosen : (if flagOdd r = flagOdd y then r else (c.p - r) % c.p) = y := by
      split
      · next hparity => exact eq_of_same_x_of_parity h hroot hcurve (flagOdd_eq_iff.1 hparity)
      · next hparity => exact neg_eq_of_same_x_of_ne h hroot hcurve fun heq => hparity (congrArg flagOdd heq)
    rw [hchosen, if_pos rfl]

theorem checkedPoint_eq_some_iff :
    checkedPoint c x y = some q ↔ q = .affine x y ∧ c.onCurve (.affine x y) = true := by
  simp only [checkedPoint, Option.ite_none_right_eq_some, Option.some.injEq, onCurve, Bool.and_eq_true,
    decide_eq_true_iff, and_assoc]
  exact ⟨fun ⟨hx, hy, hcurve, hq⟩ => ⟨hq.symm, hx, hy, hcurve⟩, fun ⟨hq, hx, hy, hcurve⟩ => ⟨hx, hy, hcurve, hq.symm⟩⟩

/-! ### The kinds of strings (43_point.md R214) -/

theorem sec1Decode_identity (hlen : s.buflen.toNat = 1) (htag : s.bufByte 0 = 0x00) (allow : Bool) :
    sec1Decode s allow = if allow then some .identity else none :=
  if_pos ⟨hlen, htag⟩

theorem sec1Decode_compressed (hlen : s.buflen.toNat = 1 + s.cfg.fb .field)
    (htag : s.bufByte 0 = 0x02 ∨ s.bufByte 0 = 0x03) (allow : Bool) :
    sec1Decode s allow = decompress s.cfg (decide (s.bufByte 0 = 0x03)) (s.bufValue .field 1) := by
  have hne : s.bufByte 0 ≠ 0x00 := by obtain h | h := htag <;> rw [h] <;> decide
  exact (if_neg fun h => hne h.2).trans (if_pos ⟨hlen, htag⟩)

/-- A compressed string stands for the point of the curve with its `x` and its tag's parity. -/
theorem sec1Decode_compressed_eq_some_iff (h : s.cfg.Legal) (hlen : s.buflen.toNat = 1 + s.cfg.fb .field)
    (htag : s.bufByte 0 = 0x02 ∨ s.bufByte 0 = 0x03) (allow : Bool) :
    sec1Decode s allow = some q ↔ ∃ y, q = .affine (s.bufValue .field 1) y ∧
      s.cfg.onCurve (.affine (s.bufValue .field 1) y) = true ∧ y % 2 = (s.bufByte 0).toNat % 2 := by
  simp only [sec1Decode_compressed hlen htag, decompress_eq_some_iff h, flagOdd_eq_tag_iff htag]

/-- An uncompressed string stands for the pair of its coordinates, where that is a point of the curve. -/
theorem sec1Decode_uncompressed_eq_some_iff (hlen : s.buflen.toNat = 1 + 2 * s.cfg.fb .field)
    (htag : s.bufByte 0 = 0x04) (allow : Bool) :
    sec1Decode s allow = some q ↔
      q = .affine (s.bufValue .field 1) (s.bufValue .field (1 + s.cfg.fb .field)) ∧
        s.cfg.onCurve (.affine (s.bufValue .field 1) (s.bufValue .field (1 + s.cfg.fb .field))) = true := by
  rw [← checkedPoint_eq_some_iff, sec1Decode]
  simp [htag, hlen]

theorem sec1Decode_other (hid : ¬(s.buflen.toNat = 1 ∧ s.bufByte 0 = 0x00))
    (hcomp : ¬(s.buflen.toNat = 1 + s.cfg.fb .field ∧ (s.bufByte 0 = 0x02 ∨ s.bufByte 0 = 0x03)))
    (huncomp : ¬(s.buflen.toNat = 1 + 2 * s.cfg.fb .field ∧ s.bufByte 0 = 0x04)) (allow : Bool) :
    sec1Decode s allow = none := by
  rw [sec1Decode]
  simp only [if_neg hid, if_neg hcomp, if_neg huncomp]

/-! ### PDEC and PENC with a legal immediate and with another (30_encoding.md R88, R89) -/

theorem immChecked_bit_of_legal (h : imm8.toNat ≤ 1) (s t : State) :
    immChecked (immIsBit imm8) s t = .next t.completed := by
  rw [immIsBit, decide_eq_true h, immChecked_legal]

theorem immChecked_bit_of_illegal (h : 1 < imm8.toNat) (s t : State) :
    immChecked (immIsBit imm8) s t = .next (errorState .imm s) := by
  rw [immIsBit, decide_eq_false (Nat.not_le.2 h), immChecked_illegal, State.failed_eq_errorState]

/-- PDEC writes the point of the string, the identity where the string is invalid, and its validity. -/
theorem exec_pdec_of_legal (h : imm8.toNat ≤ 1) (rd : AReg) (s : State) :
    ∃ t, exec (.pdec rd imm8) s = .next t ∧ OnlyAR rd s t ∧
      t.readAR rd = (sec1Decode s (decide (imm8.toNat = 1))).getD .identity ∧
      t.cf = (sec1Decode s (decide (imm8.toNat = 1))).isSome :=
  ⟨_, immChecked_bit_of_legal h s _, (onlyAR_writeAR_setCF s rd _ _).drawHidden, s.readAR_writeAR_same rd _, rfl⟩

/-- Settles O41: by the kind of string. -/
theorem pointDecodeCommand : Obligations.PointDecodeCommand := by
  intro s rd imm8 h len tag fb x y
  refine ⟨fun himm => ?_, fun himm => immChecked_bit_of_illegal himm s _⟩
  obtain ⟨t, ht, honly, hpoint, hcf⟩ := exec_pdec_of_legal himm rd s
  refine ⟨t, ht, honly, fun hclear => ?invalid, fun hlen htag => ?identity, fun hlen htag hset => ?compressed,
    fun hlen htag => ?uncompressed, fun hid hcomp huncomp => ?other⟩
  case invalid =>
    rw [hpoint, Option.isNone_iff_eq_none.1 (Option.isSome_eq_false_iff.1 (hcf.symm.trans hclear))]
    rfl
  case identity =>
    rw [sec1Decode_identity hlen htag] at hpoint hcf
    by_cases hone : imm8.toNat = 1 <;> simp [hpoint, hcf, hone]
  case compressed =>
    obtain ⟨q, hq⟩ := Option.isSome_iff_exists.1 (hcf.symm.trans hset)
    obtain ⟨y', rfl, hcurve, hparity⟩ := (sec1Decode_compressed_eq_some_iff h hlen htag _).1 hq
    exact ⟨y', by rw [hpoint, hq]; rfl, hcurve, hparity⟩
  case uncompressed =>
    have hdecode {q : Point} := sec1Decode_uncompressed_eq_some_iff (q := q) hlen htag (decide (imm8.toNat = 1))
    refine ⟨?_, fun hset => ?_⟩
    · rw [hcf, Option.isSome_iff_exists]
      exact ⟨fun ⟨_, hq⟩ => (hdecode.1 hq).2, fun hcurve => ⟨_, hdecode.2 ⟨rfl, hcurve⟩⟩⟩
    · obtain ⟨q, hq⟩ := Option.isSome_iff_exists.1 (hcf.symm.trans hset)
      obtain ⟨rfl, -⟩ := hdecode.1 hq
      rw [hpoint, hq]
      rfl
  case other => rw [hcf, sec1Decode_other hid hcomp huncomp]; rfl

/-- Settles O42: the string is valid exactly when it stands for a point. -/
theorem compressedDecodeIsComplete : Obligations.CompressedDecodeIsComplete := by
  intro s rd imm8 h himm hlen htag x
  obtain ⟨t, ht, -, -, hcf⟩ := exec_pdec_of_legal himm rd s
  refine ⟨t, ht, ?_⟩
  rw [hcf, Option.isSome_iff_exists]
  simp only [sec1Decode_compressed_eq_some_iff h hlen htag]
  exact ⟨fun ⟨_, y, _, hy⟩ => ⟨y, hy⟩, fun ⟨y, hy⟩ => ⟨_, y, rfl, hy⟩⟩

theorem sec1Encode_compressed (s : State) (x y : Nat) :
    sec1Encode s true (.affine x y) = BitVec.ofNat 8 (0x02 + y % 2) :: s.valueBytes .field x := rfl

theorem sec1Encode_uncompressed (s : State) (x y : Nat) :
    sec1Encode s false (.affine x y) = 0x04 :: (s.valueBytes .field x ++ s.valueBytes .field y) := rfl

/-- The tag of a compressed encoding is that of the parity of `y`. -/
theorem compressedTag_parity (y : Nat) :
    (BitVec.ofNat 8 (0x02 + y % 2) = 0x02 ∨ BitVec.ofNat 8 (0x02 + y % 2) = 0x03) ∧
      (BitVec.ofNat 8 (0x02 + y % 2)).toNat % 2 = y % 2 := by
  obtain h | h := Nat.mod_two_eq_zero_or_one y <;> rw [h] <;> decide

/-- An encoding is shorter than 256 bytes, so BUFLEN holds its length (00_scope.md R9). -/
theorem length_sec1Encode_lt (h : s.cfg.Legal) (compressed : Bool) (q : Point) :
    (sec1Encode s compressed q).length < 256 := by
  have hfits := length_sec1Encode_le_bufBytes h compressed q
  have hmax := h.bufMax
  omega

/-- PENC stores the encoding of its register. -/
theorem exec_penc_of_legal (hinv : s.Inv) (h : imm8.toNat ≤ 1) (ra : AReg) :
    ∃ t, exec (.penc ra imm8) s = .next t ∧ t.hidden = s.hidden ∧
      OnlyEncoding (sec1Encode s (decide (imm8.toNat = 1)) (s.readAR ra)) s t :=
  ⟨_, immChecked_bit_of_legal h s _, rfl,
    onlyEncoding_storeEncoding hinv.bufCanonical (length_sec1Encode_lt hinv.legal _ _)⟩

/-- Settles O40: by the form and the parity of `y`. -/
theorem pointEncodeCommand : Obligations.PointEncodeCommand := by
  intro s ra imm8 hinv bytes
  refine ⟨fun himm => ?_, fun himm => immChecked_bit_of_illegal himm s _⟩
  obtain ⟨t, ht, hhidden, honly⟩ := exec_penc_of_legal hinv himm ra
  refine ⟨t, ht, hhidden, fun hid => ?_, fun x y hxy => ?_⟩
  · rwa [hid] at honly
  · rw [hxy] at honly
    refine ⟨fun hform heven => ?_, fun hform hodd => ?_, fun hform => ?_⟩
    · rwa [decide_eq_true hform, sec1Encode_compressed, heven] at honly
    · rwa [decide_eq_true hform, sec1Encode_compressed, hodd] at honly
    · rwa [decide_eq_false (by omega), sec1Encode_uncompressed] at honly

/-! ### The round trip -/

/-- The byte string of a residue within a stored encoding reads back as the residue. -/
theorem OnlyEncoding.bufValue {bytes pre post : List Byte} {d : Domain} {v i : Nat} (h : OnlyEncoding bytes s t)
    (hbytes : bytes = pre ++ s.valueBytes d v ++ post) (hi : i = pre.length) (hv : v < s.modulus d) :
    t.bufValue d i = v := by
  subst hbytes hi
  have hcfg := h.succeeds.control.cfg
  have hread : t.bufBytes pre.length (s.cfg.fb d) = s.valueBytes d v := by
    refine List.ext_getElem (by simp [State.bufBytes, State.valueBytes]) fun k hk hk' => ?_
    have hlt : pre.length + k < (pre ++ s.valueBytes d v ++ post).length := by
      simp only [List.length_append]
      omega
    refine (Memory.readBytes_getElem _ _ _ k hk).trans ((h.stored _ hlt).trans ?_)
    simp [List.getElem_append_right, List.getElem_append_left, hk']
  rw [State.bufValue, hcfg, hread, State.valueBytes, fromBytes_toBytes]
  exact Nat.mod_eq_of_lt (hv.trans (modulus_le_pow_fb s.cfg d))

/-- The first byte of a stored encoding is its tag. -/
theorem OnlyEncoding.tag {b : Byte} {bs : List Byte} (h : OnlyEncoding (b :: bs) s t) : t.bufByte 0 = b :=
  h.stored 0 (Nat.succ_pos _)

/-- A buffer that holds the encoding of a point of the curve decodes to the point, in either form. -/
theorem sec1Decode_of_encoding (hlegal : s.cfg.Legal) {compressed : Bool} (hq : s.cfg.onCurve q = true)
    (h : OnlyEncoding (sec1Encode s compressed q) s t) : sec1Decode t true = some q := by
  have hcfg := h.succeeds.control.cfg
  cases q with
  | identity => exact sec1Decode_identity h.buflen h.tag true
  | affine x y =>
    obtain ⟨hx, hy, -⟩ := onCurve_affine_iff.1 hq
    have hfb (v : Nat) : (s.valueBytes .field v).length = t.cfg.fb .field := by
      rw [hcfg, State.valueBytes, toBytes_length]
    cases compressed with
    | true =>
      obtain ⟨htag, hparity⟩ := compressedTag_parity y
      have htag0 : t.bufByte 0 = BitVec.ofNat 8 (0x02 + y % 2) := h.tag
      have hlen : t.buflen.toNat = 1 + t.cfg.fb .field := by
        rw [h.buflen, sec1Encode_compressed, List.length_cons, hfb, Nat.add_comm]
      have hX : t.bufValue .field 1 = x := h.bufValue (pre := [_]) (post := []) (List.append_nil _).symm rfl hx
      rw [sec1Decode_compressed_eq_some_iff (hcfg ▸ hlegal) hlen (htag0 ▸ htag), hX, hcfg, htag0]
      exact ⟨y, rfl, hq, hparity.symm⟩
    | false =>
      have hlen : t.buflen.toNat = 1 + 2 * t.cfg.fb .field := by
        rw [h.buflen, sec1Encode_uncompressed, List.length_cons, List.length_append, hfb, hfb]
        omega
      have hX : t.bufValue .field 1 = x := h.bufValue (pre := [0x04]) rfl rfl hx
      have hY : t.bufValue .field (1 + t.cfg.fb .field) = y :=
        h.bufValue (pre := 0x04 :: s.valueBytes .field x) (post := []) (List.append_nil _).symm
          (by rw [List.length_cons, hfb, Nat.add_comm]) hy
      rw [sec1Decode_uncompressed_eq_some_iff hlen h.tag, hX, hY, hcfg]
      exact ⟨rfl, hq⟩

/-- Settles O43: decoding the stored encoding gives the point. -/
theorem pointEncodingRoundTrip : Obligations.PointEncodingRoundTrip := by
  intro s ra rd form hinv hform
  obtain ⟨t, ht, -, henc⟩ := exec_penc_of_legal hinv hform ra
  obtain ⟨u, hu, -, hpoint, hcf⟩ := exec_pdec_of_legal (imm8 := 1) (by decide) rd t
  have hdecode := sec1Decode_of_encoding hinv.legal (hinv.arOnCurve ra) henc
  refine ⟨t, u, ht, hu, ?_, ?_⟩
  · rw [hpoint]
    exact congrArg (Option.getD · Point.identity) hdecode
  · rw [hcf]
    exact congrArg Option.isSome hdecode

end Sys2Proof.Machine
end

section
/-!
PROOFS. The scalar multiplier, the lookup table and the system commands (44_scalar_mul.md): the signed digits and their
sum, the windowed computation as the sum of the definition, the entry a digit selects, and the words of the commands
that have no operands.
-/

namespace Sys2Proof.Machine

open Params

variable {c : Params}

/-! ### Signed radix-16 digits (44_scalar_mul.md R242) -/

/-- The sum of `e_i * 16^i` over digits from the least significant, in any group: the digits of one scalar are
integers, those of two scalars taken together are pairs. -/
def radix16Sum {A : Type} [AddCommGroup A] (es : List A) : A := es.foldr (fun e acc => e + 16 • acc) 0

section
variable {A B : Type} [AddCommGroup A] [AddCommGroup B]

@[simp] theorem radix16Sum_cons (e : A) (es : List A) : radix16Sum (e :: es) = e + 16 • radix16Sum es := rfl

theorem map_radix16Sum (f : A →+ B) (es : List A) : f (radix16Sum es) = radix16Sum (es.map f) := by
  induction es with
  | nil => exact map_zero f
  | cons e es ih => rw [List.map_cons, radix16Sum_cons, radix16Sum_cons, map_add, map_nsmul, ih]

theorem radix16Sum_zip {es : List A} {fs : List B} (hlen : es.length = fs.length) :
    radix16Sum (es.zip fs) = (radix16Sum es, radix16Sum fs) := by
  ext
  · exact (map_radix16Sum (.fst A B) _).trans (congrArg _ (List.map_fst_zip hlen.le))
  · exact (map_radix16Sum (.snd A B) _).trans (congrArg _ (List.map_snd_zip hlen.ge))

end

/-- With the carry in, the digits sum to what is left of the scalar, provided that the top digit takes all of it. -/
theorem radix16Sum_recodeFrom {count k carry : Nat} (hk : k < 16 ^ (count + 1)) :
    radix16Sum (recodeFrom (count + 1) k carry) = (k + carry : Nat) := by
  induction count generalizing k carry with
  | zero =>
    show ((k % 16 + carry : Nat) : Int) + 16 • 0 = _
    rw [Nat.mod_eq_of_lt (by simpa using hk), smul_zero, add_zero]
  | succ count ih =>
    rw [recodeFrom, radix16Sum_cons, ih (by omega), nsmul_eq_mul]
    push_cast
    omega

/-- Every digit below the top one is in `[-8, 7]`; a scalar that leaves less than 8 for the top digit makes it at most
8, the carry included. -/
theorem recodeFrom_eq_append {count k carry : Nat} (hk : k < 8 * 16 ^ count) (hcarry : carry ≤ 1) :
    ∃ (lower : List Int) (top : Int), recodeFrom (count + 1) k carry = lower ++ [top] ∧ lower.length = count ∧
      (∀ e ∈ lower, -8 ≤ e ∧ e ≤ 7) ∧ 0 ≤ top ∧ top ≤ 8 := by
  induction count generalizing k carry with
  | zero => exact ⟨[], _, rfl, rfl, nofun, by omega, by omega⟩
  | succ count ih =>
    obtain ⟨lower, top, heq, hlen, hlower, htop⟩ :=
      ih (k := k / 16) (carry := if 8 ≤ k % 16 + carry then 1 else 0) (by omega) (by split <;> omega)
    refine ⟨_ :: lower, top, congrArg (_ :: ·) heq, congrArg (· + 1) hlen, List.forall_mem_cons.2 ⟨?_, hlower⟩, htop⟩
    split <;> omega

/-- `16^DIGITS` is at least `2^(NBITS_N + 1)`, so a scalar leaves less than 8 for the top digit (90_conflicts.md C1). -/
theorem exists_digits_eq_succ {k : Nat} (hk : k < c.n) : ∃ count, c.digits = count + 1 ∧ k < 8 * 16 ^ count := by
  have hdigits : nbits c.n ≤ 4 * (c.digits - 1) + 3 ∧ 0 < c.digits := by
    unfold digits ceilDiv
    omega
  refine ⟨c.digits - 1, by omega, ?_⟩
  calc k < c.n := hk
    _ < 2 ^ nbits c.n := lt_two_pow_nbits c.n
    _ ≤ 2 ^ (4 * (c.digits - 1) + 3) := Nat.pow_le_pow_right (by omega) hdigits.1
    _ = 8 * 16 ^ (c.digits - 1) := by rw [pow_add, pow_mul]; ring

theorem recode_eq_append {k : Nat} (hk : k < c.n) :
    ∃ (lower : List Int) (top : Int), recode c k = lower ++ [top] ∧ lower.length + 1 = c.digits ∧
      (∀ e ∈ lower, -8 ≤ e ∧ e ≤ 7) ∧ 0 ≤ top ∧ top ≤ 8 := by
  obtain ⟨count, hcount, hlt⟩ := exists_digits_eq_succ hk
  obtain ⟨lower, top, heq, hlen, hdigits⟩ := recodeFrom_eq_append hlt (Nat.zero_le 1)
  exact ⟨lower, top, by rw [recode, hcount, heq], by rw [hlen, hcount], hdigits⟩

theorem length_recode {k : Nat} (hk : k < c.n) : (recode c k).length = c.digits := by
  obtain ⟨lower, top, heq, hlen, -⟩ := recode_eq_append hk
  rw [heq, List.length_append, List.length_singleton, hlen]

theorem recode_mem_range {k : Nat} (hk : k < c.n) : ∀ e ∈ recode c k, -8 ≤ e ∧ e ≤ 8 := by
  obtain ⟨lower, top, heq, -, hlower, htop⟩ := recode_eq_append hk
  rw [heq, List.forall_mem_append, List.forall_mem_singleton]
  exact ⟨fun e he => (hlower e he).imp_right (by omega), by omega⟩

theorem recode_lower_le {k i : Nat} (hk : k < c.n) (h : i < (recode c k).length) (hi : i + 1 < c.digits) :
    (recode c k)[i] ≤ 7 := by
  obtain ⟨lower, top, heq, hlen, hlower, -⟩ := recode_eq_append hk
  have hlt : i < lower.length := by omega
  simp only [heq, List.getElem_append_left hlt]
  exact (hlower _ (List.getElem_mem hlt)).2

theorem recode_top_nonneg {k : Nat} (hk : k < c.n) (h : c.digits - 1 < (recode c k).length) :
    0 ≤ (recode c k)[c.digits - 1] := by
  obtain ⟨lower, top, heq, hlen, -, htop, -⟩ := recode_eq_append hk
  have hindex : c.digits - 1 = lower.length := by omega
  simpa only [heq, hindex, List.getElem_concat_length] using htop

theorem radix16Sum_recode {k : Nat} (hk : k < c.n) : radix16Sum (recode c k) = k := by
  obtain ⟨count, hcount, hlt⟩ := exists_digits_eq_succ hk
  rw [recode, hcount]
  exact radix16Sum_recodeFrom (by omega)

/-- Settles O44: the lower digits are the balanced ones, and the top one is what the scalar leaves, at most 7, with the
carry. -/
theorem recodedDigitsSumToTheScalar : Obligations.RecodedDigitsSumToTheScalar := fun _ _ _ hk =>
  ⟨length_recode hk, recode_mem_range hk, fun _ h hi => recode_lower_le hk h hi, recode_top_nonneg hk,
    radix16Sum_recode hk⟩

/-! ### The entry a digit selects (44_scalar_mul.md R240, R246) -/

theorem digit_cases {d : Int} (hd : -8 ≤ d ∧ d ≤ 8) :
    d = 0 ∨ (∃ j : Nat, j < 8 ∧ d = j + 1) ∨ ∃ j : Nat, j < 8 ∧ d = -(j + 1) := by
  obtain hneg | rfl | hpos := lt_trichotomy d 0
  · exact .inr (.inr ⟨d.natAbs - 1, by omega, by omega⟩)
  · exact .inl rfl
  · exact .inr (.inl ⟨d.natAbs - 1, by omega, by omega⟩)

theorem selectDigit_zero (c : Params) (table : Vector Point 8) : selectDigit c table 0 = .identity := rfl

/-- The entry of a digit's size, with the digit's sign. -/
theorem selectDigit_of_natAbs (c : Params) (table : Vector Point 8) {d : Int} {j : Nat} (hj : j < 8)
    (hd : d.natAbs = j + 1) : selectDigit c table d = if d < 0 then c.neg table[j] else table[j] := by
  have hne : d ≠ 0 := by omega
  simp [selectDigit, hne, hd, hj]

theorem selectDigit_pos (c : Params) (table : Vector Point 8) {j : Nat} (hj : j < 8) :
    selectDigit c table (j + 1) = table[j] :=
  (selectDigit_of_natAbs c table hj (by omega)).trans (if_neg (by omega))

theorem selectDigit_neg (c : Params) (table : Vector Point 8) {j : Nat} (hj : j < 8) :
    selectDigit c table (-(j + 1)) = c.neg table[j] :=
  (selectDigit_of_natAbs c table hj (by omega)).trans (if_pos (by omega))

theorem getElem_multiples (c : Params) (q : Point) {j : Nat} (hj : j < 8) :
    (c.multiples q)[j] = c.nsmul (j + 1) q := by
  simp [multiples]

/-! ### The windowed computation is the sum of the definition (44_scalar_mul.md R240, R244) -/

theorem onCurve_selectDigit_multiples (h : c.Legal) {q : Point} (hq : c.onCurve q = true) (e : Int) :
    c.onCurve (selectDigit c (c.multiples q) e) = true :=
  onCurve_selectDigit h (fun _ => onCurve_mem_multiples h hq) e

section
variable [Fact (Nat.Prime c.p)] (h : c.Legal) {q : Point} (hq : c.onCurve q = true)
include h hq

theorem toCurve_times16 : c.toCurve (times16 c q) = 16 • c.toCurve q := by
  have double {r : Point} (hr : c.onCurve r = true) : c.toCurve (c.add r r) = 2 • c.toCurve r := by
    rw [toCurve_add h hr hr, two_nsmul]
  have keep {r : Point} (hr : c.onCurve r = true) : c.onCurve (c.add r r) = true := onCurve_add h hr hr
  rw [times16, double (keep (keep (keep hq))), double (keep (keep hq)), double (keep hq), double hq]
  simp only [← mul_nsmul]

theorem toCurve_selectDigit_multiples {e : Int} (he : -8 ≤ e ∧ e ≤ 8) :
    c.toCurve (selectDigit c (c.multiples q) e) = e • c.toCurve q := by
  have hentry {j : Nat} (hj : j < 8) : c.toCurve (c.multiples q)[j] = ((j : Int) + 1) • c.toCurve q := by
    rw [getElem_multiples c q hj, toCurve_nsmul h hq, ← Nat.cast_add_one, natCast_zsmul]
  obtain rfl | ⟨j, hj, rfl⟩ | ⟨j, hj, rfl⟩ := digit_cases he
  · exact (zero_zsmul _).symm
  · rw [selectDigit_pos c _ hj, hentry hj]
  · rw [selectDigit_neg c _ hj, toCurve_neg h (onCurve_mem_multiples h hq (Vector.getElem_mem hj)), hentry hj, neg_zsmul]

end

/-- A fold from the most significant digit down, each step of which multiplies by 16 and adds what `f` makes of the
digit, gives what `f` makes of the digits' sum. -/
theorem toCurve_foldl_reverse [Fact (Nat.Prime c.p)] {A : Type} [AddCommGroup A] (f : A →+ c.weierstrass.Point)
    {step : Point → A → Point} (hkeeps : ∀ q e, c.onCurve q = true → c.onCurve (step q e) = true) {es : List A}
    (hstep : ∀ e ∈ es, ∀ q, c.onCurve q = true → c.toCurve (step q e) = f e + 16 • c.toCurve q) :
    c.toCurve (es.reverse.foldl step .identity) = f (radix16Sum es) := by
  induction es with
  | nil => exact (map_zero f).symm
  | cons e es ih =>
    obtain ⟨hhead, htail⟩ := List.forall_mem_cons.1 hstep
    rw [List.reverse_cons, List.foldl_append, List.foldl_cons, List.foldl_nil, hhead _ (onCurve_foldl hkeeps _ rfl),
      ih htail, radix16Sum_cons, map_add, map_nsmul]

theorem toCurve_windowMul [Fact (Nat.Prime c.p)] (h : c.Legal) {k : Nat} (hk : k < c.n) {q : Point}
    (hq : c.onCurve q = true) : c.toCurve (windowMul c k q) = k • c.toCurve q := by
  have hselect := onCurve_selectDigit_multiples h hq
  calc c.toCurve (windowMul c k q) = zmultiplesHom _ (c.toCurve q) (radix16Sum (recode c k)) := by
        refine toCurve_foldl_reverse _ (fun _ e hacc => onCurve_add h (onCurve_times16 h hacc) (hselect e)) ?_
        intro e he acc hacc
        rw [toCurve_add h (onCurve_times16 h hacc) (hselect e), toCurve_times16 h hacc,
          toCurve_selectDigit_multiples h hq (recode_mem_range hk e he), zmultiplesHom_apply, add_comm]
    _ = k • c.toCurve q := by rw [radix16Sum_recode hk, zmultiplesHom_apply, natCast_zsmul]

theorem windowMul_eq_nsmul (h : c.Legal) {k : Nat} (hk : k < c.n) {q : Point} (hq : c.onCurve q = true) :
    windowMul c k q = c.nsmul k q := by
  have := Fact.mk h.pPrime
  refine toCurve_injective h (onCurve_windowMul h k hq) (onCurve_nsmul h hq k) ?_
  rw [toCurve_windowMul h hk hq, toCurve_nsmul h hq]

section
variable (h : c.Legal) {k1 k2 : Nat} (hk1 : k1 < c.n) (hk2 : k2 < c.n) {q1 q2 : Point} (h1 : c.onCurve q1 = true)
  (h2 : c.onCurve q2 = true)
include h hk1 hk2 h1 h2

theorem toCurve_windowLincomb [Fact (Nat.Prime c.p)] :
    c.toCurve (windowLincomb c k1 q1 k2 q2) = k1 • c.toCurve q1 + k2 • c.toCurve q2 := by
  have hselect1 := onCurve_selectDigit_multiples h h1
  have hselect2 := onCurve_selectDigit_multiples h h2
  have hlen : (recode c k1).length = (recode c k2).length := (length_recode hk1).trans (length_recode hk2).symm
  calc c.toCurve (windowLincomb c k1 q1 k2 q2) =
        (zmultiplesHom _ (c.toCurve q1)).coprod (zmultiplesHom _ (c.toCurve q2))
          (radix16Sum ((recode c k1).zip (recode c k2))) := by
        refine toCurve_foldl_reverse _ (fun _ e hacc =>
          onCurve_add h (onCurve_add h (onCurve_times16 h hacc) (hselect1 e.1)) (hselect2 e.2)) ?_
        intro e he acc hacc
        have hacc16 := onCurve_times16 h hacc
        obtain ⟨he1, he2⟩ := List.of_mem_zip he
        rw [toCurve_add h (onCurve_add h hacc16 (hselect1 e.1)) (hselect2 e.2),
          toCurve_add h hacc16 (hselect1 e.1), toCurve_times16 h hacc,
          toCurve_selectDigit_multiples h h1 (recode_mem_range hk1 _ he1),
          toCurve_selectDigit_multiples h h2 (recode_mem_range hk2 _ he2), AddMonoidHom.coprod_apply,
          zmultiplesHom_apply, zmultiplesHom_apply]
        abel
    _ = k1 • c.toCurve q1 + k2 • c.toCurve q2 := by
        rw [radix16Sum_zip hlen, radix16Sum_recode hk1, radix16Sum_recode hk2, AddMonoidHom.coprod_apply,
          zmultiplesHom_apply, zmultiplesHom_apply, natCast_zsmul, natCast_zsmul]

theorem windowLincomb_eq_add : windowLincomb c k1 q1 k2 q2 = c.add (c.nsmul k1 q1) (c.nsmul k2 q2) := by
  have := Fact.mk h.pPrime
  have hnsmul1 := onCurve_nsmul h h1 k1
  have hnsmul2 := onCurve_nsmul h h2 k2
  refine toCurve_injective h (onCurve_windowLincomb h k1 k2 h1 h2) (onCurve_add h hnsmul1 hnsmul2) ?_
  rw [toCurve_windowLincomb h hk1 hk2 h1 h2, toCurve_add h hnsmul1 hnsmul2, toCurve_nsmul h h1, toCurve_nsmul h h2]

end

/-! ### The commands of the scalar multiplier and of the lookup table -/

variable {s : State} {i : Instr} {rd : PReg}

/-- A range-checked command that writes the point `q`. -/
theorem exec_writes_PR_inRange {m : Nat} {sources : List Nat} {q : Point} (hin : ∀ w ∈ sources, w < m)
    (hexec : exec i s = rangeChecked m sources s (s.storePR rd q)) :
    ∃ t, exec i s = .next t ∧ OnlyPR rd s t ∧ t.readPR rd = q :=
  exec_writes_PR (hexec.trans (rangeChecked_inRange hin))

/-- Settles O45: a scalar word stands for a scalar below `n`, for which the windowed computation is the sum. -/
theorem scalarMultiplicationCommands : Obligations.ScalarMultiplicationCommands := by
  intro s rd ra rc rb re hinv
  have hlegal := hinv.legal
  have hscalar i : s.value .scalar i < s.cfg.n := val_lt (modulus_pos hlegal .scalar) _
  refine ⟨⟨decodeOfEncodeIsTheCommand (.pmul rd ra rb) rfl, decodeOfEncodeIsTheCommand (.pmulg rd rb) rfl,
      decodeOfEncodeIsTheCommand (.lincomb rd ra rb rc re) rfl⟩,
    fun hb => ⟨?pmul, ?pmulg⟩, fun hb he => ?lincomb,
    fun hb => ⟨exec_source_outOfRange (d := .scalar) rfl hb, exec_source_outOfRange (d := .scalar) rfl hb⟩,
    exec_sources_outOfRange (d := .scalar) rfl⟩
  case pmul =>
    rw [← windowMul_eq_nsmul hlegal (hscalar rb) (hinv.prOnCurve ra)]
    exact exec_writes_PR_inRange hb.source rfl
  case pmulg =>
    rw [← windowMul_eq_nsmul hlegal (hscalar rb) hlegal.generatorOnCurve]
    exact exec_writes_PR_inRange hb.source rfl
  case lincomb =>
    rw [← windowLincomb_eq_add hlegal (hscalar rb) (hscalar re) (hinv.prOnCurve ra) (hinv.prOnCurve rc)]
    exact exec_writes_PR_inRange (hb.sources he) rfl

/-- Settles O46: the table written is that of the multiples of the base. -/
theorem lookupTableBuildCommand : Obligations.LookupTableBuildCommand := by
  intro s rd ra
  refine ⟨_, rfl, ⟨rfl, rfl, rfl, rfl, ⟨rfl, rfl, rfl, rfl, rfl, rfl, rfl⟩⟩, fun _ => rfl, fun _ => rfl, fun _ => rfl,
    ⟨fun _ => rfl, rfl⟩, rfl, rfl, fun k hk => by simp [hk], fun j hj => ?_⟩
  simp [getElem_multiples]

theorem immIsDigit_iff {imm8 : BitVec 8} : immIsDigit imm8 = true ↔ -8 ≤ imm8.toInt ∧ imm8.toInt ≤ 8 := by
  simp [immIsDigit]

/-- Settles O47: the immediate is legal exactly when it is a digit, and the cases of the digit are those of the
selection. -/
theorem lookupTableSelectCommand : Obligations.LookupTableSelectCommand := by
  intro s rd ra imm8 d
  have hexec : exec (.ltsel rd ra imm8) s =
      immChecked (immIsDigit imm8) s (s.storePR rd (selectDigit s.cfg (s.readLT ra) d)) := rfl
  refine ⟨fun hd => ?digit, fun hd => ?other⟩
  case digit =>
    rw [immIsDigit_iff.2 hd, immChecked_legal] at hexec
    obtain ⟨t, ht, honly, hpoint⟩ := exec_writes_PR hexec
    refine ⟨t, ht, honly, fun hzero => ?_, fun j hj hpos => ?_, fun j hj hneg => ?_⟩
    · rw [hpoint, hzero, selectDigit_zero]
    · rw [hpoint, hpos, selectDigit_pos _ _ hj]
    · rw [hpoint, hneg, selectDigit_neg _ _ hj]
  case other =>
    have hillegal : immIsDigit imm8 = false := Bool.eq_false_iff.2 fun hlegal => by
      have := immIsDigit_iff.1 hlegal
      omega
    rw [hexec, hillegal, immChecked_illegal, State.failed_eq_errorState]

/-! ### The commands without operands (44_scalar_mul.md R250, R253) -/

/-- Where the row of the opcode has no operands, the only check that can fail is that of the unused fields. -/
theorem decode_cases_of_no_operands {w : CmdWord} {op : Nat} {name : String}
    (hrow : rowOf (opOf w) = some ⟨op, name, false, .none, .none, .regs .none .none .none, fun _ => i⟩) :
    decode w = .ok i ∨ decode w = .error .rsv := by
  set r : Row := ⟨op, name, false, .none, .none, .regs .none .none .none, fun _ => i⟩
  cases hrsv : r.rsvViolated (fieldsOf w) with
  | true => exact .inr (by simp only [decode, show rowOf (fieldsOf w).op = some r from hrow, hrsv, if_true])
  | false =>
    refine .inl (decode_eq_ok_iff.2 ⟨r, hrow, ?_, rfl⟩)
    have hzero : (fieldsOf w).rsv = 0 ∧ (fieldsOf w).d = 0 ∧ (fieldsOf w).rd = 0 ∧ (fieldsOf w).ra = 0 ∧
        (fieldsOf w).rb = 0 ∧ (fieldsOf w).rc = 0 ∧ (fieldsOf w).re = 0 := by
      simpa [r, Row.rsvViolated, Slot.unusedNonzero, and_assoc] using hrsv
    obtain ⟨hrsv, hd, hrd, hra, hrb, hrc, hre⟩ := hzero
    exact ⟨hrsv, fun _ => hd, hrd ▸ Slot.fits_none, hra ▸ Slot.fits_none, hrb ▸ Slot.fits_none,
      hrc ▸ Slot.fits_none, hre ▸ Slot.fits_none⟩

theorem decode_of_no_operands {w : CmdWord} {op : Nat} {name : String}
    (hrow : rowOf (opOf w) = some ⟨op, name, false, .none, .none, .regs .none .none .none, fun _ => i⟩)
    (hi : i.wellFormed = true) :
    decode w = if w = encode i then .ok i else .error .rsv := by
  split
  · next hw => rw [hw, decodeOfEncodeIsTheCommand i hi]
  · next hw =>
    exact (decode_cases_of_no_operands hrow).resolve_left fun hok => hw (encodeOfDecodeIsTheWord w i hok).2.symm

/-- Settles O48: a word of either opcode that decodes is the word of its command; the cleared registers are those of
`State.zeroized`. -/
theorem systemCommands : Obligations.SystemCommands := by
  intro s
  refine ⟨fun w hop => decode_of_no_operands (by rw [hop]; rfl) rfl,
    fun w hop => decode_of_no_operands (by rw [hop]; rfl) rfl, rfl,
    s.zeroized.completed, rfl, ⟨rfl, rfl, rfl, rfl, ⟨rfl, rfl, rfl, rfl, rfl, rfl, rfl⟩⟩, s.readFR_zeroized,
    s.readPR_zeroized, s.readAR_zeroized, fun k j hj => by simp, s.bufByte_zeroized, rfl, rfl, rfl⟩

end Sys2Proof.Machine
end

section
/-!
PROOFS. Decoding errors in the order of their checks (60_exceptions.md R273 to R275, R278): the opcodes without a row
are the unassigned ones, and each check of a row is the check that the rules list for its opcode.
-/

namespace Sys2Proof

theorem bits_lt (v hi lo : Nat) : bits v hi lo < 2 ^ (hi - lo + 1) := Nat.mod_lt _ (Nat.two_pow_pos _)

theorem rowOf_opOf_eq_none_iff (w : CmdWord) : rowOf (opOf w) = none ↔ opOf w ∈ unassignedOpcodes := by
  have hmap : ∀ op < 64, rowOf op = none ↔ op ∈ unassignedOpcodes := by decide
  exact hmap (opOf w) (bits_lt _ _ _)

theorem Slot.unusedNonzero_eq (s : Slot) (v : Nat) : s.unusedNonzero v = (decide (s = none) && v != 0) := by
  cases s <;> rfl

/-- A four-bit field is an index of any file of 16. -/
theorem Slot.outOfRange_eq {v : Nat} (hv : v < 16) (s : Slot) :
    s.outOfRange v = (decide (s = P) && decide (8 ≤ v) || decide (s = A) && decide (4 ≤ v) ||
      decide (s = T) && decide (2 ≤ v)) := by
  rw [Bool.eq_iff_iff, outOfRange, decide_eq_true_iff]
  cases s <;> simp [limit, hv]

/-- What the lists of opcodes say of the fields after `rd` and `ra`. -/
def Tail.Listed (op : Nat) : Tail → Prop
  | .regs rb rc re =>
    opIsFormatI op = false ∧ opUsesRb op = !decide (rb = .none) ∧ (op != 0x3A) = decide (rc = .none) ∧
      (op != 0x3A) = decide (re = .none)
  | .imm _ => opIsFormatI op = true ∧ (op != 0x3A) = true

/-- The lists of opcodes are the columns of the opcode map (30_encoding.md R90). -/
theorem listed_of_mem_opcodeMap {r : Row} (hr : r ∈ opcodeMap) :
    opReservesD r.op = !r.usesD ∧ opUnusedRd r.op = decide (r.rd = .none) ∧
      opUnusedRa r.op = decide (r.ra = .none) ∧ r.tail.Listed r.op := by
  fin_cases hr <;> exact ⟨rfl, rfl, rfl, by simp [Tail.Listed, opIsFormatI, opUsesRb]⟩

theorem illegal_bit_eq (v : Nat) : ImmUse.bit.illegal v = decide (1 < v) := rfl

theorem illegal_unsigned_eq (v : Nat) : ImmUse.unsigned.illegal v = false := rfl

/-- The decoder's test of the eight bits of a digit is the test of its signed value. -/
theorem illegal_digit_eq (imm8 : BitVec 8) :
    ImmUse.digit.illegal imm8.toNat = (decide (imm8.toInt < -8) || decide (8 < imm8.toInt)) := by
  rw [illegal_toNat, Bool.eq_iff_iff]
  simp [ImmUse.legal, immIsDigit]

section
variable {r : Row} (hr : r ∈ opcodeMap) {w : CmdWord} (hop : opOf w = r.op)
include hr hop

theorem rsvViolated_eq_wordReserved : r.rsvViolated (fieldsOf w) = wordReserved w := by
  obtain ⟨hd, hrd, hra, htail⟩ := listed_of_mem_opcodeMap hr
  unfold Row.rsvViolated wordReserved
  cases hshape : r.tail with
  | regs rb rc re =>
    rw [hshape] at htail
    obtain ⟨hformat, hrb, hrc, hre⟩ := htail
    simp [Slot.unusedNonzero_eq, fieldsOf, hop, hd, hrd, hra, hformat, hrb, ← hrc, ← hre, Bool.or_assoc]
  | imm use =>
    rw [hshape] at htail
    obtain ⟨hformat, hop3A⟩ := htail
    simp [Slot.unusedNonzero_eq, fieldsOf, hop, hd, hrd, hra, hformat, hop3A]

/-- Row by row, the files of the index fields are those the rule lists. -/
theorem regViolated_eq_wordBadIndex : r.regViolated (fieldsOf w) = wordBadIndex w := by
  have hrd := Slot.outOfRange_eq (bits_lt w.toNat 19 16)
  have hra := Slot.outOfRange_eq (bits_lt w.toNat 15 12)
  have hrb := Slot.outOfRange_eq (bits_lt w.toNat 11 8)
  have hrc := Slot.outOfRange_eq (bits_lt w.toNat 7 4)
  have hre := Slot.outOfRange_eq (bits_lt w.toNat 3 0)
  unfold Row.regViolated wordBadIndex
  rw [hop]
  fin_cases hr <;> simp [fieldsOf, hrd, hra, hrb, hrc, hre, Bool.or_comm]

/-- Row by row, the legal immediates are those the rule lists. -/
theorem immViolated_eq_wordBadImm : r.immViolated (fieldsOf w) = wordBadImm w := by
  have himm : (BitVec.ofNat 8 (bits w.toNat 11 4)).toNat = bits w.toNat 11 4 := toNat_toImm_fieldsOf w
  have hdigit := illegal_digit_eq (BitVec.ofNat 8 (bits w.toNat 11 4))
  rw [himm] at hdigit
  unfold Row.immViolated wordBadImm
  rw [hop]
  fin_cases hr <;> simp [illegal_unsigned_eq, illegal_bit_eq, hdigit, fieldsOf]

end

/-- A word with an assigned opcode decodes, unless one of the checks that the rules list for the opcode fails; the first
that fails gives the code (60_exceptions.md R278). -/
theorem decode_of_assigned {w : CmdWord} (hop : opOf w ∉ unassignedOpcodes) :
    ∃ i, decode w = if wordReserved w then .error .rsv else if wordBadIndex w then .error .reg
      else if wordBadImm w then .error .imm else .ok i := by
  obtain ⟨r, hrow⟩ := Option.ne_none_iff_exists'.1 (mt (rowOf_opOf_eq_none_iff w).1 hop)
  obtain ⟨hr, hrop⟩ := mem_of_rowOf hrow
  refine ⟨r.build (fieldsOf w), ?_⟩
  rw [← rsvViolated_eq_wordReserved hr hrop.symm, ← regViolated_eq_wordBadIndex hr hrop.symm,
    ← immViolated_eq_wordBadImm hr hrop.symm]
  simp only [decode, show rowOf (fieldsOf w).op = some r from hrow]

theorem decode_of_unassigned {w : CmdWord} (hop : opOf w ∈ unassignedOpcodes) : decode w = .error .illegal := by
  simp only [decode, show rowOf (fieldsOf w).op = none from (rowOf_opOf_eq_none_iff w).2 hop]

/-- Settles O3: an unassigned opcode has no row, and an assigned one goes through the listed checks in their order. -/
theorem decodeErrorsInPriority : Obligations.DecodeErrorsInPriority := by
  intro w
  refine ⟨decode_of_unassigned, fun hop hrsv => ?_, fun hop hrsv hreg => ?_, fun hop hrsv hreg himm => ?_,
    fun hop hrsv hreg himm => ?_⟩ <;>
    obtain ⟨i, hdecode⟩ := decode_of_assigned hop
  · simp [hdecode, hrsv]
  · simp [hdecode, hrsv, hreg]
  · simp [hdecode, hrsv, hreg, himm]
  · exact ⟨i, by simp [hdecode, hrsv, hreg, himm]⟩

end Sys2Proof
end

section
/-!
PROOFS. Acceptance, completion and the interrupt (60_exceptions.md R270, R272, R277, R281, R282): every step answers a
next state, a completion writes STATUS as its outcome says, and IRQ follows DONE and IE.
-/

namespace Sys2Proof.Machine

variable {s : State}

/-! ### Completion (60_exceptions.md R272, R277, R281) -/

theorem coreStep_of_malformed {w : CmdWord} {e : CmdError} (hw : s.inflight = some w) (hd : decode w = .error e) :
    coreStep s = .next (s.failed e) := by
  rw [coreStep_of_inflight hw, completeWord, hd]
  rfl

/-- Whatever the word in flight, the core completes without error or ends in the error state of a code. -/
theorem coreStep_completes {w : CmdWord} (hw : s.inflight = some w) :
    (∃ t : State, coreStep s = .next t.completed ∧ SameControl s t ∧ t.errs = s.errs) ∨
      (∃ e, coreStep s = .next (s.failed e)) := by
  cases hd : decode w with
  | ok i =>
    rw [coreStep_of_inflight hw, completeWord_of_decode hd]
    exact exec_cases i s
  | error e => exact .inr ⟨e, coreStep_of_malformed hw hd⟩

/-- Settles O6: the core refuses the word with the decoder's code, alone or as the next entry of the order. -/
theorem malformedWordWritesStatusOnly : Obligations.MalformedWordWritesStatusOnly := by
  intro s w e hw hd
  refine ⟨fun hin => ?_, fun rest hin => ?_⟩
  · rw [step_of_no_inputs hin, coreStep_of_malformed hw hd, State.failed]
  · rw [step_of_inputs hin]
    exact coreStep_of_malformed (s := { s with inputs := rest }) hw hd

/-- Settles O8: a command ends in the error state of its code, or without an error code. -/
theorem commandErrorsArePrecise : Obligations.CommandErrorsArePrecise := by
  intro i s t e ht herr
  obtain ⟨u, heq, -, -⟩ | ⟨e', heq⟩ := exec_cases i s <;> cases heq.symm.trans ht
  · cases herr
  · cases herr
    rfl

/-- Settles O9: by the two ways a completion ends. -/
theorem completionSetsStatus : Obligations.CompletionSetsStatus := by
  intro s w hw
  obtain ⟨t, heq, -, herrs⟩ | ⟨e, heq⟩ := coreStep_completes hw
  · exact ⟨t.completed, heq, rfl, rfl, .inl ⟨rfl, herrs⟩⟩
  · exact ⟨s.failed e, heq, rfl, rfl, .inr ⟨e, rfl, rfl⟩⟩

theorem coreStep_next (s : State) : ∃ t, coreStep s = .next t := by
  cases hw : s.inflight with
  | none => exact ⟨_, by rw [coreStep, hw]⟩
  | some w =>
    obtain ⟨t, heq, -, -⟩ | ⟨e, heq⟩ := coreStep_completes hw
    · exact ⟨_, heq⟩
    · exact ⟨_, heq⟩

/-- Settles O7: the core answers a next state, and so does each entry of the order. -/
theorem everyStepAnswersNext : Obligations.EveryStepAnswersNext := by
  intro s
  obtain ⟨-, heq⟩ | ⟨i, rest, -, heq⟩ := step_cases s <;> rw [heq]
  · exact coreStep_next s
  · cases i with
    | read bytes addr | write bytes addr v | reset => exact ⟨_, rfl⟩
    | core => exact coreStep_next _

/-! ### Acceptance (60_exceptions.md R270) -/

/-- A 32-bit write at an aligned offset of the window does what the write of the register there does, and answers OK. -/
theorem step_write_aligned {off : Nat} {v : BitVec 32} {rest : List Input} {r : HostReg}
    (hin : s.inputs = .write 4 (s.cfg.baseAddr + off) v :: rest) (haligned : off % 4 = 0) (hbelow : off < 0x200)
    (hr : hostReg s.cfg off = some r) :
    step s = .next ((State.writeReg { s with inputs := rest } r v).respond { error := false, data := none }) := by
  have hreg : accessReg s.cfg 4 (s.cfg.baseAddr + off) = some r := by
    rw [accessReg_offset, if_pos ⟨rfl, haligned⟩, hr]
  rw [step_of_inputs hin]
  exact congrArg Host.Outcome.next
    (hostWrite_mapped (s := { s with inputs := rest }) v (inWindow_offset s.cfg hbelow) hreg)

/-- Settles O49: offset 0x014 is CMD, whose write accepts the word while idle. -/
theorem commandAcceptance : Obligations.CommandAcceptance := by
  intro s v rest hin hidle
  rw [step_write_aligned hin rfl (by decide) (r := .cmd) rfl, State.writeReg,
    unlessBusy_of_idle (s := { s with inputs := rest }) _ hidle]
  rfl

/-! ### The interrupt (60_exceptions.md R282, 70_reset_and_hazards.md R301) -/

namespace State

@[simp] theorem irq_performReset (s : State) : s.performReset.irq = false := rfl

@[simp] theorem irq_accept (s : State) (w : CmdWord) : (s.accept w).irq = false := rfl

@[simp] theorem irq_respond (s : State) (r : Response) : (s.respond r).irq = s.irq := rfl

theorem irq_writeStatus (s : State) {v : BitVec 32} (h : v.getLsbD 1 = true) : (s.writeStatus v).irq = false := by
  simp [irq, writeStatus, h]

theorem irq_writeCtrl_of_reset (s : State) {v : BitVec 32} (h : v.getLsbD 1 = true) :
    (s.writeCtrl v).irq = false := by
  rw [writeCtrl, if_pos h, irq_performReset]

/-- With bit 1 set too, the reset clears IE. -/
theorem irq_writeCtrl_of_disable (s : State) {v : BitVec 32} (h : v.getLsbD 0 = false) :
    (s.writeCtrl v).irq = false := by
  cases hreset : v.getLsbD 1 with
  | true => exact s.irq_writeCtrl_of_reset hreset
  | false => rw [writeCtrl_of_no_reset s hreset, irq, h, Bool.and_false]

end State

/-- A completion keeps IE and sets DONE. -/
theorem coreStep_raises_irq {w : CmdWord} (hw : s.inflight = some w) (hie : s.ie = true) :
    ∃ t, coreStep s = .next t ∧ t.irq = true := by
  obtain ⟨t, heq, hcontrol, -⟩ | ⟨e, heq⟩ := coreStep_completes hw
  · exact ⟨t.completed, heq, by simp [State.irq, hcontrol.ie, hie]⟩
  · exact ⟨s.failed e, heq, by simp [State.irq, hie]⟩

/-- Settles O57: a completion sets DONE; each listed event clears DONE or IE. -/
theorem interruptFollowsDoneAndEnable : Obligations.InterruptFollowsDoneAndEnable := by
  intro s v rest
  have hclears {off : Nat} {r : HostReg} (haligned : off % 4 = 0) (hbelow : off < 0x200)
      (hr : hostReg s.cfg off = some r) (hirq : (State.writeReg { s with inputs := rest } r v).irq = false)
      (hin : s.inputs = .write 4 (s.cfg.baseAddr + off) v :: rest) : ∃ t, step s = .next t ∧ t.irq = false :=
    ⟨_, step_write_aligned hin haligned hbelow hr, hirq⟩
  refine ⟨Bool.and_eq_true_iff, fun w hw hie => coreStep_raises_irq hw hie, fun hin hdone => ?_,
    fun hin hdisable => ?_, fun hin hidle => ?_, fun hin => ?_, fun hin hreset => ?_⟩
  · exact hclears (r := .status) rfl (by decide) rfl (State.irq_writeStatus _ hdone) hin
  · exact hclears (r := .ctrl) rfl (by decide) rfl (State.irq_writeCtrl_of_disable _ hdisable) hin
  · refine hclears (r := .cmd) rfl (by decide) rfl ?_ hin
    rw [State.writeReg, unlessBusy_of_idle (s := { s with inputs := rest }) _ hidle, State.irq_accept]
  · exact ⟨_, step_of_inputs hin, State.irq_performReset _⟩
  · exact hclears (r := .ctrl) rfl (by decide) rfl (State.irq_writeCtrl_of_reset _ hreset) hin

end Sys2Proof.Machine
end

section
/-!
PROOFS. The idle core, the writes dropped while busy, and the state a reset leaves (70_reset_and_hazards.md R300 to
R302, R310; 60_exceptions.md R290).
-/

namespace Sys2Proof.Machine

variable {s : State}

/-! ### The idle core (60_exceptions.md R290, 70_reset_and_hazards.md R302) -/

theorem coreStep_of_idle (hidle : s.inflight = none) : coreStep s = .next { s with init := s.init - 1 } := by
  rw [coreStep, hidle]

theorem State.busy_iff_of_idle (hidle : s.inflight = none) : s.busy = true ↔ 0 < s.init := by
  rw [State.busy, hidle, Option.isSome_none, Bool.false_or, decide_eq_true_iff]

/-- Settles O58: the core counts initialisation down, and a count of 0 stays. -/
theorem idleCoreKeepsState : Obligations.IdleCoreKeepsState := by
  intro s hidle
  refine ⟨coreStep_of_idle hidle, State.busy_iff_of_idle hidle, fun hinit => ?_⟩
  have hstays : s.init - 1 = s.init := by omega
  rw [coreStep_of_idle hidle, hstays]

/-! ### Writes dropped while busy (70_reset_and_hazards.md R310) -/

theorem unlessBusy_of_busy (t : State) (hbusy : s.busy = true) : s.unlessBusy t = s.dropWrite := by
  rw [State.unlessBusy, if_pos hbusy]

/-- Settles O50: each of these offsets names a register whose write waits for an idle core. -/
theorem busyWritesAreDropped : Obligations.BusyWritesAreDropped := by
  intro s off v rest hlegal hin hbusy hoff
  have hdropped (t : State) := unlessBusy_of_busy (s := { s with inputs := rest }) t hbusy
  obtain rfl | rfl | ⟨i, hi, rfl⟩ := hoff
  · exact step_write_mapped (r := .cmd) hlegal hin rfl (hdropped _)
  · exact step_write_mapped (r := .buflen) hlegal hin rfl (hdropped _)
  · exact step_write_mapped hlegal hin (hostReg_bufWord hi) (hdropped _)

/-! ### Reset (70_reset_and_hazards.md R300, R301) -/

/-- SRST reads 0 in every state (10_state.md R35). -/
theorem State.ctrlWord_srst (s : State) : s.ctrlWord.getLsbD 1 = false := by
  rw [State.ctrlWord]
  cases s.ie <;> rfl

/-- The soft reset wins over IE. -/
theorem writeCtrl_of_reset (s : State) {v : BitVec 32} (h : v.getLsbD 1 = true) : s.writeCtrl v = s.performReset := by
  rw [State.writeCtrl, if_pos h]

/-- The reset input and the soft reset leave the same state, but for the response to the write. -/
theorem step_of_reset {v : BitVec 32} {rest : List Input}
    (h : s.inputs = .reset :: rest ∨
      (s.inputs = .write 4 (s.cfg.baseAddr + 0x00C) v :: rest ∧ v.getLsbD 1 = true)) :
    ∃ resp, step s = .next (State.performReset { s with inputs := rest, resp := resp }) := by
  obtain hin | ⟨hin, hsrst⟩ := h
  · exact ⟨s.resp, step_of_inputs hin⟩
  · refine ⟨some { error := false, data := none }, ?_⟩
    rw [step_write_aligned hin rfl (by decide) (r := .ctrl) rfl, State.writeReg, writeCtrl_of_reset _ hsrst]
    rfl

/-- Settles O53: both resets leave the reset state, register by register. -/
theorem resetValues : Obligations.ResetValues := by
  intro s v rest h
  obtain ⟨resp, hstep⟩ := step_of_reset h
  refine ⟨_, hstep, rfl, State.readFR_performReset _, State.readPR_performReset _, State.readAR_performReset _,
    fun k j hj => ?table, rfl, State.bufByte_performReset _, rfl, rfl, rfl, rfl, rfl, rfl, rfl, rfl, rfl,
    s.cfg.initAfterReset_le s.draws, rfl, State.busy_iff_of_idle rfl, State.ctrlWord_srst _⟩
  case table => simp only [State.readLT_performReset, Vector.getElem_replicate]

end Sys2Proof.Machine
end

section
/-!
PROOFS. Words written out in the spec (30_encoding.md section 3, 95_test_vectors.md section 3): each is the encoding of
its command, so the round trip of the encoder gives its decoding.
-/

namespace Sys2Proof

/-- To decode a word it is enough to name the well-formed command that it encodes. -/
theorem decode_of_encode_eq {w : CmdWord} {i : Instr} (hword : encode i = w) (hlegal : i.wellFormed = true) :
    decode w = .ok i := by
  rw [← hword]
  exact decodeOfEncodeIsTheCommand i hlegal

/-- Settles O4: the six words are the encodings of the six commands. -/
theorem specWordsDecode : Obligations.SpecWordsDecode := by
  have hfadd : encode (.fadd .field 3 1 2) = 0x04031200 := by decide
  have hfdec : encode (.fdec .scalar 1) = 0x52010000 := by decide
  have hpadda : encode (.padda 1 0 0) = 0x8C010000 := by decide
  have hlincomb : encode (.lincomb 2 0 1 1 2) = 0xE8020112 := by decide
  have hltsel : encode (.ltsel 1 0 0xFD) = 0xF0010FD0 := by decide
  have hnop : encode .nop = 0x00000000 := by decide
  exact ⟨decode_of_encode_eq hfadd rfl, decode_of_encode_eq hfdec rfl, decode_of_encode_eq hpadda rfl,
    decode_of_encode_eq hlincomb rfl, decode_of_encode_eq hltsel (by decide), decode_of_encode_eq hnop rfl⟩

end Sys2Proof
end

section
/-!
PROOFS. The state after the reset of a legal build has the invariant (70_reset_and_hazards.md R300, R302), and TOY13 is
a legal build.
-/

namespace Sys2Proof.Machine

open Params

/-- TOY13 meets every condition on a build (00_scope.md R9, 95_test_vectors.md section 1). -/
theorem legal_toy13 : toy13.Legal := by
  constructor
  case pPrime | nPrime => norm_num [toy13]
  -- the other conditions compute
  all_goals decide

/-- Registers of 0 and of the identity, tables of the identity, an empty buffer and nothing in flight. -/
theorem State.inv_resetOf {c : Params} (h : c.Legal) : (resetOf c).Inv where
  legal := h
  frRange i := .inl (by rw [readFR_resetOf]; exact h.pPrime.pos)
  prOnCurve i := by rw [readPR_resetOf]; rfl
  arOnCurve i := by rw [readAR_resetOf]; rfl
  ltMultiples t := ⟨.identity, rfl, (readLT_resetOf c t).trans c.multiples_identity.symm⟩
  bufCanonical := Memory.wf_resetOf c
  bufWithin i _ := bufByte_resetOf c i
  inflightAccepted := nofun
  initBound := c.initAfterReset_le 0

/-- Settles O11: what a reset leaves has the invariant for every legal build, and TOY13 is one. -/
theorem resetStateHasInvariant : Obligations.ResetStateHasInvariant :=
  ⟨fun _ => State.inv_resetOf, State.inv_resetOf legal_toy13⟩

end Sys2Proof.Machine
end
